-- ==== Sys2Proof/Word.lean ====
section
/-! DEFINITION. The types of values of the engine: bytes, words, register numbers, and the
shape of one lookup table. Their arithmetic is core Lean's `BitVec`, whose bit 0 is the least
significant bit (spec 00_scope.md R10, R11). -/

namespace Sys2Proof

/-- A byte of buffer memory, or the byte operand of a byte step. -/
abbrev Byte := BitVec 8

/-- A 16-bit datum. -/
abbrev Half := BitVec 16

/-- A 32-bit value: an accumulator, a CRC, a table entry, a command word (R7, R73). -/
abbrev Word32 := BitVec 32

/-- A 64-bit value: the contents of a general register, a data word, a product (R26). -/
abbrev Word64 := BitVec 64

/-- A register number, R0 to R15 (R26, R75). The bound is carried by the type, so no
instruction can name a register that does not exist. -/
abbrev RegId := Fin 16

/-- One row of a lookup table: 256 columns of 32-bit entries (R7, R41). -/
abbrev TableRow := Vector Word32 256

/-- One variant's lookup table: 8 rows (R7, R41). -/
abbrev Table := Vector TableRow 8

end Sys2Proof
end

