-- ==== Sys2Proof/Config.lean ====
section
/-! DEFINITION. The parameters of the engine that the spec leaves to the platform
(00_scope.md R8): plain data, held in `State` and never changed by a step, so a statement about
every state is a statement about every configuration. -/

namespace Sys2Proof

/-- A run of consecutive buffer addresses `base .. base + size - 1`. -/
structure Region where
  base : Nat
  size : Nat
deriving DecidableEq, Repr

/-- The parameters of R8, and the byte that mapped memory holds at launch wherever the launch
image lists nothing else (part of the launch image of R181; assumption log 2). -/
structure Config where
  /-- `ADDR_W`: the width of a buffer address in bits. -/
  addrW : Nat
  /-- `NCTX`: the number of command contexts. -/
  nctx : Nat
  /-- `MAPPED`: the addresses that exist, as the union of regions (cut at `2 ^ ADDR_W`). -/
  mapped : List Region
  /-- The launch contents of every mapped byte that the launch image does not list. -/
  fill : Byte
  /-- `F_CRC`: the host CPU has the native CRC32C step instructions. -/
  fCrc : Bool
  /-- `F_CLMUL`: the host CPU has carry-less multiply. -/
  fClmul : Bool
  /-- `HOST_BE`: the host byte order is big-endian. -/
  hostBE : Bool
  /-- `HAS_SW_LE`: the little-endian SoftwareEngine is built in. -/
  hasSwLE : Bool
  /-- `HAS_SW_BE`: the big-endian SoftwareEngine is built in. -/
  hasSwBE : Bool
  /-- `HAS_HW`: the HardwareEngine is built in. -/
  hasHW : Bool
deriving DecidableEq, Repr

/-- The launch configuration of `Machine.State.reset`: the reference values of R8 (`ADDR_W` 64,
`NCTX` 1, little-endian host, every engine built in) and, for the values R8 calls launch-specific,
those of program P1 of 95_test_vectors.md: every CPU feature present, every address mapped.
DESIGN CHOICE (assumption log 1 and 2, unsafe): the spec names no launch. -/
def Config.reference : Config where
  addrW := 64
  nctx := 1
  mapped := [⟨0, 2 ^ 64⟩]
  fill := 0
  fCrc := true
  fClmul := true
  hostBE := false
  hasSwLE := true
  hasSwBE := true
  hasHW := true

/-- The identity string of the command set (R2). -/
def identity : String := "CRC32C-SX/1"

end Sys2Proof
end

