-- ==== Sys2Proof/Syntax.lean ====
section
/-! DEFINITION. What the engine is given: the 30 commands (30_encoding.md R79, R80), the raw
fields of the one command format (R74), and the host-port operations with what they return
(10_state.md R47, 70_reset_and_hazards.md R193). -/

namespace Sys2Proof

/-- The byte-order variant of a lookup table and of a software engine (00_scope.md R23). -/
inductive Variant where
  | le
  | be
deriving DecidableEq, Repr

/-- The commands, one constructor per row of the opcode table. Operands stand in the order
RD, RS1, RS2, RS3, and only those a row uses (R80). -/
inductive Instr where
  | select (rd : RegId)
  | tbuildLE
  | tbuildBE
  | treadLE (rd rs1 : RegId)
  | treadBE (rd rs1 : RegId)
  | update (rd rs1 rs2 rs3 : RegId)
  | updateSWLE (rd rs1 rs2 rs3 : RegId)
  | updateSWBE (rd rs1 rs2 rs3 : RegId)
  | updateHW (rd rs1 rs2 rs3 : RegId)
  | crc32cb (rd rs1 rs2 : RegId)
  | crc32ch (rd rs1 rs2 : RegId)
  | crc32cw (rd rs1 rs2 : RegId)
  | crc32cx (rd rs1 rs2 : RegId)
  | clmul (rd rs1 rs2 : RegId)
  | foldk1 (rd rs1 : RegId)
  | foldk2 (rd rs1 : RegId)
  | tstepLE (rd rs1 rs2 : RegId)
  | tstepBE (rd rs1 rs2 : RegId)
  | tsliceLE (rd rs1 rs2 : RegId)
  | tsliceBE (rd rs1 rs2 : RegId)
  | xor (rd rs1 rs2 : RegId)
  | inv (rd rs1 : RegId)
  | ldleB (rd rs1 : RegId)
  | ldleH (rd rs1 : RegId)
  | ldleW (rd rs1 : RegId)
  | ldleX (rd rs1 : RegId)
  | ldbeB (rd rs1 : RegId)
  | ldbeH (rd rs1 : RegId)
  | ldbeW (rd rs1 : RegId)
  | ldbeX (rd rs1 : RegId)
deriving DecidableEq, Repr

/-- The raw fields of a format-C command word (R74), legal or not. -/
structure FormatC where
  op  : BitVec 6
  rd  : BitVec 4
  rs1 : BitVec 4
  rs2 : BitVec 4
  rs3 : BitVec 4
  v   : BitVec 2
  res : BitVec 8
deriving DecidableEq, Repr

/-- An operation of the host port (R47). A context is named by its number, a register by its
number, an address by a full 64-bit value. -/
inductive HostOp where
  | writeReg (ctx : Nat) (r : RegId) (v : Word64)
  | readReg (ctx : Nat) (r : RegId)
  | issue (ctx : Nat) (w : Word32)
  | readStatus (ctx : Nat)
  | readFeat
  | readEngsel
  | writeMem (a : Word64) (b : Byte)
  | reset
deriving DecidableEq, Repr

/-- What a reading host-port operation returned: the observations of a run (R193). -/
inductive Observation where
  | reg (ctx : Nat) (r : RegId) (v : Word64)
  | status (ctx : Nat) (status fcmd : Word32) (faddr : Word64)
  | feat (v : Word32)
  | engsel (v : Word32)
deriving DecidableEq, Repr

end Sys2Proof
end

