-- ==== Sys2Proof/WellFormed.lean ====
section
/-! DEFINITION. Well-formedness checks, each a `Bool`: of the raw fields of a command word
(30_encoding.md R81, its four ways to be illegal as four checks), of a configuration
(00_scope.md R8), and of a host-port operation (10_state.md R47). An `Instr` needs no check:
its register numbers are bounded by their type. -/

namespace Sys2Proof

/-- OP is one of 0x01 to 0x0D (R81, first point). -/
def FormatC.opDefined (f : FormatC) : Bool :=
  decide (0x01 ≤ f.op.toNat) && decide (f.op.toNat ≤ 0x0D)

/-- RES is 0 (R77; R81, second point). -/
def FormatC.resZero (f : FormatC) : Bool :=
  f.res == 0

/-- V is a value the opcode defines (R76; R81, third point): only 0 for SELECT, CLMUL, XOR and
INV, only 0 and 1 for TBUILD, TREAD, FOLDK, TSTEP and TSLICE. -/
def FormatC.vDefined (f : FormatC) : Bool :=
  if [0x01, 0x06, 0x0A, 0x0B].contains f.op.toNat then f.v == 0
  else if [0x02, 0x03, 0x07, 0x08, 0x09].contains f.op.toNat then decide (f.v.toNat ≤ 1)
  else true

/-- Every register field the opcode does not use is 0 (R80; R81, fourth point): TBUILD uses no RD,
SELECT and TBUILD no RS1; only UPDATE, CRC32C, CLMUL, TSTEP, TSLICE and XOR use RS2; only UPDATE
uses RS3. -/
def FormatC.unusedZero (f : FormatC) : Bool :=
  (f.op.toNat != 0x02 || f.rd == 0) &&
  (!([0x01, 0x02].contains f.op.toNat) || f.rs1 == 0) &&
  ([0x04, 0x05, 0x06, 0x08, 0x09, 0x0A].contains f.op.toNat || f.rs2 == 0) &&
  (f.op.toNat == 0x04 || f.rs3 == 0)

/-- The fields are those of a legal command: none of the four points of R81 holds. -/
def FormatC.legal (f : FormatC) : Bool :=
  f.opDefined && f.resZero && f.vDefined && f.unusedZero

/-- R8's ranges: `ADDR_W` is 1 to 64 and `NCTX` at least 1. -/
def Config.wellFormed (c : Config) : Bool :=
  decide (1 ≤ c.addrW) && decide (c.addrW ≤ 64) && decide (1 ≤ c.nctx)

/-- A host-port operation names a context that exists, where it names one (R25, R47). -/
def HostOp.wellFormed (nctx : Nat) : HostOp → Bool
  | .writeReg i _ _ => decide (i < nctx)
  | .readReg i _ => decide (i < nctx)
  | .issue i _ => decide (i < nctx)
  | .readStatus i => decide (i < nctx)
  | .readFeat => true
  | .readEngsel => true
  | .writeMem _ _ => true
  | .reset => true

end Sys2Proof
end

