-- ==== Sys2Proof/Decode.lean ====
section
/-! DEFINITION. The decoder (30_encoding.md R87, total on every 32-bit word, naming the way a word
is illegal), and after it the encoder (R74, R80). -/

namespace Sys2Proof

/-- The four ways a word is illegal, named after the points of R81. All of them behave identically:
ILLEGAL_COMMAND (R82). -/
inductive Illegal where
  | reservedOpcode
  | resNotZero
  | undefinedVariant
  | unusedFieldNotZero
deriving DecidableEq, Repr

/-- The fields of a command word (R74). -/
def FormatC.ofWord (w : Word32) : FormatC where
  op  := w.extractLsb' 26 6
  rd  := w.extractLsb' 22 4
  rs1 := w.extractLsb' 18 4
  rs2 := w.extractLsb' 14 4
  rs3 := w.extractLsb' 10 4
  v   := w.extractLsb' 8 2
  res := w.extractLsb' 0 8

/-- A register field names the register of that number (R75). -/
def regOf (b : BitVec 4) : RegId := ⟨b.toNat, b.isLt⟩

/-- A row without operands: all four register fields are unused. -/
def FormatC.decode0 (f : FormatC) (i : Instr) : Except Illegal Instr :=
  if f.rd = 0 ∧ f.rs1 = 0 ∧ f.rs2 = 0 ∧ f.rs3 = 0 then .ok i else .error .unusedFieldNotZero

/-- A row that uses RD. -/
def FormatC.decode1 (f : FormatC) (i : RegId → Instr) : Except Illegal Instr :=
  if f.rs1 = 0 ∧ f.rs2 = 0 ∧ f.rs3 = 0 then .ok (i (regOf f.rd)) else .error .unusedFieldNotZero

/-- A row that uses RD and RS1. -/
def FormatC.decode2 (f : FormatC) (i : RegId → RegId → Instr) : Except Illegal Instr :=
  if f.rs2 = 0 ∧ f.rs3 = 0 then .ok (i (regOf f.rd) (regOf f.rs1)) else .error .unusedFieldNotZero

/-- A row that uses RD, RS1 and RS2. -/
def FormatC.decode3 (f : FormatC) (i : RegId → RegId → RegId → Instr) : Except Illegal Instr :=
  if f.rs3 = 0 then .ok (i (regOf f.rd) (regOf f.rs1) (regOf f.rs2)) else .error .unusedFieldNotZero

/-- A row that uses RD, RS1, RS2 and RS3. -/
def FormatC.decode4 (f : FormatC) (i : RegId → RegId → RegId → RegId → Instr) :
    Except Illegal Instr :=
  .ok (i (regOf f.rd) (regOf f.rs1) (regOf f.rs2) (regOf f.rs3))

/-- The opcode map (R79): the row that OP and V select. -/
def FormatC.decode (f : FormatC) : Except Illegal Instr :=
  match f.op.toNat, f.v.toNat with
  | 0x01, 0 => f.decode1 .select
  | 0x02, 0 => f.decode0 .tbuildLE
  | 0x02, 1 => f.decode0 .tbuildBE
  | 0x03, 0 => f.decode2 .treadLE
  | 0x03, 1 => f.decode2 .treadBE
  | 0x04, 0 => f.decode4 .update
  | 0x04, 1 => f.decode4 .updateSWLE
  | 0x04, 2 => f.decode4 .updateSWBE
  | 0x04, 3 => f.decode4 .updateHW
  | 0x05, 0 => f.decode3 .crc32cb
  | 0x05, 1 => f.decode3 .crc32ch
  | 0x05, 2 => f.decode3 .crc32cw
  | 0x05, 3 => f.decode3 .crc32cx
  | 0x06, 0 => f.decode3 .clmul
  | 0x07, 0 => f.decode2 .foldk1
  | 0x07, 1 => f.decode2 .foldk2
  | 0x08, 0 => f.decode3 .tstepLE
  | 0x08, 1 => f.decode3 .tstepBE
  | 0x09, 0 => f.decode3 .tsliceLE
  | 0x09, 1 => f.decode3 .tsliceBE
  | 0x0A, 0 => f.decode3 .xor
  | 0x0B, 0 => f.decode2 .inv
  | 0x0C, 0 => f.decode2 .ldleB
  | 0x0C, 1 => f.decode2 .ldleH
  | 0x0C, 2 => f.decode2 .ldleW
  | 0x0C, 3 => f.decode2 .ldleX
  | 0x0D, 0 => f.decode2 .ldbeB
  | 0x0D, 1 => f.decode2 .ldbeH
  | 0x0D, 2 => f.decode2 .ldbeW
  | 0x0D, 3 => f.decode2 .ldbeX
  | _, _ => if f.opDefined then .error .undefinedVariant else .error .reservedOpcode

/-- The decode function of R87: the command a word encodes, or the way it is illegal. -/
def decode (w : Word32) : Except Illegal Instr :=
  let f := FormatC.ofWord w
  if f.res = 0 then f.decode else .error .resNotZero

/-- A command word from its fields: `OP<<26 | RD<<22 | RS1<<18 | RS2<<14 | RS3<<10 | V<<8` (R74),
with RES in bits [7:0]. -/
def FormatC.toWord (f : FormatC) : Word32 :=
  (f.op.zeroExtend 32 <<< 26) ||| (f.rd.zeroExtend 32 <<< 22) ||| (f.rs1.zeroExtend 32 <<< 18) |||
  (f.rs2.zeroExtend 32 <<< 14) ||| (f.rs3.zeroExtend 32 <<< 10) ||| (f.v.zeroExtend 32 <<< 8) |||
  f.res.zeroExtend 32

/-- The register field that names a register (R75). -/
def fieldOf (r : RegId) : BitVec 4 := BitVec.ofFin r

/-- The fields of a command (R80): OP and V of its row, the register fields it uses, 0 in every
other field. -/
def Instr.fields : Instr → FormatC
  | .select rd => ⟨0x01, fieldOf rd, 0, 0, 0, 0, 0⟩
  | .tbuildLE => ⟨0x02, 0, 0, 0, 0, 0, 0⟩
  | .tbuildBE => ⟨0x02, 0, 0, 0, 0, 1, 0⟩
  | .treadLE rd rs1 => ⟨0x03, fieldOf rd, fieldOf rs1, 0, 0, 0, 0⟩
  | .treadBE rd rs1 => ⟨0x03, fieldOf rd, fieldOf rs1, 0, 0, 1, 0⟩
  | .update rd rs1 rs2 rs3 => ⟨0x04, fieldOf rd, fieldOf rs1, fieldOf rs2, fieldOf rs3, 0, 0⟩
  | .updateSWLE rd rs1 rs2 rs3 => ⟨0x04, fieldOf rd, fieldOf rs1, fieldOf rs2, fieldOf rs3, 1, 0⟩
  | .updateSWBE rd rs1 rs2 rs3 => ⟨0x04, fieldOf rd, fieldOf rs1, fieldOf rs2, fieldOf rs3, 2, 0⟩
  | .updateHW rd rs1 rs2 rs3 => ⟨0x04, fieldOf rd, fieldOf rs1, fieldOf rs2, fieldOf rs3, 3, 0⟩
  | .crc32cb rd rs1 rs2 => ⟨0x05, fieldOf rd, fieldOf rs1, fieldOf rs2, 0, 0, 0⟩
  | .crc32ch rd rs1 rs2 => ⟨0x05, fieldOf rd, fieldOf rs1, fieldOf rs2, 0, 1, 0⟩
  | .crc32cw rd rs1 rs2 => ⟨0x05, fieldOf rd, fieldOf rs1, fieldOf rs2, 0, 2, 0⟩
  | .crc32cx rd rs1 rs2 => ⟨0x05, fieldOf rd, fieldOf rs1, fieldOf rs2, 0, 3, 0⟩
  | .clmul rd rs1 rs2 => ⟨0x06, fieldOf rd, fieldOf rs1, fieldOf rs2, 0, 0, 0⟩
  | .foldk1 rd rs1 => ⟨0x07, fieldOf rd, fieldOf rs1, 0, 0, 0, 0⟩
  | .foldk2 rd rs1 => ⟨0x07, fieldOf rd, fieldOf rs1, 0, 0, 1, 0⟩
  | .tstepLE rd rs1 rs2 => ⟨0x08, fieldOf rd, fieldOf rs1, fieldOf rs2, 0, 0, 0⟩
  | .tstepBE rd rs1 rs2 => ⟨0x08, fieldOf rd, fieldOf rs1, fieldOf rs2, 0, 1, 0⟩
  | .tsliceLE rd rs1 rs2 => ⟨0x09, fieldOf rd, fieldOf rs1, fieldOf rs2, 0, 0, 0⟩
  | .tsliceBE rd rs1 rs2 => ⟨0x09, fieldOf rd, fieldOf rs1, fieldOf rs2, 0, 1, 0⟩
  | .xor rd rs1 rs2 => ⟨0x0A, fieldOf rd, fieldOf rs1, fieldOf rs2, 0, 0, 0⟩
  | .inv rd rs1 => ⟨0x0B, fieldOf rd, fieldOf rs1, 0, 0, 0, 0⟩
  | .ldleB rd rs1 => ⟨0x0C, fieldOf rd, fieldOf rs1, 0, 0, 0, 0⟩
  | .ldleH rd rs1 => ⟨0x0C, fieldOf rd, fieldOf rs1, 0, 0, 1, 0⟩
  | .ldleW rd rs1 => ⟨0x0C, fieldOf rd, fieldOf rs1, 0, 0, 2, 0⟩
  | .ldleX rd rs1 => ⟨0x0C, fieldOf rd, fieldOf rs1, 0, 0, 3, 0⟩
  | .ldbeB rd rs1 => ⟨0x0D, fieldOf rd, fieldOf rs1, 0, 0, 0, 0⟩
  | .ldbeH rd rs1 => ⟨0x0D, fieldOf rd, fieldOf rs1, 0, 0, 1, 0⟩
  | .ldbeW rd rs1 => ⟨0x0D, fieldOf rd, fieldOf rs1, 0, 0, 2, 0⟩
  | .ldbeX rd rs1 => ⟨0x0D, fieldOf rd, fieldOf rs1, 0, 0, 3, 0⟩

/-- The command word of a command (R74). -/
def encode (i : Instr) : Word32 := i.fields.toWord

/-- The instruction the decoder reads from an opcode-table word of `nbits` bits. A command is one
32-bit word handed over whole by the host (R51, R73), so no byte order enters; bits from `nbits` on
are 0. -/
def decodeTableWord (nbits w : Nat) : Option Instr :=
  (decode (BitVec.ofNat 32 (w % 2 ^ nbits))).toOption

/-! The opcode table as the spec prints it, and R87's decoder over it, kept beside `decode` so that
the two readings of the encoding can be held against each other. -/

/-- A row of the table of R80: its match, its mask, and the command built from the four register
fields. -/
structure OpRow where
  bits : Word32
  mask : Word32
  make : RegId → RegId → RegId → RegId → Instr

/-- The table of R80, row by row in its order. -/
def opcodeTable : List OpRow := [
  ⟨0x04000000, 0xFC3FFFFF, fun rd _ _ _ => .select rd⟩,
  ⟨0x08000000, 0xFFFFFFFF, fun _ _ _ _ => .tbuildLE⟩,
  ⟨0x08000100, 0xFFFFFFFF, fun _ _ _ _ => .tbuildBE⟩,
  ⟨0x0C000000, 0xFC03FFFF, fun rd rs1 _ _ => .treadLE rd rs1⟩,
  ⟨0x0C000100, 0xFC03FFFF, fun rd rs1 _ _ => .treadBE rd rs1⟩,
  ⟨0x10000000, 0xFC0003FF, .update⟩,
  ⟨0x10000100, 0xFC0003FF, .updateSWLE⟩,
  ⟨0x10000200, 0xFC0003FF, .updateSWBE⟩,
  ⟨0x10000300, 0xFC0003FF, .updateHW⟩,
  ⟨0x14000000, 0xFC003FFF, fun rd rs1 rs2 _ => .crc32cb rd rs1 rs2⟩,
  ⟨0x14000100, 0xFC003FFF, fun rd rs1 rs2 _ => .crc32ch rd rs1 rs2⟩,
  ⟨0x14000200, 0xFC003FFF, fun rd rs1 rs2 _ => .crc32cw rd rs1 rs2⟩,
  ⟨0x14000300, 0xFC003FFF, fun rd rs1 rs2 _ => .crc32cx rd rs1 rs2⟩,
  ⟨0x18000000, 0xFC003FFF, fun rd rs1 rs2 _ => .clmul rd rs1 rs2⟩,
  ⟨0x1C000000, 0xFC03FFFF, fun rd rs1 _ _ => .foldk1 rd rs1⟩] ++ [
  ⟨0x1C000100, 0xFC03FFFF, fun rd rs1 _ _ => .foldk2 rd rs1⟩,
  ⟨0x20000000, 0xFC003FFF, fun rd rs1 rs2 _ => .tstepLE rd rs1 rs2⟩,
  ⟨0x20000100, 0xFC003FFF, fun rd rs1 rs2 _ => .tstepBE rd rs1 rs2⟩,
  ⟨0x24000000, 0xFC003FFF, fun rd rs1 rs2 _ => .tsliceLE rd rs1 rs2⟩,
  ⟨0x24000100, 0xFC003FFF, fun rd rs1 rs2 _ => .tsliceBE rd rs1 rs2⟩,
  ⟨0x28000000, 0xFC003FFF, fun rd rs1 rs2 _ => .xor rd rs1 rs2⟩,
  ⟨0x2C000000, 0xFC03FFFF, fun rd rs1 _ _ => .inv rd rs1⟩,
  ⟨0x30000000, 0xFC03FFFF, fun rd rs1 _ _ => .ldleB rd rs1⟩,
  ⟨0x30000100, 0xFC03FFFF, fun rd rs1 _ _ => .ldleH rd rs1⟩,
  ⟨0x30000200, 0xFC03FFFF, fun rd rs1 _ _ => .ldleW rd rs1⟩,
  ⟨0x30000300, 0xFC03FFFF, fun rd rs1 _ _ => .ldleX rd rs1⟩,
  ⟨0x34000000, 0xFC03FFFF, fun rd rs1 _ _ => .ldbeB rd rs1⟩,
  ⟨0x34000100, 0xFC03FFFF, fun rd rs1 _ _ => .ldbeH rd rs1⟩,
  ⟨0x34000200, 0xFC03FFFF, fun rd rs1 _ _ => .ldbeW rd rs1⟩,
  ⟨0x34000300, 0xFC03FFFF, fun rd rs1 _ _ => .ldbeX rd rs1⟩]

/-- A word encodes a row iff `w & mask = match` (R80). -/
def OpRow.covers (r : OpRow) (w : Word32) : Bool := w &&& r.mask == r.bits

/-- The pseudocode of R87: the first row that covers the word, with the word's register fields. -/
def decodeByTable (w : Word32) : Option Instr :=
  (opcodeTable.find? (·.covers w)).map fun r =>
    r.make (regOf (w.extractLsb' 22 4)) (regOf (w.extractLsb' 18 4))
      (regOf (w.extractLsb' 14 4)) (regOf (w.extractLsb' 10 4))

end Sys2Proof
end

