-- ==== Sys2Proof/Machine/Crc.lean ====
section
/-! DEFINITION. The CRC arithmetic every rule uses (00_scope.md R7, R13 to R19) and the primitives
of the hardware engine (42_hardware_engine.md R111, R117): pure functions, all of them over GF(2). -/

namespace Sys2Proof.Machine

/-! The fixed constants of R7. -/

/-- The reflected CRC32C polynomial. -/
def POLY : Word32 := 0x82F63B78
/-- The fold constant of lane 0. -/
def K1 : Word32 := 0xE417F38A
/-- The fold constant of lane 1. -/
def K2 : Word32 := 0x8F158014
/-- Bytes per bulk word. -/
def WORD : Nat := 8
/-- Bytes per hardware block. -/
def BLOCK : Nat := 1024
/-- Words per lane. -/
def LANE_WORDS : Nat := 42

/-- `zext_32` (R11). -/
def zext32 {n : Nat} (v : BitVec n) : Word32 := v.zeroExtend 32
/-- `zext_64` (R11). -/
def zext64 {n : Nat} (v : BitVec n) : Word64 := v.zeroExtend 64
/-- Byte lane `i` of a value: `v[8i+7:8i]` (R10). -/
def byteLane {n : Nat} (v : BitVec n) (i : Nat) : Byte := v.extractLsb' (8 * i) 8

/-- The bytes of the low `n` lanes, least significant first. -/
def lanes {w : Nat} (n : Nat) (v : BitVec w) : List Byte := (List.range n).map (byteLane v)

/-- `sum b_i * 2^(8i)` over a byte sequence (R13). -/
def leSum : List Byte → Nat
  | [] => 0
  | b :: bs => b.toNat + 2 ^ 8 * leSum bs

/-- `sum b_i * 2^(8(n-1-i))` over a byte sequence of n bytes (R13). -/
def beSum : List Byte → Nat
  | [] => 0
  | b :: bs => b.toNat * 2 ^ (8 * bs.length) + beSum bs

/-- `LE(bs)` at 64 bits, for at most 8 bytes (R13). -/
def LE (bs : List Byte) : Word64 := BitVec.ofNat 64 (leSum bs)
/-- `BE(bs)` at 64 bits, for at most 8 bytes (R13). -/
def BE (bs : List Byte) : Word64 := BitVec.ofNat 64 (beSum bs)

/-- `bswap32(v)` (R14). -/
def bswap32 (v : Word32) : Word32 :=
  byteLane v 0 ++ byteLane v 1 ++ byteLane v 2 ++ byteLane v 3

/-- One reflected polynomial-division step (R15). -/
def crcbit (c : Word32) : Word32 := if c.getLsbD 0 then (c >>> 1) ^^^ POLY else c >>> 1

/-- `crcbit^8`: eight steps (R16). -/
def crcbit8 (c : Word32) : Word32 :=
  crcbit (crcbit (crcbit (crcbit (crcbit (crcbit (crcbit (crcbit c)))))))

/-- One byte step of the raw CRC (R16). -/
def crcbyte (c : Word32) (b : Byte) : Word32 := crcbit8 (c ^^^ zext32 b)

/-- The raw CRC over a byte sequence (R17). -/
def crcraw (c : Word32) : List Byte → Word32
  | [] => c
  | b :: bs => crcraw (crcbyte c b) bs

/-- The reference checksum in accumulator convention (R18). -/
def crc32c (acc : Word32) (bs : List Byte) : Word32 := ~~~(crcraw (~~~acc) bs)

/-- The terms of a carry-less product for the low `n` bits of `b`. -/
def clmulBits (a b : Word32) : Nat → Word64
  | 0 => 0
  | n + 1 => clmulBits a b n ^^^ (if b.getLsbD n then zext64 a <<< n else 0)

/-- Carry-less multiplication of two 32-bit values (R19): the XOR of `a << i` over every `i` with
`b[i] = 1`, at 64 bits. -/
def clmul (a b : Word32) : Word64 := clmulBits a b 32

/-- The hardware CRC step over the low `n` bytes of a datum, least significant first, with no
inversion (R111). -/
def hwcrc {w : Nat} (n : Nat) (c : Word32) (d : BitVec w) : Word32 := crcraw c (lanes n d)

/-- `hwcrc_1` (R111). -/
def hwcrc1 (c : Word32) (d : Byte) : Word32 := hwcrc 1 c d
/-- `hwcrc_2` (R111). -/
def hwcrc2 (c : Word32) (d : Half) : Word32 := hwcrc 2 c d
/-- `hwcrc_4` (R111). -/
def hwcrc4 (c d : Word32) : Word32 := hwcrc 4 c d
/-- `hwcrc_8` (R111). -/
def hwcrc8 (c : Word32) (d : Word64) : Word32 := hwcrc 8 c d

/-- The fold function (R117): the CRC step starts from accumulator 0. -/
def foldk (c k : Word32) : Word32 := hwcrc8 0 (clmul c k)

end Sys2Proof.Machine
end

