-- ==== Sys2Proof/Machine/Feat.lean ====
section
/-! DEFINITION. The feature register FEAT, the binding register ENGSEL and the selection function
that maps one to the other (10_state.md R37, R39; 43_dispatcher.md R129, R134). -/

namespace Sys2Proof.Machine

/-- One bit of a register, at its place. -/
def bitAt (b : Bool) (n : Nat) : Word32 := if b then 1#32 <<< n else 0

/-- FEAT as R37 lays it out, from the configuration parameters; the reserved bits are 0. -/
def featOf (c : Config) : Word32 :=
  bitAt c.fCrc 0 ||| bitAt c.fClmul 1 ||| bitAt c.hostBE 2 |||
  bitAt c.hasSwLE 8 ||| bitAt c.hasSwBE 9 ||| bitAt c.hasHW 10

/-! The fields of FEAT (R37). -/

/-- FEAT.F_CRC, bit 0. -/
def Feat.fCrc (feat : Word32) : Bool := feat.getLsbD 0
/-- FEAT.F_CLMUL, bit 1. -/
def Feat.fClmul (feat : Word32) : Bool := feat.getLsbD 1
/-- FEAT.HOST_BE, bit 2. -/
def Feat.hostBE (feat : Word32) : Bool := feat.getLsbD 2
/-- FEAT.HAS_SW_LE, bit 8. -/
def Feat.hasSwLE (feat : Word32) : Bool := feat.getLsbD 8
/-- FEAT.HAS_SW_BE, bit 9. -/
def Feat.hasSwBE (feat : Word32) : Bool := feat.getLsbD 9
/-- FEAT.HAS_HW, bit 10. -/
def Feat.hasHW (feat : Word32) : Bool := feat.getLsbD 10

/-! Availability of the engines and primitives (R134), read from FEAT (assumption log 10). -/

/-- UPDATE.SWLE and UPDATE.SWBE are available iff their engine is built in. -/
def Feat.swAvailable (v : Variant) (feat : Word32) : Bool :=
  match v with
  | .le => Feat.hasSwLE feat
  | .be => Feat.hasSwBE feat

/-- UPDATE.HW, FOLDK1 and FOLDK2. -/
def Feat.hwAvailable (feat : Word32) : Bool :=
  Feat.hasHW feat && Feat.fCrc feat && Feat.fClmul feat

/-- CRC32CB, CRC32CH, CRC32CW and CRC32CX. -/
def Feat.crcAvailable (feat : Word32) : Bool := Feat.hasHW feat && Feat.fCrc feat

/-- CLMUL. -/
def Feat.clmulAvailable (feat : Word32) : Bool := Feat.hasHW feat && Feat.fClmul feat

/-- The values of ENGSEL.BIND (R39). -/
inductive Binding where
  | none
  | swLE
  | swBE
  | hw
deriving DecidableEq, Repr

/-- The code of a binding in ENGSEL.BIND (R39). -/
def Binding.code : Binding → Word32
  | .none => 0
  | .swLE => 1
  | .swBE => 2
  | .hw => 3

/-- ENGSEL from its two fields: BIND [1:0] and CFGERR [31] (R39). -/
def engselOf (b : Binding) (cfgerr : Bool) : Word32 := b.code ||| bitAt cfgerr 31

/-- ENGSEL.BIND (R39). -/
def Engsel.bind (engsel : Word32) : Binding :=
  match (engsel.extractLsb' 0 2).toNat with
  | 1 => .swLE
  | 2 => .swBE
  | 3 => .hw
  | _ => .none

/-- ENGSEL.CFGERR (R39). -/
def Engsel.cfgerr (engsel : Word32) : Bool := engsel.getLsbD 31

/-- The selection function of R129: the hardware engine if it is built in and the CPU has both
primitives, else the software engine of the host's byte order if built in, else none. -/
def select (feat : Word32) : Word32 :=
  if Feat.hasHW feat && Feat.fCrc feat && Feat.fClmul feat then engselOf .hw false
  else if !Feat.hostBE feat && Feat.hasSwLE feat then engselOf .swLE false
  else if Feat.hostBE feat && Feat.hasSwBE feat then engselOf .swBE false
  else engselOf .none true

end Sys2Proof.Machine
end

