-- ==== Sys2Proof/Machine/State.lean ====
section
/-! DEFINITION. The state of the engine (10_state.md R25 to R52) as plain data, the ways the model
stops, and the state after reset (70_reset_and_hazards.md R176, R177). -/

namespace Sys2Proof.Machine

/-- The state of one command context (R25): its registers, STATUS, FCMD and FADDR. -/
structure Context where
  /-- R1 to R15 in order; each holds a 64-bit value or no value (R28, whose own state that
  is; assumption log 4). R0 is hardwired (R27) and is
  not stored. -/
  regs : Vector (Option Word64) 15
  /-- STATUS (R32). -/
  status : Word32
  /-- FCMD (R35): the command word that faulted. -/
  fcmd : Word32
  /-- FADDR (R36). -/
  faddr : Word64
deriving DecidableEq, Repr

/-- A context after reset (R177). -/
def Context.reset : Context where
  regs := Vector.replicate 15 none
  status := 0
  fcmd := 0
  faddr := 0

/-- The whole machine. -/
structure State where
  /-- The parameters of 00_scope.md R8; no step changes them. -/
  cfg : Config
  /-- The command contexts, 0 to NCTX-1 (R25). -/
  contexts : List Context
  /-- FEAT (R37). -/
  feat : Word32
  /-- ENGSEL (R39). -/
  engsel : Word32
  /-- TABLE[LE] (R41): `none` when its entries hold no value. A build writes all entries at once
  (40_tablebuilder.md R90), so all of them hold a value or none does. -/
  tableLE : Option Table
  /-- TABLE[BE] (R41). -/
  tableBE : Option Table
  /-- TVALID[LE] (R42). -/
  tvalidLE : Bool
  /-- TVALID[BE] (R42). -/
  tvalidBE : Bool
  /-- Buffer memory (20_memory.md R53): the mapped bytes that differ from `cfg.fill`, by strictly
  rising address. -/
  mem : List Host.Cell
  /-- The model's own field: the host-port operations the host still makes, in its order (R47,
  R66; assumption log 6). -/
  pending : List HostOp
  /-- The model's own field: what the reading operations returned, oldest first (R193;
  assumption log 6). -/
  observed : List Observation
  /-- The model's own field: the context of the ISSUE last performed (R51; assumption log 6). -/
  issuing : Nat
deriving DecidableEq, Repr

/-- Why the machine stops with a fault. No fault of the spec is one of these: those are taken, as
60_exceptions.md R158 says, and give a next state. -/
inductive Fault where
  /-- A command found TVALID[v] = 1 but TABLE[v] without a value. Raised by TREAD, TSTEP, TSLICE and
  the software updates, only in states that no run reaches (R42); 93_implementation_defined.md says
  of such entries "nothing can read them". Safe: the machine stops where the spec has no state. -/
  | tableWithoutValue
deriving DecidableEq, Repr

/-- Why the model refuses a step. -/
inductive Refusal where
  /-- An instruction without a meaning. Raised by `exec` alone, in no arm of it now. Safe. -/
  | notModelled (mnemonic : String)
  /-- A host-port operation names a context that is not 0 to NCTX-1 (R25, R171); no such context
  exists and the spec says nothing of it. Raised by the host-port operations, and by a command when
  `issuing` names no context. Safe. -/
  | noSuchContext
  /-- READ_REG of a register holding no value; R50: a model "treats such a read as refused". Raised
  by READ_REG. Safe. -/
  | readRegWithoutValue
  /-- WRITE_MEM to an unmapped address; R49: it "has no meaning, and a model refuses it". Raised by
  WRITE_MEM. Safe. -/
  | writeMemUnmapped
deriving DecidableEq, Repr

/-- The state at which a launch begins: reset (R176) under a configuration, with the launch image of
buffer memory (R181), and no operation of the host made yet. -/
def State.launch (c : Config) (mem : List Host.Cell) : State where
  cfg := c
  contexts := List.replicate c.nctx Context.reset
  feat := featOf c
  engsel := select (featOf c)
  tableLE := none
  tableBE := none
  tvalidLE := false
  tvalidBE := false
  mem := mem
  pending := []
  observed := []
  issuing := 0

/-- The machine right after reset (R176, R177), launched with `Config.reference` and memory that
lists nothing. DESIGN CHOICE (assumption log 1, 2): which launch. -/
def State.reset : State := State.launch Config.reference []

end Sys2Proof.Machine
end

