-- ==== Sys2Proof/Machine/Flags.lean ====
section
/-! DEFINITION. The engine has no condition codes and no command sets a flag (10_state.md R31). The
only status is STATUS of each context: its fields, and the fault causes it records (R32 to R34;
60_exceptions.md R150). -/

namespace Sys2Proof.Machine

/-- The causes of R150. -/
inductive Cause where
  | illegalCommand
  | configError
  | engineAbsent
  | undefOperand
  | tableInvalid
  | rangeFault
  | memFault
deriving DecidableEq, Repr

/-- The code of a cause in STATUS.CAUSE (R150). -/
def Cause.code : Cause → Word32
  | .illegalCommand => 1
  | .configError => 2
  | .engineAbsent => 3
  | .undefOperand => 4
  | .tableInvalid => 5
  | .rangeFault => 6
  | .memFault => 7

/-- STATUS.FAULTED, bit 0 (R32). -/
def Status.faulted (status : Word32) : Bool := status.getLsbD 0

/-- STATUS.CAUSE, bits [7:4] (R32). -/
def Status.cause (status : Word32) : BitVec 4 := status.extractLsb' 4 4

/-- STATUS with FAULTED = 1 and CAUSE the given code, reserved bits 0 (R32, R158). -/
def Status.ofCause (k : Cause) : Word32 := 1 ||| (k.code <<< 4)

/-- Is the context faulted? -/
def Context.faulted (c : Context) : Bool := Status.faulted c.status

end Sys2Proof.Machine
end

