-- ==== Sys2Proof/Machine/Operands.lean ====
section
/-! DEFINITION. The general registers and every operand form (10_state.md R26 to R29;
30_encoding.md R78). -/

namespace Sys2Proof.Machine

/-- The value of register `r`, or `none` when it holds no value; R0 reads as 0 (R27, R28). The one
reader of registers. -/
def Context.reg (c : Context) (r : RegId) : Option Word64 :=
  if h : r.val = 0 then some 0 else c.regs[r.val - 1]

/-- Write register `r`; a write of R0 is discarded (R27). The one writer of registers. -/
def Context.setReg (c : Context) (r : RegId) (v : Word64) : Context :=
  if h : r.val = 0 then c else { c with regs := c.regs.set (r.val - 1) (some v) }

/-- A 32-bit accumulator, CRC or word datum: bits [31:0] (R29). -/
def low32 (v : Word64) : Word32 := v.extractLsb' 0 32
/-- A halfword datum: bits [15:0] (R29). -/
def low16 (v : Word64) : Half := v.extractLsb' 0 16
/-- A byte datum: bits [7:0] (R29). -/
def low8 (v : Word64) : Byte := v.extractLsb' 0 8
/-- The row of a table index: bits [10:8] (R78). -/
def indexRow (v : Word64) : BitVec 3 := v.extractLsb' 8 3
/-- The column of a table index: bits [7:0] (R78). -/
def indexColumn (v : Word64) : BitVec 8 := v.extractLsb' 0 8

end Sys2Proof.Machine
end

