-- ==== Sys2Proof/Machine/Ops.lean ====
section
/-! DEFINITION. The named operations the commands share: buffer memory (20_memory.md), contexts,
the checks that come before an effect (60_exceptions.md R160), fault entry (R158) and reset
(70_reset_and_hazards.md R176). -/

namespace Sys2Proof.Machine

/-! ## Buffer memory -/

/-- The listed byte at an address. -/
def Memory.get : List Host.Cell → Nat → Option Byte
  | [], _ => none
  | (k, v) :: m, a => if a = k then some v else Memory.get m a

/-- Set the byte at an address, keeping the canonical form: addresses strictly rising, and no byte
listed that equals `fill`, what an unlisted address reads as. -/
def Memory.put (fill : Byte) : List Host.Cell → Nat → Byte → List Host.Cell
  | [], a, b => if b = fill then [] else [(a, b)]
  | (k, v) :: m, a, b =>
    if a < k then (if b = fill then (k, v) :: m else (a, b) :: (k, v) :: m)
    else if a = k then (if b = fill then m else (a, b) :: m)
    else (k, v) :: Memory.put fill m a b

/-- The canonical form of memory: addresses strictly rising, no listed byte equal to `fill`. -/
def Memory.wf (fill : Byte) : List Host.Cell → Bool
  | [] => true
  | (k, v) :: m => (v != fill) && m.all (fun c => decide (k < c.1)) && Memory.wf fill m

/-- MAPPED: does the address exist (00_scope.md R8)? -/
def Config.maps (c : Config) (a : Nat) : Bool :=
  decide (a < 2 ^ c.addrW) &&
    c.mapped.any fun r => decide (r.base ≤ a) && decide (a < r.base + r.size)

/-- Does a byte exist at the address (R53)? -/
def State.mapped (s : State) (a : Nat) : Bool := Config.maps s.cfg a

/-- What an unlisted address reads as: the launch image's `fill` where the address is mapped, no
value where it is not (R53, R181; assumption log 2). -/
def State.unlisted (s : State) (a : Nat) : Option Byte :=
  if s.mapped a then some s.cfg.fill else none

/-- The byte of memory at an existing address, used after the existence check alone. -/
def State.byteAt (s : State) (a : Nat) : Byte := (Memory.get s.mem a).getD s.cfg.fill

/-- The model's read of one byte: the byte at a mapped address, no value at an unmapped one. -/
def State.readByte (s : State) (a : Nat) : Option Byte :=
  if s.mapped a then some (s.byteAt a) else none

/-- `MemRead(a, n)` after its checks (00_scope.md R13): the bytes at `a .. a+n-1`, in address
order. -/
def memRead (mem : Nat → Byte) (a : Nat) : Nat → List Byte
  | 0 => []
  | n + 1 => mem a :: memRead mem (a + 1) n

/-- `MemWrite(a, 1, b)` (R13), used by the host port alone (R54). -/
def State.writeByte (s : State) (a : Nat) (b : Byte) : State :=
  { s with mem := Memory.put s.cfg.fill s.mem a b }

/-- The lowest address of `a .. a+n-1` that is not mapped (R60). -/
def State.firstUnmapped (s : State) (a : Nat) : Nat → Option Nat
  | 0 => none
  | n + 1 => if s.mapped a then s.firstUnmapped (a + 1) n else some a

/-! ## Contexts and tables -/

/-- Context `i`, if it exists (R25). -/
def State.ctx? (s : State) (i : Nat) : Option Context := s.contexts[i]?

/-- Replace context `i`. -/
def State.setCtx (s : State) (i : Nat) (c : Context) : State :=
  { s with contexts := s.contexts.set i c }

/-- The destination write of a command: `x[rd] <- v` of the issuing context (00_scope.md R12). -/
def State.writeDest (s : State) (rd : RegId) (v : Word64) : State :=
  { s with contexts := s.contexts.modify s.issuing (·.setReg rd v) }

/-- TVALID[v] (R42). -/
def State.tvalid (s : State) : Variant → Bool
  | .le => s.tvalidLE
  | .be => s.tvalidBE

/-- TABLE[v] (R41). -/
def State.table (s : State) : Variant → Option Table
  | .le => s.tableLE
  | .be => s.tableBE

/-! ## How a command ends -/

/-- Why a command does not complete: it raises a cause of R150 with the value FADDR records, or the
model stops. -/
inductive Stop where
  | raised (k : Cause) (info : Word64)
  | stuck (f : Fault)
deriving DecidableEq, Repr

/-- Taking a fault (R158): command word `w` issued to context `i` raised cause `k` with info `f`.
The four writes, and nothing else. There is no return from a fault but RESET (R164). -/
def State.faultEntry (s : State) (i : Nat) (w : Word32) (k : Cause) (f : Word64) : State :=
  { s with contexts := s.contexts.modify i fun c =>
      { c with status := Status.ofCause k, fcmd := w, faddr := f } }

/-- Run the rule of command `i` on the issuing context. A rule that raises a cause takes the fault in
the state before the command, so faults are precise (R158, R161). FCMD records the command's own
word, which is the only word that decodes to it (assumption log 11). -/
def command (i : Instr) (s : State) (rule : Context → Except Stop State) :
    Host.Outcome State Fault Refusal :=
  match s.ctx? s.issuing with
  | none => .refused .noSuchContext
  | some c =>
    match rule c with
    | .ok t => .next t
    | .error (.raised k info) => .next (s.faultEntry s.issuing (encode i) k info)
    | .error (.stuck f) => .fault f

/-! ## The checks before an effect, in the order of R160 -/

/-- The engine or primitive is available, else ENGINE_ABSENT (R134, R153). -/
def requireEngine (available : Bool) (k : Except Stop State) : Except Stop State :=
  if available then k else .error (.raised .engineAbsent 0)

/-- Read a source register that must hold a value, else UNDEF_OPERAND with its index (R154). -/
def source (c : Context) (r : RegId) (k : Word64 → Except Stop State) : Except Stop State :=
  match c.reg r with
  | some v => k v
  | none => .error (.raised .undefOperand (BitVec.ofNat 64 r.val))

/-- Read TABLE[v] for a command, which stops the model if it holds no value (assumption log 5). -/
def tableOf (s : State) (v : Variant) (k : Table → Except Stop State) : Except Stop State :=
  match s.table v with
  | some t => k t
  | none => .error (.stuck .tableWithoutValue)

/-- TABLE[v] must be built, else TABLE_INVALID; these commands never build it (R155). -/
def requireTable (s : State) (v : Variant) (k : Table → Except Stop State) : Except Stop State :=
  if s.tvalid v then tableOf s v k else .error (.raised .tableInvalid 0)

/-- Does the byte range `[A, A+N)` leave the address space, computed without wrap (R59)? -/
def State.outOfRange (s : State) (a n : Nat) : Bool :=
  decide (2 ^ s.cfg.addrW ≤ a) || decide (2 ^ s.cfg.addrW < a + n)

/-- The range check, then the existence check, of a command that reads `n` bytes at `a`: RANGE_FAULT
records `a`, MEM_FAULT the lowest unmapped address (R59, R60, R156, R157). -/
def requireRange (s : State) (a : Word64) (n : Nat) (k : Except Stop State) : Except Stop State :=
  if s.outOfRange a.toNat n then .error (.raised .rangeFault a)
  else
    match s.firstUnmapped a.toNat n with
    | some u => .error (.raised .memFault (BitVec.ofNat 64 u))
    | none => k

/-! ## Reset -/

/-- RESET (R176): contexts, FEAT, ENGSEL, TVALID and the tables; buffer memory is unchanged. -/
def State.resetEngine (s : State) : State :=
  { s with
    contexts := List.replicate s.cfg.nctx Context.reset
    feat := featOf s.cfg
    engsel := select (featOf s.cfg)
    tableLE := none
    tableBE := none
    tvalidLE := false
    tvalidBE := false }

end Sys2Proof.Machine
end

