-- ==== Sys2Proof/Machine/Datapath.lean ====
section
/-! DEFINITION. The datapath support commands (44_datapath.md): XOR, INV and the loads. -/

namespace Sys2Proof.Machine

/-- XOR (R137). -/
def execXor (rd rs1 rs2 : RegId) (s : State) : Host.Outcome State Fault Refusal :=
  command (.xor rd rs1 rs2) s fun c =>
    source c rs1 fun a =>
    source c rs2 fun b =>
    .ok (s.writeDest rd (a ^^^ b))

/-- INV (R138). -/
def execInv (rd rs1 : RegId) (s : State) : Host.Outcome State Fault Refusal :=
  command (.inv rd rs1) s fun c =>
    source c rs1 fun a =>
    .ok (s.writeDest rd (zext64 (~~~(low32 a))))

/-- The common load rule (R139): `n` bytes at the address in `rs1`, assembled by `order`. -/
def loadRule (order : List Byte → Word64) (n : Nat) (rd rs1 : RegId) (s : State) (c : Context) :
    Except Stop State :=
  source c rs1 fun a =>
  requireRange s a n <|
  .ok (s.writeDest rd (order (memRead s.byteAt a.toNat n)))

/-- LDLE.B (R140). -/
def execLdleB (rd rs1 : RegId) (s : State) : Host.Outcome State Fault Refusal :=
  command (.ldleB rd rs1) s (loadRule LE 1 rd rs1 s)

/-- LDLE.H (R141). -/
def execLdleH (rd rs1 : RegId) (s : State) : Host.Outcome State Fault Refusal :=
  command (.ldleH rd rs1) s (loadRule LE 2 rd rs1 s)

/-- LDLE.W (R142). -/
def execLdleW (rd rs1 : RegId) (s : State) : Host.Outcome State Fault Refusal :=
  command (.ldleW rd rs1) s (loadRule LE 4 rd rs1 s)

/-- LDLE.X (R143). -/
def execLdleX (rd rs1 : RegId) (s : State) : Host.Outcome State Fault Refusal :=
  command (.ldleX rd rs1) s (loadRule LE 8 rd rs1 s)

/-- LDBE.B (R144). -/
def execLdbeB (rd rs1 : RegId) (s : State) : Host.Outcome State Fault Refusal :=
  command (.ldbeB rd rs1) s (loadRule BE 1 rd rs1 s)

/-- LDBE.H (R145). -/
def execLdbeH (rd rs1 : RegId) (s : State) : Host.Outcome State Fault Refusal :=
  command (.ldbeH rd rs1) s (loadRule BE 2 rd rs1 s)

/-- LDBE.W (R146). -/
def execLdbeW (rd rs1 : RegId) (s : State) : Host.Outcome State Fault Refusal :=
  command (.ldbeW rd rs1) s (loadRule BE 4 rd rs1 s)

/-- LDBE.X (R147). -/
def execLdbeX (rd rs1 : RegId) (s : State) : Host.Outcome State Fault Refusal :=
  command (.ldbeX rd rs1) s (loadRule BE 8 rd rs1 s)

end Sys2Proof.Machine
end

