-- ==== Sys2Proof/Machine/TableBuilder.lean ====
section
/-! DEFINITION. The lookup-table unit (40_tablebuilder.md): the table contents, the build, and the
commands TBUILD.LE, TBUILD.BE, TREAD.LE and TREAD.BE. -/

namespace Sys2Proof.Machine

/-- The vector of the values of a function. -/
def tabulate {α : Type} (n : Nat) (f : Fin n → α) : Vector α n := ⟨⟨List.ofFn f⟩, List.length_ofFn⟩

/-- The entry of a row at a column. -/
def rowAt (r : TableRow) (n : BitVec 8) : Word32 := r[n.toNat]'n.isLt

/-- `TABLE[v][k][n]` for row `k` and column `n` (R41). -/
def entry (t : Table) (k : BitVec 3) (n : BitVec 8) : Word32 := rowAt (t[k.toNat]'k.isLt) n

/-- Row 0 (R88). -/
def buildRow0 : TableRow := tabulate 256 fun n => crcbit8 (BitVec.ofNat 32 n.val)

/-- The row after `prev`, from row 0 and `prev` (R89). -/
def buildNext (row0 prev : TableRow) : TableRow :=
  tabulate 256 fun n => rowAt row0 (prev[n.val].extractLsb' 0 8) ^^^ (prev[n.val] >>> 8)

/-- Row `k` as the build leaves it (R88, R89). -/
def buildRow : Nat → TableRow
  | 0 => buildRow0
  | k + 1 => buildNext buildRow0 (buildRow k)

/-- The contents of a built table, the same for both variants (R88, R89, R93). -/
def builtTable : Table := tabulate 8 fun k => buildRow k.val

/-- `build(v)` (R90), one atomic action. -/
def State.build (s : State) : Variant → State
  | .le => { s with tableLE := some builtTable, tvalidLE := true }
  | .be => { s with tableBE := some builtTable, tvalidBE := true }

/-- The rule of TREAD.v (R94, R95). -/
def treadRule (v : Variant) (rd rs1 : RegId) (s : State) (c : Context) : Except Stop State :=
  source c rs1 fun i =>
  requireTable s v fun t =>
  .ok (s.writeDest rd (zext64 (entry t (indexRow i) (indexColumn i))))

/-- TBUILD.LE (R91). -/
def execTbuildLE (s : State) : Host.Outcome State Fault Refusal :=
  command .tbuildLE s fun _ => .ok (s.build .le)

/-- TBUILD.BE (R92). -/
def execTbuildBE (s : State) : Host.Outcome State Fault Refusal :=
  command .tbuildBE s fun _ => .ok (s.build .be)

/-- TREAD.LE (R94). -/
def execTreadLE (rd rs1 : RegId) (s : State) : Host.Outcome State Fault Refusal :=
  command (.treadLE rd rs1) s (treadRule .le rd rs1 s)

/-- TREAD.BE (R95). -/
def execTreadBE (rd rs1 : RegId) (s : State) : Host.Outcome State Fault Refusal :=
  command (.treadBE rd rs1) s (treadRule .be rd rs1 s)

end Sys2Proof.Machine
end

