-- ==== Sys2Proof/Machine/SoftwareEngine.lean ====
section
/-! DEFINITION. The software engine, slice-by-8 (41_software_engine.md): its two datapath steps, the
step commands TSTEP and TSLICE, the update algorithm, and UPDATE.SWLE and UPDATE.SWBE. -/

namespace Sys2Proof.Machine

/-! ## Datapath functions -/

/-- The byte step over a table (R97). -/
def swbyte (t : Table) (c : Word32) (b : Byte) : Word32 :=
  entry t 0 ((c ^^^ zext32 b).extractLsb' 0 8) ^^^ (c >>> 8)

/-- The little-endian slice-by-8 step: byte lane i of x indexes row 7-i (R98). -/
def sliceLE (t : Table) (c : Word32) (w : Word64) : Word32 :=
  let x := w ^^^ zext64 c
  entry t 7 (byteLane x 0) ^^^ entry t 6 (byteLane x 1) ^^^ entry t 5 (byteLane x 2) ^^^
  entry t 4 (byteLane x 3) ^^^ entry t 3 (byteLane x 4) ^^^ entry t 2 (byteLane x 5) ^^^
  entry t 1 (byteLane x 6) ^^^ entry t 0 (byteLane x 7)

/-- The big-endian slice-by-8 step: byte lane j of x indexes row j (R99). -/
def sliceBE (t : Table) (c : Word32) (w : Word64) : Word32 :=
  let x := w ^^^ (zext64 (bswap32 c) <<< 32)
  entry t 7 (byteLane x 7) ^^^ entry t 6 (byteLane x 6) ^^^ entry t 5 (byteLane x 5) ^^^
  entry t 4 (byteLane x 4) ^^^ entry t 3 (byteLane x 3) ^^^ entry t 2 (byteLane x 2) ^^^
  entry t 1 (byteLane x 1) ^^^ entry t 0 (byteLane x 0)

/-- The slice step of a variant. -/
def slice (v : Variant) (t : Table) (c : Word32) (w : Word64) : Word32 :=
  match v with
  | .le => sliceLE t c w
  | .be => sliceBE t c w

/-- The word a variant's bulk loop assembles from 8 bytes in address order (20_memory.md R56). -/
def bulkWord (v : Variant) (bs : List Byte) : Word64 :=
  match v with
  | .le => LE bs
  | .be => BE bs

/-! ## The working registers of an update, and its loops -/

/-- The working registers of an update command, which exist only inside it (10_state.md R45): the
working CRC c, the read pointer p, the remaining length rem (assumption log 9). -/
structure Work where
  c : Word32
  p : Nat
  rem : Nat
deriving DecidableEq, Repr

/-- `while cond: body`, for at most `fuel` turns. Every loop here is given its remaining length,
which each turn decreases, so it ends because `cond` fails (70_reset_and_hazards.md R192). -/
def whileLoop (cond : Work → Bool) (body : Work → Work) : Nat → Work → Work
  | 0, w => w
  | fuel + 1, w => if cond w then whileLoop cond body fuel (body w) else w

/-- The body of phases 1 and 3: one byte (R105, R107). -/
def swByteTurn (t : Table) (mem : Nat → Byte) (w : Work) : Work :=
  { c := swbyte t w.c (mem w.p), p := w.p + 1, rem := w.rem - 1 }

/-- The body of phase 2: one 8-byte word (R106). -/
def swWordTurn (v : Variant) (t : Table) (mem : Nat → Byte) (w : Work) : Work :=
  { c := slice v t w.c (bulkWord v (memRead mem w.p 8)), p := w.p + 8, rem := w.rem - 8 }

/-- Phase 1, to an 8-byte-aligned address (R105). -/
def swAlign (t : Table) (mem : Nat → Byte) (w : Work) : Work :=
  whileLoop (fun w => decide (0 < w.rem) && decide (w.p % 8 ≠ 0)) (swByteTurn t mem) w.rem w

/-- Phase 2, the bulk loop (R106). -/
def swBulk (v : Variant) (t : Table) (mem : Nat → Byte) (w : Work) : Work :=
  whileLoop (fun w => decide (8 ≤ w.rem)) (swWordTurn v t mem) w.rem w

/-- Phase 3, the tail (R107). -/
def swTail (t : Table) (mem : Nat → Byte) (w : Work) : Work :=
  whileLoop (fun w => decide (0 < w.rem)) (swByteTurn t mem) w.rem w

/-- `sw_update(v, acc, A, len)` over the bytes of memory (R104). -/
def swUpdate (v : Variant) (t : Table) (mem : Nat → Byte) (acc : Word32) (a len : Nat) : Word32 :=
  ~~~(swTail t mem (swBulk v t mem (swAlign t mem ⟨~~~acc, a, len⟩))).c

/-! ## Step commands -/

/-- The rule of TSTEP.v (R100, R101). -/
def tstepRule (v : Variant) (rd rs1 rs2 : RegId) (s : State) (c : Context) : Except Stop State :=
  source c rs1 fun crc =>
  source c rs2 fun b =>
  requireTable s v fun t =>
  .ok (s.writeDest rd (zext64 (swbyte t (low32 crc) (low8 b))))

/-- The rule of TSLICE.v (R102, R103). -/
def tsliceRule (v : Variant) (rd rs1 rs2 : RegId) (s : State) (c : Context) : Except Stop State :=
  source c rs1 fun crc =>
  source c rs2 fun w =>
  requireTable s v fun t =>
  .ok (s.writeDest rd (zext64 (slice v t (low32 crc) w)))

/-- TSTEP.LE (R100). -/
def execTstepLE (rd rs1 rs2 : RegId) (s : State) : Host.Outcome State Fault Refusal :=
  command (.tstepLE rd rs1 rs2) s (tstepRule .le rd rs1 rs2 s)

/-- TSTEP.BE (R101). -/
def execTstepBE (rd rs1 rs2 : RegId) (s : State) : Host.Outcome State Fault Refusal :=
  command (.tstepBE rd rs1 rs2) s (tstepRule .be rd rs1 rs2 s)

/-- TSLICE.LE (R102). -/
def execTsliceLE (rd rs1 rs2 : RegId) (s : State) : Host.Outcome State Fault Refusal :=
  command (.tsliceLE rd rs1 rs2) s (tsliceRule .le rd rs1 rs2 s)

/-- TSLICE.BE (R103). -/
def execTsliceBE (rd rs1 rs2 : RegId) (s : State) : Host.Outcome State Fault Refusal :=
  command (.tsliceBE rd rs1 rs2) s (tsliceRule .be rd rs1 rs2 s)

/-! ## Update commands -/

/-- The lazy build: build TABLE[v] unless it is valid (R108; 40_tablebuilder.md R90). -/
def State.ensureTable (s : State) (v : Variant) : State :=
  if s.tvalid v then s else s.build v

/-- The rule of UPDATE.SWLE and UPDATE.SWBE (R108, R109). -/
def updateSWRule (v : Variant) (rd rs1 rs2 rs3 : RegId) (s : State) (c : Context) :
    Except Stop State :=
  requireEngine (Feat.swAvailable v s.feat) <|
  source c rs1 fun acc =>
  source c rs2 fun a =>
  source c rs3 fun len =>
  requireRange s a len.toNat <|
  tableOf (s.ensureTable v) v fun t =>
  .ok ((s.ensureTable v).writeDest rd
    (zext64 (swUpdate v t s.byteAt (low32 acc) a.toNat len.toNat)))

/-- UPDATE.SWLE (R108). -/
def execUpdateSWLE (rd rs1 rs2 rs3 : RegId) (s : State) : Host.Outcome State Fault Refusal :=
  command (.updateSWLE rd rs1 rs2 rs3) s (updateSWRule .le rd rs1 rs2 rs3 s)

/-- UPDATE.SWBE (R109). -/
def execUpdateSWBE (rd rs1 rs2 rs3 : RegId) (s : State) : Host.Outcome State Fault Refusal :=
  command (.updateSWBE rd rs1 rs2 rs3) s (updateSWRule .be rd rs1 rs2 rs3 s)

end Sys2Proof.Machine
end

