-- ==== Sys2Proof/Machine/HardwareEngine.lean ====
section
/-! DEFINITION. The hardware folding engine (42_hardware_engine.md): the CRC step commands, CLMUL,
FOLDK1 and FOLDK2, the three-lane block algorithm, and UPDATE.HW. -/

namespace Sys2Proof.Machine

/-! ## CRC steps, carry-less multiply, fold -/

/-- The rule of CRC32CB, CRC32CH, CRC32CW and CRC32CX over the step of their size (R112 to R115). -/
def crcStepRule (step : Word32 → Word64 → Word32) (rd rs1 rs2 : RegId) (s : State) (c : Context) :
    Except Stop State :=
  requireEngine (Feat.crcAvailable s.feat) <|
  source c rs1 fun acc =>
  source c rs2 fun d =>
  .ok (s.writeDest rd (zext64 (step (low32 acc) d)))

/-- CRC32CB (R112). -/
def execCrc32cb (rd rs1 rs2 : RegId) (s : State) : Host.Outcome State Fault Refusal :=
  command (.crc32cb rd rs1 rs2) s (crcStepRule (fun c d => hwcrc1 c (low8 d)) rd rs1 rs2 s)

/-- CRC32CH (R113). -/
def execCrc32ch (rd rs1 rs2 : RegId) (s : State) : Host.Outcome State Fault Refusal :=
  command (.crc32ch rd rs1 rs2) s (crcStepRule (fun c d => hwcrc2 c (low16 d)) rd rs1 rs2 s)

/-- CRC32CW (R114). -/
def execCrc32cw (rd rs1 rs2 : RegId) (s : State) : Host.Outcome State Fault Refusal :=
  command (.crc32cw rd rs1 rs2) s (crcStepRule (fun c d => hwcrc4 c (low32 d)) rd rs1 rs2 s)

/-- CRC32CX (R115). -/
def execCrc32cx (rd rs1 rs2 : RegId) (s : State) : Host.Outcome State Fault Refusal :=
  command (.crc32cx rd rs1 rs2) s (crcStepRule hwcrc8 rd rs1 rs2 s)

/-- CLMUL (R116). -/
def execClmul (rd rs1 rs2 : RegId) (s : State) : Host.Outcome State Fault Refusal :=
  command (.clmul rd rs1 rs2) s fun c =>
    requireEngine (Feat.clmulAvailable s.feat) <|
    source c rs1 fun a =>
    source c rs2 fun b =>
    .ok (s.writeDest rd (clmul (low32 a) (low32 b)))

/-- The rule of FOLDK1 and FOLDK2 over their constant (R118, R119). -/
def foldRule (k : Word32) (rd rs1 : RegId) (s : State) (c : Context) : Except Stop State :=
  requireEngine (Feat.hwAvailable s.feat) <|
  source c rs1 fun lane =>
  .ok (s.writeDest rd (zext64 (foldk (low32 lane) k)))

/-- FOLDK1 (R118). -/
def execFoldk1 (rd rs1 : RegId) (s : State) : Host.Outcome State Fault Refusal :=
  command (.foldk1 rd rs1) s (foldRule K1 rd rs1 s)

/-- FOLDK2 (R119). -/
def execFoldk2 (rd rs1 : RegId) (s : State) : Host.Outcome State Fault Refusal :=
  command (.foldk2 rd rs1) s (foldRule K2 rd rs1 s)

/-! ## The block algorithm -/

/-- Word `j` of the block at `b`, little-endian (R122). -/
def blockWord (mem : Nat → Byte) (b j : Nat) : Word64 := LE (memRead mem (b + 8 * j) 8)

/-- The three lane accumulators, which exist only inside a block (10_state.md R46). -/
structure Lanes where
  crc0 : Word32
  crc1 : Word32
  crc2 : Word32
deriving DecidableEq, Repr

/-- The lane accumulators at the start of a block: lane 0 is seeded from the working CRC by word 0,
lanes 1 and 2 start from 0 (R123). -/
def laneSeed (mem : Nat → Byte) (c : Word32) (b : Nat) : Lanes :=
  { crc0 := hwcrc8 c (blockWord mem b 0), crc1 := 0, crc2 := 0 }

/-- Turn `i` of the lane loop: word `i` of each lane, the lanes 42 words apart (R122, R123). -/
def laneTurn (mem : Nat → Byte) (b i : Nat) (l : Lanes) : Lanes :=
  { crc0 := hwcrc8 l.crc0 (blockWord mem b (1 + i))
    crc1 := hwcrc8 l.crc1 (blockWord mem b (43 + i))
    crc2 := hwcrc8 l.crc2 (blockWord mem b (85 + i)) }

/-- The lane accumulators after turns `0 .. n-1` (R123). -/
def laneLoop (mem : Nat → Byte) (c : Word32) (b : Nat) : Nat → Lanes
  | 0 => laneSeed mem c b
  | n + 1 => laneTurn mem b n (laneLoop mem c b n)

/-- The merge of a block (R124), with the products t0 and t1 of 10_state.md R46. -/
def laneMerge (mem : Nat → Byte) (b : Nat) (l : Lanes) : Word32 :=
  let t0 := clmul l.crc0 K1
  let t1 := clmul l.crc1 K2
  hwcrc8 l.crc2 (blockWord mem b 127) ^^^ hwcrc8 0 t1 ^^^ hwcrc8 0 t0

/-- `hw_block(c, B)` (R123, R124). -/
def hwBlock (mem : Nat → Byte) (c : Word32) (b : Nat) : Word32 :=
  laneMerge mem b (laneLoop mem c b LANE_WORDS)

/-- One turn of the block loop (R121, R125). -/
def hwBlockTurn (mem : Nat → Byte) (w : Work) : Work :=
  { c := hwBlock mem w.c w.p, p := w.p + BLOCK, rem := w.rem - BLOCK }

/-- The block loop (R121). -/
def hwBlocks (mem : Nat → Byte) (w : Work) : Work :=
  whileLoop (fun w => decide (BLOCK ≤ w.rem)) (hwBlockTurn mem) w.rem w

/-- One 8-byte step of the tail (R126). -/
def hwTail8Turn (mem : Nat → Byte) (w : Work) : Work :=
  { c := hwcrc8 w.c (LE (memRead mem w.p 8)), p := w.p + 8, rem := w.rem - 8 }

/-- The 8-byte class of the tail, which loops (R126; 90_conflicts.md C2). -/
def hwTail8 (mem : Nat → Byte) (w : Work) : Work :=
  whileLoop (fun w => decide (8 ≤ w.rem)) (hwTail8Turn mem) w.rem w

/-- The 4-byte class of the tail, at most once (R126). -/
def hwTail4 (mem : Nat → Byte) (w : Work) : Work :=
  if 4 ≤ w.rem then
    { c := hwcrc4 w.c (low32 (LE (memRead mem w.p 4))), p := w.p + 4, rem := w.rem - 4 }
  else w

/-- The 2-byte class of the tail, at most once (R126). -/
def hwTail2 (mem : Nat → Byte) (w : Work) : Work :=
  if 2 ≤ w.rem then
    { c := hwcrc2 w.c (low16 (LE (memRead mem w.p 2))), p := w.p + 2, rem := w.rem - 2 }
  else w

/-- The 1-byte class of the tail, at most once (R126). -/
def hwTail1 (mem : Nat → Byte) (w : Work) : Work :=
  if 1 ≤ w.rem then { c := hwcrc1 w.c (mem w.p), p := w.p + 1, rem := w.rem - 1 } else w

/-- The tail (R126). -/
def hwTail (mem : Nat → Byte) (w : Work) : Work :=
  hwTail1 mem (hwTail2 mem (hwTail4 mem (hwTail8 mem w)))

/-- `hw_update(acc, A, len)` over the bytes of memory (R121). -/
def hwUpdate (mem : Nat → Byte) (acc : Word32) (a len : Nat) : Word32 :=
  ~~~(hwTail mem (hwBlocks mem ⟨~~~acc, a, len⟩)).c

/-- The rule of UPDATE.HW (R127). -/
def updateHWRule (rd rs1 rs2 rs3 : RegId) (s : State) (c : Context) : Except Stop State :=
  requireEngine (Feat.hwAvailable s.feat) <|
  source c rs1 fun acc =>
  source c rs2 fun a =>
  source c rs3 fun len =>
  requireRange s a len.toNat <|
  .ok (s.writeDest rd (zext64 (hwUpdate s.byteAt (low32 acc) a.toNat len.toNat)))

/-- UPDATE.HW (R127). -/
def execUpdateHW (rd rs1 rs2 rs3 : RegId) (s : State) : Host.Outcome State Fault Refusal :=
  command (.updateHW rd rs1 rs2 rs3) s (updateHWRule rd rs1 rs2 rs3 s)

end Sys2Proof.Machine
end

