-- ==== Sys2Proof/Machine/Dispatcher.lean ====
section
/-! DEFINITION. The dispatch mux (43_dispatcher.md): SELECT and the dispatched UPDATE. -/

namespace Sys2Proof.Machine

/-- SELECT (R133): the binding register, which it never faults to read. -/
def execSelect (rd : RegId) (s : State) : Host.Outcome State Fault Refusal :=
  command (.select rd) s fun _ => .ok (s.writeDest rd (zext64 s.engsel))

/-- UPDATE (R136): perform the bound engine's command with the same registers; CONFIG_ERROR when no
engine is bound. FCMD records this command's word. -/
def execUpdate (rd rs1 rs2 rs3 : RegId) (s : State) : Host.Outcome State Fault Refusal :=
  command (.update rd rs1 rs2 rs3) s fun c =>
    match Engsel.bind s.engsel with
    | .none => .error (.raised .configError 0)
    | .swLE => updateSWRule .le rd rs1 rs2 rs3 s c
    | .swBE => updateSWRule .be rd rs1 rs2 rs3 s c
    | .hw => updateHWRule rd rs1 rs2 rs3 s c

end Sys2Proof.Machine
end

