-- ==== Sys2Proof/Machine/Dispatch.lean ====
section
/-! DEFINITION. The dispatch of commands to their meanings, one arm per constructor. -/

namespace Sys2Proof.Machine

def exec (i : Instr) (s : State) : Host.Outcome State Fault Refusal :=
  match i with
  | .select rd => Sys2Proof.Machine.execSelect rd s
  | .tbuildLE => Sys2Proof.Machine.execTbuildLE s
  | .tbuildBE => Sys2Proof.Machine.execTbuildBE s
  | .treadLE rd rs1 => Sys2Proof.Machine.execTreadLE rd rs1 s
  | .treadBE rd rs1 => Sys2Proof.Machine.execTreadBE rd rs1 s
  | .update rd rs1 rs2 rs3 => Sys2Proof.Machine.execUpdate rd rs1 rs2 rs3 s
  | .updateSWLE rd rs1 rs2 rs3 => Sys2Proof.Machine.execUpdateSWLE rd rs1 rs2 rs3 s
  | .updateSWBE rd rs1 rs2 rs3 => Sys2Proof.Machine.execUpdateSWBE rd rs1 rs2 rs3 s
  | .updateHW rd rs1 rs2 rs3 => Sys2Proof.Machine.execUpdateHW rd rs1 rs2 rs3 s
  | .crc32cb rd rs1 rs2 => Sys2Proof.Machine.execCrc32cb rd rs1 rs2 s
  | .crc32ch rd rs1 rs2 => Sys2Proof.Machine.execCrc32ch rd rs1 rs2 s
  | .crc32cw rd rs1 rs2 => Sys2Proof.Machine.execCrc32cw rd rs1 rs2 s
  | .crc32cx rd rs1 rs2 => Sys2Proof.Machine.execCrc32cx rd rs1 rs2 s
  | .clmul rd rs1 rs2 => Sys2Proof.Machine.execClmul rd rs1 rs2 s
  | .foldk1 rd rs1 => Sys2Proof.Machine.execFoldk1 rd rs1 s
  | .foldk2 rd rs1 => Sys2Proof.Machine.execFoldk2 rd rs1 s
  | .tstepLE rd rs1 rs2 => Sys2Proof.Machine.execTstepLE rd rs1 rs2 s
  | .tstepBE rd rs1 rs2 => Sys2Proof.Machine.execTstepBE rd rs1 rs2 s
  | .tsliceLE rd rs1 rs2 => Sys2Proof.Machine.execTsliceLE rd rs1 rs2 s
  | .tsliceBE rd rs1 rs2 => Sys2Proof.Machine.execTsliceBE rd rs1 rs2 s
  | .xor rd rs1 rs2 => Sys2Proof.Machine.execXor rd rs1 rs2 s
  | .inv rd rs1 => Sys2Proof.Machine.execInv rd rs1 s
  | .ldleB rd rs1 => Sys2Proof.Machine.execLdleB rd rs1 s
  | .ldleH rd rs1 => Sys2Proof.Machine.execLdleH rd rs1 s
  | .ldleW rd rs1 => Sys2Proof.Machine.execLdleW rd rs1 s
  | .ldleX rd rs1 => Sys2Proof.Machine.execLdleX rd rs1 s
  | .ldbeB rd rs1 => Sys2Proof.Machine.execLdbeB rd rs1 s
  | .ldbeH rd rs1 => Sys2Proof.Machine.execLdbeH rd rs1 s
  | .ldbeW rd rs1 => Sys2Proof.Machine.execLdbeW rd rs1 s
  | .ldbeX rd rs1 => Sys2Proof.Machine.execLdbeX rd rs1 s

end Sys2Proof.Machine
end

