-- ==== Sys2Proof/Machine/HostPort.lean ====
section
/-! DEFINITION. The host-port operations (10_state.md R47 to R51; 60_exceptions.md R159): what each
does to the machine. -/

namespace Sys2Proof.Machine

/-- Record what a reading operation returned (70_reset_and_hazards.md R193). -/
def State.observe (s : State) (o : Observation) : State :=
  { s with observed := s.observed ++ [o] }

/-- WRITE_REG (R48); R0 discards it, and a faulted context takes it. -/
def hostWriteReg (i : Nat) (r : RegId) (v : Word64) (s : State) :
    Host.Outcome State Fault Refusal :=
  match s.ctx? i with
  | none => .refused .noSuchContext
  | some c => .next (s.setCtx i (c.setReg r v))

/-- READ_REG (R50). -/
def hostReadReg (i : Nat) (r : RegId) (s : State) : Host.Outcome State Fault Refusal :=
  match s.ctx? i with
  | none => .refused .noSuchContext
  | some c =>
    match c.reg r with
    | none => .refused .readRegWithoutValue
    | some v => .next (s.observe (.reg i r v))

/-- READ_STATUS (R47): STATUS, FCMD and FADDR of a context. -/
def hostReadStatus (i : Nat) (s : State) : Host.Outcome State Fault Refusal :=
  match s.ctx? i with
  | none => .refused .noSuchContext
  | some c => .next (s.observe (.status i c.status c.fcmd c.faddr))

/-- READ_FEAT (R47). -/
def hostReadFeat (s : State) : Host.Outcome State Fault Refusal :=
  .next (s.observe (.feat s.feat))

/-- READ_ENGSEL (R47). -/
def hostReadEngsel (s : State) : Host.Outcome State Fault Refusal :=
  .next (s.observe (.engsel s.engsel))

/-- WRITE_MEM (R49). -/
def hostWriteMem (a : Word64) (b : Byte) (s : State) : Host.Outcome State Fault Refusal :=
  if s.mapped a.toNat then .next (s.writeByte a.toNat b) else .refused .writeMemUnmapped

/-- RESET (R176). -/
def hostReset (s : State) : Host.Outcome State Fault Refusal := .next s.resetEngine

/-- ISSUE (R51): a faulted context refuses the command with no effect, before decoding it (R159;
assumption log 7); an
illegal word raises ILLEGAL_COMMAND (R151); any other performs its command's rule. -/
def hostIssue (i : Nat) (w : Word32) (s : State) : Host.Outcome State Fault Refusal :=
  match s.ctx? i with
  | none => .refused .noSuchContext
  | some c =>
    if c.faulted then .next s
    else
      match decode w with
      | .error _ => .next (s.faultEntry i w .illegalCommand 0)
      | .ok instr => exec instr { s with issuing := i }

/-- Perform a host-port operation. -/
def perform (op : HostOp) (s : State) : Host.Outcome State Fault Refusal :=
  match op with
  | .writeReg i r v => hostWriteReg i r v s
  | .readReg i r => hostReadReg i r s
  | .issue i w => hostIssue i w s
  | .readStatus i => hostReadStatus i s
  | .readFeat => hostReadFeat s
  | .readEngsel => hostReadEngsel s
  | .writeMem a b => hostWriteMem a b s
  | .reset => hostReset s

/-- The engine performs the next operation of the host; with none pending it is idle (70 R178). -/
def performNext (s : State) : Host.Outcome State Fault Refusal :=
  match s.pending with
  | [] => .next s
  | op :: rest => perform op { s with pending := rest }

/-- Put the ISSUE of a command word on context 0 at the head of the queue. -/
def State.withIssue (s : State) (w : Word32) : State :=
  { s with pending := .issue 0 w :: s.pending }

end Sys2Proof.Machine
end

