-- ==== Sys2Proof/Machine/Step.lean ====
section
/-! DEFINITION. One step of the machine: one operation of the host port (10_state.md R47, R51). -/

namespace Sys2Proof.Machine

/-- One step. -/
def step (s : State) : Host.Outcome State Fault Refusal := performNext s

/-- The state whose very next step issues the command word of the given table bits, on context 0.
The engine has no program counter and fetches nothing (R30): its next command is the one the host
issues next (assumption log 6). -/
def State.withFetchWord (s : State) (nbits w : Nat) : State :=
  s.withIssue (BitVec.ofNat 32 (w % 2 ^ nbits))

end Sys2Proof.Machine
end

