-- ==== Sys2Proof/Machine/Assembler.lean ====
section
/-! DEFINITION. The assembler notation (30_encoding.md R85, R86): one line of text to one command.
It is no part of the engine's state or step; it says which command a line stands for. How a line is cut
into parts is a DESIGN CHOICE (assumption log 12). -/

namespace Sys2Proof.Machine

/-- What a line assembles to: nothing (blank or comment only), a command, or a rejection, one name
for each thing R85 says the assembler rejects. -/
inductive AsmResult where
  | blank
  | command (i : Instr)
  | unknownMnemonic
  | badRegister
  | wrongOperandCount
deriving DecidableEq, Repr

/-- A mnemonic's operand list, in the order RD, RS1, RS2, RS3 (R85). -/
inductive AsmForm where
  | none (i : Instr)
  | one (i : RegId → Instr)
  | two (i : RegId → RegId → Instr)
  | three (i : RegId → RegId → RegId → Instr)
  | four (i : RegId → RegId → RegId → RegId → Instr)

/-- The mnemonics: the names of R80 in lower case, then the pseudo-instructions of R86 by their
expansions. -/
def asmTable : List (List Char × AsmForm) := [
  ("select".toList, .one .select),
  ("tbuild.le".toList, .none .tbuildLE),
  ("tbuild.be".toList, .none .tbuildBE),
  ("tread.le".toList, .two .treadLE),
  ("tread.be".toList, .two .treadBE),
  ("update".toList, .four .update),
  ("update.swle".toList, .four .updateSWLE),
  ("update.swbe".toList, .four .updateSWBE),
  ("update.hw".toList, .four .updateHW),
  ("crc32cb".toList, .three .crc32cb),
  ("crc32ch".toList, .three .crc32ch),
  ("crc32cw".toList, .three .crc32cw),
  ("crc32cx".toList, .three .crc32cx),
  ("clmul".toList, .three .clmul),
  ("foldk1".toList, .two .foldk1),
  ("foldk2".toList, .two .foldk2),
  ("tstep.le".toList, .three .tstepLE),
  ("tstep.be".toList, .three .tstepBE)] ++ [
  ("tslice.le".toList, .three .tsliceLE),
  ("tslice.be".toList, .three .tsliceBE),
  ("xor".toList, .three .xor),
  ("inv".toList, .two .inv),
  ("ldle.b".toList, .two .ldleB),
  ("ldle.h".toList, .two .ldleH),
  ("ldle.w".toList, .two .ldleW),
  ("ldle.x".toList, .two .ldleX),
  ("ldbe.b".toList, .two .ldbeB),
  ("ldbe.h".toList, .two .ldbeH),
  ("ldbe.w".toList, .two .ldbeW),
  ("ldbe.x".toList, .two .ldbeX),
  ("mv".toList, .two fun rd rs => .xor rd rs 0),
  ("zero".toList, .one fun rd => .xor rd 0 0),
  ("ones32".toList, .one fun rd => .inv rd 0),
  ("crc".toList, .three fun rd ra rl => .update rd 0 ra rl),
  ("nop".toList, .none (.xor 0 0 0))]

/-- The register names `r0` to `r15` (R26, R85). -/
def regNames : List (List Char) := [
  "r0".toList, "r1".toList, "r2".toList, "r3".toList, "r4".toList, "r5".toList, "r6".toList,
  "r7".toList, "r8".toList, "r9".toList, "r10".toList, "r11".toList, "r12".toList, "r13".toList,
  "r14".toList, "r15".toList]

/-- The register of a name. -/
def regOfName (name : List Char) : Option RegId :=
  (List.finRange 16).find? fun r => regNames[r.val]? == some name

/-- Blanks between the parts of a line. -/
def isBlank (c : Char) : Bool := c == ' ' || c == '\t'

/-- A text without the blanks at its two ends. -/
def trim (cs : List Char) : List Char :=
  ((cs.dropWhile isBlank).reverse.dropWhile isBlank).reverse

/-- A text cut at its commas. -/
def splitCommas : List Char → List (List Char)
  | [] => [[]]
  | c :: cs =>
    if c == ',' then [] :: splitCommas cs
    else
      match splitCommas cs with
      | [] => [[c]]
      | w :: ws => (c :: w) :: ws

/-- The operand texts after a mnemonic. -/
def operandTexts (cs : List Char) : List (List Char) :=
  if trim cs = [] then [] else (splitCommas cs).map trim

/-- A form applied to its operands. -/
def AsmForm.apply : AsmForm → List RegId → AsmResult
  | .none i, [] => .command i
  | .one i, [a] => .command (i a)
  | .two i, [a, b] => .command (i a b)
  | .three i, [a, b, c] => .command (i a b c)
  | .four i, [a, b, c, d] => .command (i a b c d)
  | _, _ => .wrongOperandCount

/-- Assemble one line (R85): a comment starts with `#` and runs to the end of the line. -/
def assembleLine (line : List Char) : AsmResult :=
  let text := trim (line.takeWhile (· != '#'))
  if text = [] then .blank
  else
    let mnemonic := text.takeWhile (fun c => !isBlank c)
    match asmTable.find? (fun row => row.1 == mnemonic) with
    | none => .unknownMnemonic
    | some row =>
      match (operandTexts (text.dropWhile (fun c => !isBlank c))).mapM regOfName with
      | none => .badRegister
      | some rs => row.2.apply rs

/-- The command word a line assembles to, if it holds a command (R85: encoded by R74). -/
def assembleWord (line : List Char) : Option Word32 :=
  match assembleLine line with
  | .command i => some (encode i)
  | _ => none

end Sys2Proof.Machine
end

