-- ==== Sys2Proof/Safety.lean ====
section
/-! DEFINITION. What claims about the machine are stated with: the invariant of its states, the
operands and checks of a command read off the spec's tables rather than off the meanings, and the
shape of outcomes. -/

namespace Sys2Proof.Machine

/-! ## The invariant -/

/-- What FADDR may hold beside a cause (10_state.md R36; 60_exceptions.md R150): the index 1 to 15 of
a register for UNDEF_OPERAND, an unmapped address of the address space for MEM_FAULT, any address
operand for RANGE_FAULT, 0 for the others. -/
def infoLegal (cfg : Config) : Cause → Word64 → Bool
  | .undefOperand, f => decide (1 ≤ f.toNat) && decide (f.toNat ≤ 15)
  | .rangeFault, _ => true
  | .memFault, f => decide (f.toNat < 2 ^ cfg.addrW) && !Config.maps cfg f.toNat
  | .illegalCommand, f => f == 0
  | .configError, f => f == 0
  | .engineAbsent, f => f == 0
  | .tableInvalid, f => f == 0

/-- The causes of R150. -/
def Cause.all : List Cause :=
  [.illegalCommand, .configError, .engineAbsent, .undefOperand, .tableInvalid, .rangeFault,
    .memFault]

/-- The fault registers of a context are as reset leaves them or as a fault entry leaves them
(R32 to R36). -/
def Context.legal (cfg : Config) (c : Context) : Bool :=
  (c.status == 0 && c.fcmd == 0 && c.faddr == 0) ||
  Cause.all.any fun k => c.status == Status.ofCause k && infoLegal cfg k c.faddr

/-- TVALID[v] is 1 iff TABLE[v] holds its built contents, and else its entries hold no value (R41,
R42). -/
def State.tableLegal (s : State) (v : Variant) : Prop :=
  (s.tvalid v = true ∧ s.table v = some builtTable) ∨ (s.tvalid v = false ∧ s.table v = none)

/-- The invariant of the machine. -/
structure State.Inv (s : State) : Prop where
  /-- The parameters are in the ranges of R8. -/
  cfg : s.cfg.wellFormed = true
  /-- There are NCTX contexts (R25). -/
  contexts : s.contexts.length = s.cfg.nctx
  /-- The fault registers of every context are legal. -/
  legal : ∀ c ∈ s.contexts, c.legal s.cfg = true
  /-- FEAT reports the configuration (R37, R38). -/
  feat : s.feat = featOf s.cfg
  /-- ENGSEL holds the selection (R40). -/
  engsel : s.engsel = select s.feat
  /-- The valid flags tell the truth about the tables (R42, R43). -/
  tables : ∀ v, s.tableLegal v
  /-- Memory is in canonical form. -/
  mem : Memory.wf s.cfg.fill s.mem = true
  /-- Memory lists mapped addresses alone (R53). -/
  memMapped : ∀ p ∈ s.mem, s.mapped p.1 = true

/-- No context is faulted. -/
def State.Clean (s : State) : Prop := ∀ c ∈ s.contexts, c.faulted = false

end Sys2Proof.Machine

namespace Sys2Proof

/-! ## The operands and checks of a command, from the spec's tables -/

/-- The source registers a command reads, in the order RS1, RS2, RS3 (30_encoding.md R80). -/
def Instr.sources : Instr → List RegId
  | .select _ => []
  | .tbuildLE => []
  | .tbuildBE => []
  | .treadLE _ a => [a]
  | .treadBE _ a => [a]
  | .update _ a b c => [a, b, c]
  | .updateSWLE _ a b c => [a, b, c]
  | .updateSWBE _ a b c => [a, b, c]
  | .updateHW _ a b c => [a, b, c]
  | .crc32cb _ a b => [a, b]
  | .crc32ch _ a b => [a, b]
  | .crc32cw _ a b => [a, b]
  | .crc32cx _ a b => [a, b]
  | .clmul _ a b => [a, b]
  | .foldk1 _ a => [a]
  | .foldk2 _ a => [a]
  | .tstepLE _ a b => [a, b]
  | .tstepBE _ a b => [a, b]
  | .tsliceLE _ a b => [a, b]
  | .tsliceBE _ a b => [a, b]
  | .xor _ a b => [a, b]
  | .inv _ a => [a]
  | .ldleB _ a => [a]
  | .ldleH _ a => [a]
  | .ldleW _ a => [a]
  | .ldleX _ a => [a]
  | .ldbeB _ a => [a]
  | .ldbeH _ a => [a]
  | .ldbeW _ a => [a]
  | .ldbeX _ a => [a]

/-- The destination register of a command (R80); TBUILD has none. -/
def Instr.dest : Instr → Option RegId
  | .select rd => some rd
  | .tbuildLE => none
  | .tbuildBE => none
  | .treadLE rd _ => some rd
  | .treadBE rd _ => some rd
  | .update rd _ _ _ => some rd
  | .updateSWLE rd _ _ _ => some rd
  | .updateSWBE rd _ _ _ => some rd
  | .updateHW rd _ _ _ => some rd
  | .crc32cb rd _ _ => some rd
  | .crc32ch rd _ _ => some rd
  | .crc32cw rd _ _ => some rd
  | .crc32cx rd _ _ => some rd
  | .clmul rd _ _ => some rd
  | .foldk1 rd _ => some rd
  | .foldk2 rd _ => some rd
  | .tstepLE rd _ _ => some rd
  | .tstepBE rd _ _ => some rd
  | .tsliceLE rd _ _ => some rd
  | .tsliceBE rd _ _ => some rd
  | .xor rd _ _ => some rd
  | .inv rd _ => some rd
  | .ldleB rd _ => some rd
  | .ldleH rd _ => some rd
  | .ldleW rd _ => some rd
  | .ldleX rd _ => some rd
  | .ldbeB rd _ => some rd
  | .ldbeH rd _ => some rd
  | .ldbeW rd _ => some rd
  | .ldbeX rd _ => some rd

/-- The availability table of 43_dispatcher.md R134, from the configuration parameters. -/
def Instr.availableIn (c : Config) : Instr → Bool
  | .updateSWLE _ _ _ _ => c.hasSwLE
  | .updateSWBE _ _ _ _ => c.hasSwBE
  | .updateHW _ _ _ _ => c.hasHW && c.fCrc && c.fClmul
  | .foldk1 _ _ => c.hasHW && c.fCrc && c.fClmul
  | .foldk2 _ _ => c.hasHW && c.fCrc && c.fClmul
  | .crc32cb _ _ _ => c.hasHW && c.fCrc
  | .crc32ch _ _ _ => c.hasHW && c.fCrc
  | .crc32cw _ _ _ => c.hasHW && c.fCrc
  | .crc32cx _ _ _ => c.hasHW && c.fCrc
  | .clmul _ _ _ => c.hasHW && c.fClmul
  | .select _ => true
  | .tbuildLE => true
  | .tbuildBE => true
  | .treadLE _ _ => true
  | .treadBE _ _ => true
  | .update _ _ _ _ => true
  | .tstepLE _ _ _ => true
  | .tstepBE _ _ _ => true
  | .tsliceLE _ _ _ => true
  | .tsliceBE _ _ _ => true
  | .xor _ _ _ => true
  | .inv _ _ => true
  | .ldleB _ _ => true
  | .ldleH _ _ => true
  | .ldleW _ _ => true
  | .ldleX _ _ => true
  | .ldbeB _ _ => true
  | .ldbeH _ _ => true
  | .ldbeW _ _ => true
  | .ldbeX _ _ => true

/-- Is the command the dispatched UPDATE? -/
def Instr.isDispatched : Instr → Bool
  | .update _ _ _ _ => true
  | _ => false

/-- The variant whose table a command needs built (60_exceptions.md R155). -/
def Instr.tableNeeded : Instr → Option Variant
  | .treadLE _ _ => some .le
  | .tstepLE _ _ _ => some .le
  | .tsliceLE _ _ _ => some .le
  | .treadBE _ _ => some .be
  | .tstepBE _ _ _ => some .be
  | .tsliceBE _ _ _ => some .be
  | _ => none

/-- The bytes of memory a command reads: the register of the address, and how many, which an update
takes from a register (20_memory.md R55, R59, R62). -/
def Instr.reads : Instr → Option (RegId × (RegId ⊕ Nat))
  | .update _ _ a n => some (a, .inl n)
  | .updateSWLE _ _ a n => some (a, .inl n)
  | .updateSWBE _ _ a n => some (a, .inl n)
  | .updateHW _ _ a n => some (a, .inl n)
  | .ldleB _ a => some (a, .inr 1)
  | .ldleH _ a => some (a, .inr 2)
  | .ldleW _ a => some (a, .inr 4)
  | .ldleX _ a => some (a, .inr 8)
  | .ldbeB _ a => some (a, .inr 1)
  | .ldbeH _ a => some (a, .inr 2)
  | .ldbeW _ a => some (a, .inr 4)
  | .ldbeX _ a => some (a, .inr 8)
  | _ => none

end Sys2Proof

namespace Sys2Proof.Machine

/-- The address operand and byte count of a command that reads memory, with the values its registers
hold. -/
def rangeOf (i : Instr) (c : Context) : Option (Word64 × Nat) :=
  match i.reads with
  | none => none
  | some (ra, rn) =>
    match c.reg ra, rn with
    | none, _ => none
    | some a, .inr n => some (a, n)
    | some a, .inl r => (c.reg r).map fun len => (a, len.toNat)

/-- Every source register of a command holds a value. -/
def SourcesHold (i : Instr) (c : Context) : Prop := ∀ r ∈ i.sources, (c.reg r).isSome = true

/-- Nothing of point 3 of R160 stands against a command: an engine is bound where the dispatched
UPDATE needs one, and the engine or primitive of any other command is available (R134, R136). -/
def EngineReady (i : Instr) (s : State) : Prop :=
  (i.isDispatched = true → Engsel.bind s.engsel ≠ .none) ∧ i.availableIn s.cfg = true

/-- The byte range `[a, a+n)` stays inside the address space (20_memory.md R59). -/
def InRange (s : State) (a n : Nat) : Prop := a < 2 ^ s.cfg.addrW ∧ a + n ≤ 2 ^ s.cfg.addrW

/-- Every byte of `[a, a+n)` exists (R60). -/
def AllMapped (s : State) (a n : Nat) : Prop := ∀ x, a ≤ x → x < a + n → s.mapped x = true

/-- The first cause that applies to a command, in the order of 60_exceptions.md R160 from point 3 on,
with what FADDR records (R150). Points 1 and 2 come before a word is a command. -/
def firstFault (i : Instr) (s : State) (c : Context) : Option (Cause × Word64) :=
  if i.isDispatched && Engsel.bind s.engsel == .none then some (.configError, 0)
  else if !i.availableIn s.cfg then some (.engineAbsent, 0)
  else
    match i.sources.find? fun r => (c.reg r).isNone with
    | some r => some (.undefOperand, BitVec.ofNat 64 r.val)
    | none =>
      if i.tableNeeded.any fun v => !s.tvalid v then some (.tableInvalid, 0)
      else
        match rangeOf i c with
        | none => none
        | some (a, n) =>
          if 2 ^ s.cfg.addrW ≤ a.toNat ∨ 2 ^ s.cfg.addrW < a.toNat + n then some (.rangeFault, a)
          else
            match (List.range' a.toNat n).find? fun x => !s.mapped x with
            | some u => some (.memFault, BitVec.ofNat 64 u)
            | none => none

/-! ## Outcomes -/

/-- An outcome with its next state changed. -/
def mapNext (f : State → State) :
    Host.Outcome State Fault Refusal → Host.Outcome State Fault Refusal
  | .next s => .next (f s)
  | .fault r => .fault r
  | .refused r => .refused r

/-- Is the operation RESET? -/
def isReset : HostOp → Bool
  | .reset => true
  | _ => false

/-- Is the operation WRITE_MEM? -/
def isWriteMem : HostOp → Bool
  | .writeMem _ _ => true
  | _ => false

end Sys2Proof.Machine
end

