-- ==== Sys2Proof/Certificates/Slice0/Obligations.lean ====
section
/-! DEFINITION. The statements about the machine, one definition each. The fields `pending`, `observed`
and `issuing` of State, wherever a statement names them, are the model's own (assumption log 6). -/

open Sys2Proof Sys2Proof.Machine

/-! ## Encoding -/

/-- Decoding the word of a command gives the command back, with every operand at every value. -/
def Obligations.DecodeOfEncodeIsIdentity : Prop :=
  ∀ i : Instr, decode (encode i) = .ok i

/-- A legal word is the word of the command it decodes to, so FCMD can be told from the command
(assumption log 11). -/
def Obligations.LegalWordIsItsCommandsWord : Prop :=
  ∀ (w : Word32) (i : Instr), decode w = .ok i → encode i = w

/-- R87: decoding gives, on every word, what the search of the table of R80 gives; at most one row
matches a word; and the fields a row does not use are 0 in a word that matches it (`Instr.fields`
has 0 there). -/
def Obligations.DecodeIsTheSearchOfTheOpcodeTable : Prop :=
  ∀ w : Word32,
    (decode w).toOption = decodeByTable w ∧
    opcodeTable.Pairwise (fun r q => ¬(r.covers w = true ∧ q.covers w = true)) ∧
    ∀ i, decode w = .ok i → FormatC.ofWord w = i.fields

/-- R81, R151: a word that no row matches is exactly one with a reserved OP, RES not 0, an undefined
V or a nonzero unused register field, the all-zero word among them; issued to a context that is not
faulted it takes ILLEGAL_COMMAND with FADDR 0 and has no other effect. -/
def Obligations.IllegalWordsTakeIllegalCommand : Prop :=
  decodeByTable 0 = none ∧
  ∀ w : Word32,
    (decodeByTable w = none ↔
      (FormatC.ofWord w).opDefined = false ∨ (FormatC.ofWord w).resZero = false ∨
      (FormatC.ofWord w).vDefined = false ∨ (FormatC.ofWord w).unusedZero = false) ∧
    (decodeByTable w = none →
      ∀ (s : State) (j : Nat) (rest : List HostOp) (c : Context),
        s.pending = .issue j w :: rest → s.ctx? j = some c → c.faulted = false →
        step s = .next (State.faultEntry { s with pending := rest } j w .illegalCommand 0))

/-- Words written out from R74 and R80 decode to the commands they stand for. -/
def Obligations.SampleWordsDecode : Prop :=
  decode 0x05400000 = .ok (.select 5) ∧
  decode 0x08000100 = .ok .tbuildBE ∧
  decode 0x0C840000 = .ok (.treadLE 2 1) ∧
  decode 0x11048F00 = .ok (.updateHW 4 1 2 3) ∧
  decode 0x14C48300 = .ok (.crc32cx 3 1 2) ∧
  decode 0x1CC40100 = .ok (.foldk2 3 1) ∧
  decode 0x24C48100 = .ok (.tsliceBE 3 1 2) ∧
  decode 0x34840200 = .ok (.ldbeW 2 1)

/-! ## Steps and host-port operations -/

/-- R51: an ISSUE of a word that decodes to a command runs exactly that command, on the context the
ISSUE names, with the operation taken from the queue. With no operation of the host pending the engine
is idle (R178). The queue is the model's own (assumption log 6). -/
def Obligations.StepRunsTheIssuedCommand : Prop :=
  (∀ (s : State) (j : Nat) (w : Word32) (i : Instr) (rest : List HostOp) (c : Context),
    s.pending = .issue j w :: rest → s.ctx? j = some c → c.faulted = false → decode w = .ok i →
    step s = exec i { s with pending := rest, issuing := j }) ∧
  ∀ s : State, s.pending = [] → step s = .next s

/-- R159, R33: a faulted context refuses every ISSUE with no effect; WRITE_REG, READ_REG and
READ_STATUS still work on it; no operation but RESET changes its STATUS, FCMD or FADDR; RESET clears
the fault; and no other context is affected by its refusal. -/
def Obligations.FaultedContextIsStoppedUntilReset : Prop :=
  ∀ (s : State) (op : HostOp) (rest : List HostOp) (j : Nat) (c : Context),
    s.pending = op :: rest → s.ctx? j = some c → c.faulted = true →
    (∀ w, op = .issue j w → step s = .next { s with pending := rest }) ∧
    (∀ r v, op = .writeReg j r v →
      step s = .next (State.setCtx { s with pending := rest } j (c.setReg r v))) ∧
    (∀ r v, op = .readReg j r → c.reg r = some v →
      step s = .next (State.observe { s with pending := rest } (.reg j r v))) ∧
    (op = .readStatus j →
      step s = .next
        (State.observe { s with pending := rest } (.status j c.status c.fcmd c.faddr))) ∧
    (isReset op = false → ∀ t, step s = .next t → ∃ d, t.ctx? j = some d ∧
      d.status = c.status ∧ d.fcmd = c.fcmd ∧ d.faddr = c.faddr) ∧
    (op = .reset → j < s.cfg.nctx → ∃ t d, step s = .next t ∧ t.ctx? j = some d ∧
      d.faulted = false ∧ Status.cause d.status = 0 ∧ d.fcmd = 0 ∧ d.faddr = 0)

/-- R48: WRITE_REG sets the register, discards a write of R0, works on a faulted context as on any
other, and leaves every other register, every other context and the rest of the machine alone. -/
def Obligations.WriteRegSetsTheRegister : Prop :=
  ∀ (s : State) (j : Nat) (r : RegId) (v : Word64) (rest : List HostOp) (c : Context),
    s.pending = .writeReg j r v :: rest → s.ctx? j = some c →
    ∃ t d, step s = .next t ∧ t.ctx? j = some d ∧
      (r ≠ 0 → d.reg r = some v) ∧ (r = 0 → d = c) ∧ (∀ q, q ≠ r → d.reg q = c.reg q) ∧
      d.status = c.status ∧ d.fcmd = c.fcmd ∧ d.faddr = c.faddr ∧
      (∀ k, k ≠ j → t.ctx? k = s.ctx? k) ∧
      t = { s with pending := rest, contexts := t.contexts }

/-- R50, R47: READ_REG returns the register's value, and is refused where there is none; READ_STATUS
returns STATUS, FCMD and FADDR of the context, READ_FEAT returns FEAT and READ_ENGSEL returns ENGSEL;
no read changes anything else. What a read returns stands in the record of observations, which is the
model's own, as the queue is (assumption log 6). -/
def Obligations.HostReadsReturnTheState : Prop :=
  ∀ (s : State) (op : HostOp) (rest : List HostOp), s.pending = op :: rest →
    (∀ j r c, op = .readReg j r → s.ctx? j = some c →
      (∀ v, c.reg r = some v →
        step s = .next { s with pending := rest, observed := s.observed ++ [.reg j r v] }) ∧
      (c.reg r = none → step s = .refused .readRegWithoutValue)) ∧
    (∀ j c, op = .readStatus j → s.ctx? j = some c →
      step s = .next { s with
        pending := rest, observed := s.observed ++ [.status j c.status c.fcmd c.faddr] }) ∧
    (op = .readFeat →
      step s = .next { s with pending := rest, observed := s.observed ++ [.feat s.feat] }) ∧
    (op = .readEngsel →
      step s = .next { s with pending := rest, observed := s.observed ++ [.engsel s.engsel] })

/-- R49: WRITE_MEM to a mapped address sets that byte, leaves every other byte and the rest of the
machine alone; to an unmapped address it is refused. -/
def Obligations.WriteMemSetsOneMappedByte : Prop :=
  ∀ (s : State) (a : Word64) (b : Byte) (rest : List HostOp),
    s.pending = .writeMem a b :: rest → Memory.wf s.cfg.fill s.mem = true →
    (s.mapped a.toNat = true → ∃ t, step s = .next t ∧ t.readByte a.toNat = some b ∧
      (∀ x, x ≠ a.toNat → t.readByte x = s.readByte x) ∧
      Memory.wf t.cfg.fill t.mem = true ∧ t = { s with pending := rest, mem := t.mem }) ∧
    (s.mapped a.toNat = false → step s = .refused .writeMemUnmapped)

/-- R177: what RESET leaves in every piece of state of the engine. The last three clauses are the
model's own and no part of R177: that the parameters stay (assumption log 3), and that the queue and the
record of observations stay (assumption log 6). -/
def Obligations.ResetLeavesTheResetTable : Prop :=
  ∀ (s : State) (rest : List HostOp), s.pending = .reset :: rest →
    ∃ t, step s = .next t ∧ t.contexts.length = s.cfg.nctx ∧
      (∀ c ∈ t.contexts, c.reg 0 = some 0 ∧ (∀ r, r ≠ 0 → c.reg r = none) ∧
        c.status = 0 ∧ c.fcmd = 0 ∧ c.faddr = 0) ∧
      (∀ n, t.feat.getLsbD n =
        ((n == 0 && s.cfg.fCrc) || (n == 1 && s.cfg.fClmul) || (n == 2 && s.cfg.hostBE) ||
          (n == 8 && s.cfg.hasSwLE) || (n == 9 && s.cfg.hasSwBE) || (n == 10 && s.cfg.hasHW))) ∧
      t.engsel = select t.feat ∧
      (∀ v, t.tvalid v = false ∧ t.table v = none) ∧
      (∀ a, t.readByte a = s.readByte a) ∧ t.mem = s.mem ∧
      t.cfg = s.cfg ∧ t.pending = rest ∧ t.observed = s.observed

/-- The reset state meets the invariant. Its configuration and memory are the model's choice
(assumption log 1 and 2). -/
def Obligations.ResetStateMeetsTheInvariant : Prop :=
  State.reset.Inv ∧ State.reset.Clean

/-- Every launch state of a configuration in range, with a launch image in canonical form that lists
mapped addresses alone, meets the invariant, whatever operations the host has pending. -/
def Obligations.LaunchStatesMeetTheInvariant : Prop :=
  ∀ (c : Config) (mem : List Host.Cell) (ops : List HostOp),
    c.wellFormed = true → Memory.wf c.fill mem = true →
    (∀ p ∈ mem, Config.maps c p.1 = true) →
    State.Inv { State.launch c mem with pending := ops } ∧
    State.Clean { State.launch c mem with pending := ops }

/-- Every step keeps the invariant. -/
def Obligations.StepKeepsTheInvariant : Prop :=
  ∀ s t : State, s.Inv → step s = .next t → t.Inv

/-- R192: from a state that meets the invariant every ISSUE to an existing context ends in a next
state, and the machine stops only at an operation of the host that the spec refuses or that names no
context (the last is the model's choice, assumption log 8). -/
def Obligations.StepStopsOnlyAtRefusedHostOperations : Prop :=
  ∀ s : State, s.Inv →
    (∀ j w rest, s.pending = .issue j w :: rest → j < s.cfg.nctx → ∃ t, step s = .next t) ∧
    (∀ f, step s ≠ .fault f) ∧
    (∀ q, step s = .refused q → ∃ op rest, s.pending = op :: rest ∧
      ((q = .noSuchContext ∧ op.wellFormed s.cfg.nctx = false) ∨
       (q = .readRegWithoutValue ∧ ∃ j r c, op = .readReg j r ∧ s.ctx? j = some c ∧
          c.reg r = none) ∨
       (q = .writeMemUnmapped ∧ ∃ a b, op = .writeMem a b ∧ s.mapped a.toNat = false)))

/-! ## Rules of the whole machine -/

/-- R38, R40, R130: FEAT and ENGSEL change with no operation of the host but RESET, which sets FEAT to
the configuration and ENGSEL to its selection; so from a state that meets the invariant they do not
change with RESET either. The last clause is the model's own and no part of those rules: that no step
changes the parameters, which State holds (assumption log 3). -/
def Obligations.BindingNeverChanges : Prop :=
  ∀ (s t : State) (op : HostOp) (rest : List HostOp),
    s.pending = op :: rest → step s = .next t →
    (isReset op = false → t.feat = s.feat ∧ t.engsel = s.engsel) ∧
    (isReset op = true → t.feat = featOf s.cfg ∧ t.engsel = select (featOf s.cfg)) ∧
    (s.Inv → t.feat = s.feat ∧ t.engsel = s.engsel) ∧ t.cfg = s.cfg

/-- R43: no operation of the host but a command or RESET touches a table; whatever a step writes into a
table is its built contents; and once TVALID[v] = 1, TABLE[v] is constant until RESET. -/
def Obligations.BuiltTableIsConstantUntilReset : Prop :=
  ∀ (s t : State) (op : HostOp) (rest : List HostOp) (v : Variant),
    s.Inv → s.pending = op :: rest → step s = .next t →
    ((∀ j w, op ≠ .issue j w) → isReset op = false →
      t.table v = s.table v ∧ t.tvalid v = s.tvalid v) ∧
    (∀ T, t.table v = some T → T = builtTable) ∧
    (isReset op = false → s.tvalid v = true → t.tvalid v = true ∧ t.table v = s.table v)

/-- R54: no step but a WRITE_MEM of the host changes a byte of memory. -/
def Obligations.OnlyTheHostWritesMemory : Prop :=
  ∀ (s t : State) (op : HostOp) (rest : List HostOp),
    s.pending = op :: rest → isWriteMem op = false → step s = .next t →
    t.mem = s.mem ∧ ∀ a, t.readByte a = s.readByte a

/-- R168, last sentences: a command neither reads nor writes another context. Whatever another
context holds, the command answers the same, and leaves that context as it is. -/
def Obligations.CommandsDoNotTouchOtherContexts : Prop :=
  ∀ (i : Instr) (s : State) (j : Nat) (d : Context), j ≠ s.issuing →
    exec i (s.setCtx j d) = mapNext (fun t => t.setCtx j d) (exec i s)

/-- The frame of every command outside the issuing context, fault or not: configuration, FEAT,
ENGSEL, every byte of memory, the host port, and every other context. -/
def Obligations.CommandFrameOutsideTheContext : Prop :=
  ∀ (i : Instr) (s t : State), exec i s = .next t →
    t.cfg = s.cfg ∧ t.feat = s.feat ∧ t.engsel = s.engsel ∧
    (∀ a, t.readByte a = s.readByte a) ∧ t.mem = s.mem ∧
    t.pending = s.pending ∧ t.observed = s.observed ∧ t.issuing = s.issuing ∧
    t.contexts.length = s.contexts.length ∧ ∀ j, j ≠ s.issuing → t.ctx? j = s.ctx? j

/-- The frame of every command inside the issuing context: every register but the destination keeps
its value (R148), and either STATUS, FCMD and FADDR are kept, or a fault was taken and no register at
all changed (R158). -/
def Obligations.CommandFrameInsideTheContext : Prop :=
  ∀ (i : Instr) (s t : State), exec i s = .next t →
    ∃ c d, s.ctx? s.issuing = some c ∧ t.ctx? s.issuing = some d ∧
      (∀ q, i.dest ≠ some q → d.reg q = c.reg q) ∧
      ((d.status = c.status ∧ d.fcmd = c.fcmd ∧ d.faddr = c.faddr) ∨
       (d.faulted = true ∧ d.regs = c.regs ∧ d.fcmd = encode i))

/-- R27: R0 reads as 0 whatever is written to it; a command whose destination is R0 leaves every
register as it was, while the checks and faults still apply. -/
def Obligations.RegisterZeroIsHardwired : Prop :=
  (∀ (c : Context) (v : Word64), c.reg 0 = some 0 ∧ c.setReg 0 v = c) ∧
  (∀ (i : Instr) (s t : State) (c d : Context), i.dest = some 0 → exec i s = .next t →
    s.ctx? s.issuing = some c → t.ctx? s.issuing = some d → d.regs = c.regs) ∧
  (∀ (i : Instr) (s : State) (c : Context) (k : Cause) (f : Word64), s.Inv → i.dest = some 0 →
    s.ctx? s.issuing = some c → firstFault i s c = some (k, f) →
    exec i s = .next (s.faultEntry s.issuing (encode i) k f))

/-- Tables and valid flags: no command but TBUILD.v, the software update of v and the dispatched
UPDATE changes those of v, and TBUILD of one variant leaves the other alone. -/
def Obligations.CommandFrameOfTheTables : Prop :=
  ∀ (i : Instr) (s t : State), exec i s = .next t →
    (i ≠ .tbuildLE → i.isDispatched = false → (∀ rd a b c, i ≠ .updateSWLE rd a b c) →
      t.tvalid .le = s.tvalid .le ∧ t.table .le = s.table .le) ∧
    (i ≠ .tbuildBE → i.isDispatched = false → (∀ rd a b c, i ≠ .updateSWBE rd a b c) →
      t.tvalid .be = s.tvalid .be ∧ t.table .be = s.table .be)

/-! ## Faults -/

/-- R158: when the command word issued to a context that is not faulted raises a cause, the state is
that before the command but for the four writes to STATUS, FCMD and FADDR of that context, STATUS
with FAULTED = 1, CAUSE the code R150 gives the cause and 0 elsewhere, FCMD the word issued. (Taking the operation from the
queue and noting the issuing context are the model's own, assumption log 6.) -/
def Obligations.FaultsArePrecise : Prop :=
  ∀ (s t : State) (j : Nat) (w : Word32) (rest : List HostOp) (c d : Context),
    s.pending = .issue j w :: rest → s.ctx? j = some c → c.faulted = false →
    step s = .next t → t.ctx? j = some d → d.faulted = true →
    ∃ (k : Cause) (f : Word64),
      d = { c with status := Status.ofCause k, fcmd := w, faddr := f } ∧
      Status.faulted d.status = true ∧
      (Status.cause d.status).toNat =
        (match k with
          | .illegalCommand => 1 | .configError => 2 | .engineAbsent => 3 | .undefOperand => 4
          | .tableInvalid => 5 | .rangeFault => 6 | .memFault => 7) ∧
      (∀ n, n ≠ 0 → ¬(4 ≤ n ∧ n < 8) → d.status.getLsbD n = false) ∧
      t = { s with pending := rest, issuing := t.issuing, contexts := s.contexts.set j d }

/-- R160: of the causes that apply to an issued word exactly one is reported, the first in the order
given there: refusal by a faulted context, ILLEGAL_COMMAND, and then as `firstFault` lists them. Where
none applies, the command completes and no fault register changes. -/
def Obligations.FirstApplicableFaultIsReported : Prop :=
  ∀ (s : State) (j : Nat) (w : Word32) (rest : List HostOp) (c : Context),
    s.Inv → s.pending = .issue j w :: rest → s.ctx? j = some c →
    (c.faulted = true → step s = .next { s with pending := rest }) ∧
    (c.faulted = false → (∃ e, decode w = .error e) →
      step s = .next (State.faultEntry { s with pending := rest } j w .illegalCommand 0)) ∧
    (∀ i, c.faulted = false → decode w = .ok i →
      (∀ k f, firstFault i s c = some (k, f) →
        step s = .next (State.faultEntry { s with pending := rest, issuing := j } j w k f)) ∧
      (firstFault i s c = none → ∃ t d, step s = .next t ∧ t.ctx? j = some d ∧
        d.status = c.status ∧ d.fcmd = c.fcmd ∧ d.faddr = c.faddr))

/-- R134, R153: a command whose engine or primitive is not available takes ENGINE_ABSENT with FADDR 0,
whatever its registers hold. -/
def Obligations.UnavailableEngineIsAbsent : Prop :=
  ∀ (i : Instr) (s : State) (c : Context), s.Inv → s.ctx? s.issuing = some c →
    i.availableIn s.cfg = false →
    exec i s = .next (s.faultEntry s.issuing (encode i) .engineAbsent 0)

/-- R152, R136: the dispatched UPDATE takes CONFIG_ERROR with FADDR 0 when no engine is bound, even
when its registers hold no value. -/
def Obligations.UnboundUpdateIsConfigError : Prop :=
  ∀ (rd rs1 rs2 rs3 : RegId) (s : State) (c : Context), s.ctx? s.issuing = some c →
    Engsel.bind s.engsel = .none →
    exec (.update rd rs1 rs2 rs3) s =
      .next (s.faultEntry s.issuing (encode (.update rd rs1 rs2 rs3)) .configError 0)

/-- R136: ENGINE_ABSENT cannot arise for the dispatched UPDATE, because the selection binds only an
available engine. -/
def Obligations.SelectionBindsOnlyAvailableEngines : Prop :=
  (∀ (c : Config) (rd a b n : RegId),
    (Engsel.bind (select (featOf c)) = .hw → (Instr.updateHW rd a b n).availableIn c = true) ∧
    (Engsel.bind (select (featOf c)) = .swLE → (Instr.updateSWLE rd a b n).availableIn c = true) ∧
    (Engsel.bind (select (featOf c)) = .swBE → (Instr.updateSWBE rd a b n).availableIn c = true)) ∧
  ∀ (s t : State) (c d : Context) (rd a b n : RegId), s.Inv → s.ctx? s.issuing = some c →
    c.faulted = false → exec (.update rd a b n) s = .next t → t.ctx? s.issuing = some d →
    d.status ≠ Status.ofCause .engineAbsent

/-- R154: a command whose engine is ready reports, of its source registers in the order RS1, RS2,
RS3, the first that holds no value; R0 always has a value. -/
def Obligations.FirstValuelessSourceIsReported : Prop :=
  (∀ c : Context, (c.reg 0).isSome = true) ∧
  ∀ (i : Instr) (s : State) (c : Context) (pre post : List RegId) (r : RegId),
    s.Inv → s.ctx? s.issuing = some c → EngineReady i s → i.sources = pre ++ r :: post →
    (∀ q ∈ pre, (c.reg q).isSome = true) → c.reg r = none →
    exec i s =
      .next (s.faultEntry s.issuing (encode i) .undefOperand (BitVec.ofNat 64 r.val))

/-- R155: TREAD.v, TSTEP.v and TSLICE.v take TABLE_INVALID while TVALID[v] = 0; the update commands
never do. -/
def Obligations.UnbuiltTableIsInvalid : Prop :=
  ∀ (i : Instr) (s : State) (c : Context), s.ctx? s.issuing = some c →
    (∀ v, i.tableNeeded = some v → SourcesHold i c → s.tvalid v = false →
      exec i s = .next (s.faultEntry s.issuing (encode i) .tableInvalid 0)) ∧
    (i.tableNeeded = none → ∀ t d, c.faulted = false → exec i s = .next t →
      t.ctx? s.issuing = some d → d.status ≠ Status.ofCause .tableInvalid)

/-- R156, R59: an update or load whose byte range leaves the address space, computed without wrap,
takes RANGE_FAULT, and FADDR records the address operand. -/
def Obligations.RangeOutsideAddressSpaceFaults : Prop :=
  ∀ (i : Instr) (s : State) (c : Context) (a : Word64) (n : Nat),
    s.Inv → s.ctx? s.issuing = some c → EngineReady i s → SourcesHold i c →
    rangeOf i c = some (a, n) → 2 ^ s.cfg.addrW ≤ a.toNat ∨ 2 ^ s.cfg.addrW < a.toNat + n →
    exec i s = .next (s.faultEntry s.issuing (encode i) .rangeFault a)

/-- R157, R60: one whose range stays inside but holds an unmapped byte takes MEM_FAULT, and FADDR
records the lowest unmapped address. -/
def Obligations.UnmappedByteInRangeFaults : Prop :=
  ∀ (i : Instr) (s : State) (c : Context) (a : Word64) (n u : Nat),
    s.Inv → s.ctx? s.issuing = some c → EngineReady i s → SourcesHold i c →
    rangeOf i c = some (a, n) → InRange s a.toNat n →
    a.toNat ≤ u → u < a.toNat + n → s.mapped u = false →
    (∀ x, a.toNat ≤ x → x < u → s.mapped x = true) →
    exec i s = .next (s.faultEntry s.issuing (encode i) .memFault (BitVec.ofNat 64 u))

/-! ## Where the commands complete, and with what result -/

/-- R133, R91, R92: SELECT writes ENGSEL zero-extended; TBUILD.v leaves the built table and TVALID[v]
= 1 and writes no register. -/
def Obligations.SelectAndTbuildComplete : Prop :=
  ∀ (s : State) (c : Context) (rd : RegId), s.ctx? s.issuing = some c →
    exec (.select rd) s = .next (s.writeDest rd (s.engsel.zeroExtend 64)) ∧
    exec .tbuildLE s = .next { s with tableLE := some builtTable, tvalidLE := true } ∧
    exec .tbuildBE s = .next { s with tableBE := some builtTable, tvalidBE := true }

/-- R94, R95: TREAD.v writes the entry at row [10:8] and column [7:0] of its operand, for a valid
table. -/
def Obligations.TreadCompletes : Prop :=
  ∀ (s : State) (c : Context) (rd rs1 : RegId) (x : Word64) (T : Table),
    s.ctx? s.issuing = some c → c.reg rs1 = some x →
    (s.tvalidLE = true → s.tableLE = some T → exec (.treadLE rd rs1) s =
      .next (s.writeDest rd
        ((entry T (x.extractLsb' 8 3) (x.extractLsb' 0 8)).zeroExtend 64))) ∧
    (s.tvalidBE = true → s.tableBE = some T → exec (.treadBE rd rs1) s =
      .next (s.writeDest rd
        ((entry T (x.extractLsb' 8 3) (x.extractLsb' 0 8)).zeroExtend 64)))

/-- R100 to R103: TSTEP.v and TSLICE.v write the byte step and the slice step of their variant over
the low 32 bits of RS1 and the low byte, or all 64 bits, of RS2, for a valid table. -/
def Obligations.TstepAndTsliceComplete : Prop :=
  ∀ (s : State) (c : Context) (rd rs1 rs2 : RegId) (x y : Word64) (T : Table),
    s.ctx? s.issuing = some c → c.reg rs1 = some x → c.reg rs2 = some y →
    (s.tvalidLE = true → s.tableLE = some T →
      exec (.tstepLE rd rs1 rs2) s = .next (s.writeDest rd
        ((swbyte T (x.extractLsb' 0 32) (y.extractLsb' 0 8)).zeroExtend 64)) ∧
      exec (.tsliceLE rd rs1 rs2) s = .next (s.writeDest rd
        ((sliceLE T (x.extractLsb' 0 32) y).zeroExtend 64))) ∧
    (s.tvalidBE = true → s.tableBE = some T →
      exec (.tstepBE rd rs1 rs2) s = .next (s.writeDest rd
        ((swbyte T (x.extractLsb' 0 32) (y.extractLsb' 0 8)).zeroExtend 64)) ∧
      exec (.tsliceBE rd rs1 rs2) s = .next (s.writeDest rd
        ((sliceBE T (x.extractLsb' 0 32) y).zeroExtend 64)))

/-- R111 to R115: the four CRC step commands write the raw CRC of the low 1, 2, 4 or 8 bytes of RS2,
least significant byte first, from the low 32 bits of RS1. -/
def Obligations.CrcStepsComplete : Prop :=
  ∀ (s : State) (c : Context) (rd rs1 rs2 : RegId) (x y : Word64),
    s.ctx? s.issuing = some c → c.reg rs1 = some x → c.reg rs2 = some y →
    Feat.hasHW s.feat = true → Feat.fCrc s.feat = true →
    exec (.crc32cb rd rs1 rs2) s = .next (s.writeDest rd
      ((crcraw (x.extractLsb' 0 32) [y.extractLsb' 0 8]).zeroExtend 64)) ∧
    exec (.crc32ch rd rs1 rs2) s = .next (s.writeDest rd
      ((crcraw (x.extractLsb' 0 32) [y.extractLsb' 0 8, y.extractLsb' 8 8]).zeroExtend 64)) ∧
    exec (.crc32cw rd rs1 rs2) s = .next (s.writeDest rd
      ((crcraw (x.extractLsb' 0 32) [y.extractLsb' 0 8, y.extractLsb' 8 8, y.extractLsb' 16 8,
        y.extractLsb' 24 8]).zeroExtend 64)) ∧
    exec (.crc32cx rd rs1 rs2) s = .next (s.writeDest rd
      ((crcraw (x.extractLsb' 0 32) [y.extractLsb' 0 8, y.extractLsb' 8 8, y.extractLsb' 16 8,
        y.extractLsb' 24 8, y.extractLsb' 32 8, y.extractLsb' 40 8, y.extractLsb' 48 8,
        y.extractLsb' 56 8]).zeroExtend 64))

/-- R116, R19: CLMUL writes the carry-less product of the low 32 bits of its operands: the XOR of
`a << i` over every i with b[i] = 1. -/
def Obligations.ClmulCompletes : Prop :=
  ∀ (s : State) (c : Context) (rd rs1 rs2 : RegId) (x y : Word64),
    s.ctx? s.issuing = some c → c.reg rs1 = some x → c.reg rs2 = some y →
    Feat.hasHW s.feat = true → Feat.fClmul s.feat = true →
    exec (.clmul rd rs1 rs2) s = .next (s.writeDest rd
      ((List.range 32).foldl
        (fun p n => p ^^^ (if y.getLsbD n then (x &&& 0xFFFFFFFF#64) <<< n else 0)) 0))

/-- R117 to R119: FOLDK1 and FOLDK2 write one CRC step from accumulator 0 over the carry-less product
of the low 32 bits of RS1 with their constant. -/
def Obligations.FoldsComplete : Prop :=
  ∀ (s : State) (c : Context) (rd rs1 : RegId) (x : Word64),
    s.ctx? s.issuing = some c → c.reg rs1 = some x → Feat.hwAvailable s.feat = true →
    exec (.foldk1 rd rs1) s = .next (s.writeDest rd
      ((hwcrc8 0 (clmul (x.extractLsb' 0 32) 0xE417F38A#32)).zeroExtend 64)) ∧
    exec (.foldk2 rd rs1) s = .next (s.writeDest rd
      ((hwcrc8 0 (clmul (x.extractLsb' 0 32) 0x8F158014#32)).zeroExtend 64))

/-- R137, R138: XOR writes the 64-bit exclusive OR, INV the complement of bits [31:0]
zero-extended. -/
def Obligations.XorAndInvComplete : Prop :=
  ∀ (s : State) (c : Context) (rd rs1 rs2 : RegId) (x y : Word64),
    s.ctx? s.issuing = some c → c.reg rs1 = some x → c.reg rs2 = some y →
    exec (.xor rd rs1 rs2) s = .next (s.writeDest rd (x ^^^ y)) ∧
    exec (.inv rd rs1) s = .next (s.writeDest rd ((~~~(x.extractLsb' 0 32)).zeroExtend 64))

/-- R139 to R143: the little-endian loads write the bytes at the address in RS1, the byte at the
lowest address least significant, zero-extended, at any alignment. -/
def Obligations.LittleEndianLoadsComplete : Prop :=
  ∀ (s : State) (c : Context) (rd rs1 : RegId) (a : Word64)
    (b0 b1 b2 b3 b4 b5 b6 b7 : Byte),
    s.ctx? s.issuing = some c → c.reg rs1 = some a →
    s.readByte a.toNat = some b0 →
    exec (.ldleB rd rs1) s = .next (s.writeDest rd (b0.zeroExtend 64)) ∧
    (s.readByte (a.toNat + 1) = some b1 →
      exec (.ldleH rd rs1) s = .next (s.writeDest rd ((b1 ++ b0).zeroExtend 64)) ∧
      (s.readByte (a.toNat + 2) = some b2 → s.readByte (a.toNat + 3) = some b3 →
        exec (.ldleW rd rs1) s = .next (s.writeDest rd ((b3 ++ b2 ++ b1 ++ b0).zeroExtend 64)) ∧
        (s.readByte (a.toNat + 4) = some b4 → s.readByte (a.toNat + 5) = some b5 →
          s.readByte (a.toNat + 6) = some b6 → s.readByte (a.toNat + 7) = some b7 →
          exec (.ldleX rd rs1) s =
            .next (s.writeDest rd (b7 ++ b6 ++ b5 ++ b4 ++ b3 ++ b2 ++ b1 ++ b0)))))

/-- R139, R144 to R147: the big-endian loads, the byte at the lowest address most significant. -/
def Obligations.BigEndianLoadsComplete : Prop :=
  ∀ (s : State) (c : Context) (rd rs1 : RegId) (a : Word64)
    (b0 b1 b2 b3 b4 b5 b6 b7 : Byte),
    s.ctx? s.issuing = some c → c.reg rs1 = some a →
    s.readByte a.toNat = some b0 →
    exec (.ldbeB rd rs1) s = .next (s.writeDest rd (b0.zeroExtend 64)) ∧
    (s.readByte (a.toNat + 1) = some b1 →
      exec (.ldbeH rd rs1) s = .next (s.writeDest rd ((b0 ++ b1).zeroExtend 64)) ∧
      (s.readByte (a.toNat + 2) = some b2 → s.readByte (a.toNat + 3) = some b3 →
        exec (.ldbeW rd rs1) s = .next (s.writeDest rd ((b0 ++ b1 ++ b2 ++ b3).zeroExtend 64)) ∧
        (s.readByte (a.toNat + 4) = some b4 → s.readByte (a.toNat + 5) = some b5 →
          s.readByte (a.toNat + 6) = some b6 → s.readByte (a.toNat + 7) = some b7 →
          exec (.ldbeX rd rs1) s =
            .next (s.writeDest rd (b0 ++ b1 ++ b2 ++ b3 ++ b4 ++ b5 ++ b6 ++ b7)))))

/-- R108, R109: UPDATE.SWLE and UPDATE.SWBE build their table if it is not valid, and write the
software update over the bytes of the buffer; operands are read before the write. -/
def Obligations.SoftwareUpdatesComplete : Prop :=
  ∀ (s : State) (c : Context) (rd rs1 rs2 rs3 : RegId) (acc a len : Word64),
    s.ctx? s.issuing = some c → c.reg rs1 = some acc → c.reg rs2 = some a →
    c.reg rs3 = some len → InRange s a.toNat len.toNat → AllMapped s a.toNat len.toNat →
    (Feat.hasSwLE s.feat = true → s.tableLegal .le → exec (.updateSWLE rd rs1 rs2 rs3) s =
      .next (State.writeDest { s with tableLE := some builtTable, tvalidLE := true } rd
        ((swUpdate .le builtTable s.byteAt (acc.extractLsb' 0 32) a.toNat
          len.toNat).zeroExtend 64))) ∧
    (Feat.hasSwBE s.feat = true → s.tableLegal .be → exec (.updateSWBE rd rs1 rs2 rs3) s =
      .next (State.writeDest { s with tableBE := some builtTable, tvalidBE := true } rd
        ((swUpdate .be builtTable s.byteAt (acc.extractLsb' 0 32) a.toNat
          len.toNat).zeroExtend 64)))

/-- R127: UPDATE.HW writes the hardware update over the bytes of the buffer and touches no table. -/
def Obligations.HardwareUpdateCompletes : Prop :=
  ∀ (s : State) (c : Context) (rd rs1 rs2 rs3 : RegId) (acc a len : Word64),
    s.ctx? s.issuing = some c → c.reg rs1 = some acc → c.reg rs2 = some a →
    c.reg rs3 = some len → InRange s a.toNat len.toNat → AllMapped s a.toNat len.toNat →
    Feat.hwAvailable s.feat = true →
    exec (.updateHW rd rs1 rs2 rs3) s = .next (s.writeDest rd
      ((hwUpdate s.byteAt (acc.extractLsb' 0 32) a.toNat len.toNat).zeroExtend 64))

/-- R136: the dispatched UPDATE completes wherever an engine is bound, with the checksum of R18
whichever engine that is, and with the table of that engine built. -/
def Obligations.DispatchedUpdateCompletes : Prop :=
  ∀ (s : State) (c : Context) (rd rs1 rs2 rs3 : RegId) (acc a len : Word64),
    s.Inv → s.ctx? s.issuing = some c → c.reg rs1 = some acc → c.reg rs2 = some a →
    c.reg rs3 = some len → InRange s a.toNat len.toNat → AllMapped s a.toNat len.toNat →
    Engsel.bind s.engsel ≠ .none →
    exec (.update rd rs1 rs2 rs3) s = .next (State.writeDest
      (match Engsel.bind s.engsel with
        | .swLE => { s with tableLE := some builtTable, tvalidLE := true }
        | .swBE => { s with tableBE := some builtTable, tvalidBE := true }
        | _ => s)
      rd ((crc32c (acc.extractLsb' 0 32) (memRead s.byteAt a.toNat len.toNat)).zeroExtend 64))

/-! ## Laws of the checksum -/

/-- R21: the raw CRC is linear over sequences of equal length, and so splits into the part of the
start value and the part of the bytes. -/
def Obligations.RawCrcIsLinear : Prop :=
  ∀ (c1 c2 : Word32) (bs1 bs2 : List Byte), bs1.length = bs2.length →
    crcraw (c1 ^^^ c2) (List.zipWith (· ^^^ ·) bs1 bs2) = crcraw c1 bs1 ^^^ crcraw c2 bs2 ∧
    crcraw c1 bs1 = crcraw c1 (List.replicate bs1.length 0) ^^^ crcraw 0 bs1

/-- R22: checksumming one sequence after another gives the checksum of their concatenation. -/
def Obligations.ChecksumOfConcatenation : Prop :=
  ∀ A B : List Byte, crc32c (crc32c 0 A) B = crc32c 0 (A ++ B)

/-- R88, R89: the entries of a built table. -/
def Obligations.BuiltTableFollowsItsRecurrence : Prop :=
  (∀ n : BitVec 8, entry builtTable 0 n = crcbit8 (n.zeroExtend 32)) ∧
  ∀ (k : BitVec 3) (n : BitVec 8), k ≠ 0 →
    entry builtTable k n =
      entry builtTable 0 ((entry builtTable (k - 1) n).extractLsb' 0 8) ^^^
        (entry builtTable (k - 1) n >>> 8)

/-- R96: the laws of a built table. -/
def Obligations.BuiltTableLaws : Prop :=
  ∀ (k : BitVec 3) (n a b : BitVec 8),
    entry builtTable k n = crcraw (n.zeroExtend 32) (List.replicate (k.toNat + 1) 0) ∧
    entry builtTable 0 n = crcraw 0 [n] ∧ crcraw 0 [n] = crcbyte 0 n ∧
    entry builtTable k 0 = 0 ∧
    entry builtTable k (a ^^^ b) = entry builtTable k a ^^^ entry builtTable k b

/-- R97 to R99: over a built table the byte step is the byte step of the raw CRC, and the slice step
of either variant is the raw CRC over the 8 bytes of the word it assembles. -/
def Obligations.SliceStepsAreEightByteSteps : Prop :=
  ∀ (c : Word32) (b : Byte) (bs : List Byte), bs.length = 8 →
    swbyte builtTable c b = crcbyte c b ∧
    sliceLE builtTable c (LE bs) = crcraw c bs ∧
    sliceBE builtTable c (BE bs) = crcraw c bs

/-- R105 to R107, R192: what each phase of the software update consumes, and that each loop ends
because its condition fails. -/
def Obligations.SoftwarePhasesConsumeTheirBytes : Prop :=
  ∀ (v : Variant) (T : Table) (mem : Nat → Byte) (w : Work),
    (let k := min w.rem ((8 - w.p % 8) % 8)
     (swAlign T mem w).p = w.p + k ∧ (swAlign T mem w).rem = w.rem - k ∧
     ((swAlign T mem w).rem = 0 ∨ (swAlign T mem w).p % 8 = 0)) ∧
    ((swBulk v T mem w).p = w.p + 8 * (w.rem / 8) ∧ (swBulk v T mem w).rem = w.rem % 8) ∧
    ((swTail T mem w).p = w.p + w.rem ∧ (swTail T mem w).rem = 0)

/-- R125, R126, R192: what the block loop and the tail of the hardware update consume. -/
def Obligations.HardwareLoopsConsumeTheirBytes : Prop :=
  ∀ (mem : Nat → Byte) (w : Work),
    ((hwBlocks mem w).p = w.p + 1024 * (w.rem / 1024) ∧
      (hwBlocks mem w).rem = w.rem % 1024) ∧
    ((hwTail8 mem w).p = w.p + 8 * (w.rem / 8) ∧ (hwTail8 mem w).rem = w.rem % 8) ∧
    ((hwTail mem w).p = w.p + w.rem ∧ (hwTail mem w).rem = 0)

/-- R61: an update depends on no byte outside its range. -/
def Obligations.UpdatesReadOnlyTheirRange : Prop :=
  ∀ (v : Variant) (T : Table) (mem mem' : Nat → Byte) (acc : Word32) (a len : Nat),
    (∀ x, a ≤ x → x < a + len → mem x = mem' x) →
    swUpdate v T mem acc a len = swUpdate v T mem' acc a len ∧
    hwUpdate mem acc a len = hwUpdate mem' acc a len

/-- R110: the software update of either variant is the reference checksum of the bytes of the range;
it does not depend on their alignment, returns the accumulator for an empty range, and threads. -/
def Obligations.SoftwareUpdateIsTheChecksum : Prop :=
  ∀ (v : Variant) (mem : Nat → Byte) (acc : Word32) (a len : Nat),
    swUpdate v builtTable mem acc a len = crc32c acc (memRead mem a len) ∧
    (∀ (mem' : Nat → Byte) (a' : Nat), memRead mem' a' len = memRead mem a len →
      swUpdate v builtTable mem' acc a' len = swUpdate v builtTable mem acc a len) ∧
    swUpdate v builtTable mem acc a 0 = acc ∧
    ∀ m n, swUpdate v builtTable mem (swUpdate v builtTable mem 0 a m) (a + m) n =
      swUpdate v builtTable mem 0 a (m + n)

/-- R120: folding by K1 advances a lane accumulator past 680 zero bytes, by K2 past 344. -/
def Obligations.FoldsAdvancePastZeroBytes : Prop :=
  ∀ c : Word32,
    foldk c K1 = crcraw c (List.replicate 680 0) ∧ foldk c K2 = crcraw c (List.replicate 344 0)

/-- R125: the block algorithm computes the raw CRC of the block's 1024 bytes. -/
def Obligations.BlockIsTheRawCrcOfItsBytes : Prop :=
  ∀ (mem : Nat → Byte) (c : Word32) (b : Nat), hwBlock mem c b = crcraw c (memRead mem b 1024)

/-- R128: the hardware update is the reference checksum of the bytes of the range, equals the
software update of either variant, and equals the tail over the whole input with no block. -/
def Obligations.HardwareUpdateIsTheChecksum : Prop :=
  ∀ (mem : Nat → Byte) (acc : Word32) (a len : Nat),
    hwUpdate mem acc a len = crc32c acc (memRead mem a len) ∧
    (∀ v, hwUpdate mem acc a len = swUpdate v builtTable mem acc a len) ∧
    hwUpdate mem acc a len = ~~~(hwTail mem ⟨~~~acc, a, len⟩).c

/-- R135: every available update engine writes the same value for the same accumulator and bytes. -/
def Obligations.EnginesAreSubstitutable : Prop :=
  ∀ (s : State) (c : Context) (rd rs1 rs2 rs3 : RegId) (acc a len : Word64) (i : Instr),
    s.Inv → s.ctx? s.issuing = some c → c.reg rs1 = some acc → c.reg rs2 = some a →
    c.reg rs3 = some len → InRange s a.toNat len.toNat → AllMapped s a.toNat len.toNat →
    i ∈ [Instr.update rd rs1 rs2 rs3, Instr.updateSWLE rd rs1 rs2 rs3,
      Instr.updateSWBE rd rs1 rs2 rs3, Instr.updateHW rd rs1 rs2 rs3] → EngineReady i s →
    ∃ t, exec i s = .next t ∧
      t.ctx? s.issuing = some (c.setReg rd
        ((crc32c (acc.extractLsb' 0 32) (memRead s.byteAt a.toNat len.toNat)).zeroExtend 64))

/-- R116, corner cases: zero, one, commutativity, and bit 63 of the product. -/
def Obligations.CarrylessProductLaws : Prop :=
  ∀ a b : Word32,
    clmul a b = clmul b a ∧ clmul 0 b = 0 ∧ clmul 1 b = b.zeroExtend 64 ∧
    (clmul a b).getLsbD 63 = false

/-- R129, R39: the selection, for every combination of features. -/
def Obligations.SelectionFollowsTheFeatures : Prop :=
  ∀ c : Config,
    let e := select (featOf c)
    (c.hasHW = true ∧ c.fCrc = true ∧ c.fClmul = true → e = 0x00000003#32) ∧
    (¬(c.hasHW = true ∧ c.fCrc = true ∧ c.fClmul = true) →
      (c.hostBE = false ∧ c.hasSwLE = true → e = 0x00000001#32) ∧
      (c.hostBE = true ∧ c.hasSwBE = true → e = 0x00000002#32) ∧
      (¬(c.hostBE = false ∧ c.hasSwLE = true) → ¬(c.hostBE = true ∧ c.hasSwBE = true) →
        e = 0x80000000#32))

/-! ## Assembler -/

/-- R86: the pseudo-instructions assemble to their expansions, for every register. -/
def Obligations.PseudoInstructionsExpand : Prop :=
  assembleLine "nop".toList = .command (.xor 0 0 0) ∧
  ∀ rd rs : RegId, ∀ nd ∈ regNames[rd.val]?, ∀ ns ∈ regNames[rs.val]?,
    assembleLine ("zero ".toList ++ nd) = .command (.xor rd 0 0) ∧
    assembleLine ("ones32 ".toList ++ nd) = .command (.inv rd 0) ∧
    assembleLine ("mv ".toList ++ nd ++ ", ".toList ++ ns) = .command (.xor rd rs 0) ∧
    ∀ rl : RegId, ∀ nl ∈ regNames[rl.val]?,
      assembleLine ("crc ".toList ++ nd ++ ", ".toList ++ ns ++ ", ".toList ++ nl) =
        .command (.update rd 0 rs rl)
end

