-- ==== Sys2Proof/Laws/State.lean ====
section
/-! SUPPORT. One lemma per field per state update, each true by `rfl`, so that no later proof
unfolds a record update. -/

namespace Sys2Proof.Laws

open Sys2Proof.Machine

/-! `writeDest` -/

section
variable (s : State) (rd : RegId) (v : Word64)

@[simp] theorem writeDest_cfg : (s.writeDest rd v).cfg = s.cfg := rfl
@[simp] theorem writeDest_contexts : (s.writeDest rd v).contexts = s.contexts.modify s.issuing (·.setReg rd v) := rfl
@[simp] theorem writeDest_feat : (s.writeDest rd v).feat = s.feat := rfl
@[simp] theorem writeDest_engsel : (s.writeDest rd v).engsel = s.engsel := rfl
@[simp] theorem writeDest_tableLE : (s.writeDest rd v).tableLE = s.tableLE := rfl
@[simp] theorem writeDest_tableBE : (s.writeDest rd v).tableBE = s.tableBE := rfl
@[simp] theorem writeDest_tvalidLE : (s.writeDest rd v).tvalidLE = s.tvalidLE := rfl
@[simp] theorem writeDest_tvalidBE : (s.writeDest rd v).tvalidBE = s.tvalidBE := rfl
@[simp] theorem writeDest_mem : (s.writeDest rd v).mem = s.mem := rfl
@[simp] theorem writeDest_pending : (s.writeDest rd v).pending = s.pending := rfl
@[simp] theorem writeDest_observed : (s.writeDest rd v).observed = s.observed := rfl
@[simp] theorem writeDest_issuing : (s.writeDest rd v).issuing = s.issuing := rfl
@[simp] theorem writeDest_byteAt : (s.writeDest rd v).byteAt = s.byteAt := rfl
@[simp] theorem writeDest_readByte : (s.writeDest rd v).readByte = s.readByte := rfl
@[simp] theorem writeDest_mapped : (s.writeDest rd v).mapped = s.mapped := rfl
@[simp] theorem writeDest_tvalid : (s.writeDest rd v).tvalid = s.tvalid := rfl
@[simp] theorem writeDest_table : (s.writeDest rd v).table = s.table := rfl

end

/-! `faultEntry` -/

section
variable (s : State) (i : Nat) (w : Word32) (k : Cause) (f : Word64)

@[simp] theorem faultEntry_cfg : (s.faultEntry i w k f).cfg = s.cfg := rfl
@[simp] theorem faultEntry_contexts : (s.faultEntry i w k f).contexts = s.contexts.modify i fun c =>
      { c with status := Status.ofCause k, fcmd := w, faddr := f } := rfl
@[simp] theorem faultEntry_feat : (s.faultEntry i w k f).feat = s.feat := rfl
@[simp] theorem faultEntry_engsel : (s.faultEntry i w k f).engsel = s.engsel := rfl
@[simp] theorem faultEntry_tableLE : (s.faultEntry i w k f).tableLE = s.tableLE := rfl
@[simp] theorem faultEntry_tableBE : (s.faultEntry i w k f).tableBE = s.tableBE := rfl
@[simp] theorem faultEntry_tvalidLE : (s.faultEntry i w k f).tvalidLE = s.tvalidLE := rfl
@[simp] theorem faultEntry_tvalidBE : (s.faultEntry i w k f).tvalidBE = s.tvalidBE := rfl
@[simp] theorem faultEntry_mem : (s.faultEntry i w k f).mem = s.mem := rfl
@[simp] theorem faultEntry_pending : (s.faultEntry i w k f).pending = s.pending := rfl
@[simp] theorem faultEntry_observed : (s.faultEntry i w k f).observed = s.observed := rfl
@[simp] theorem faultEntry_issuing : (s.faultEntry i w k f).issuing = s.issuing := rfl
@[simp] theorem faultEntry_byteAt : (s.faultEntry i w k f).byteAt = s.byteAt := rfl
@[simp] theorem faultEntry_readByte : (s.faultEntry i w k f).readByte = s.readByte := rfl
@[simp] theorem faultEntry_mapped : (s.faultEntry i w k f).mapped = s.mapped := rfl
@[simp] theorem faultEntry_tvalid : (s.faultEntry i w k f).tvalid = s.tvalid := rfl
@[simp] theorem faultEntry_table : (s.faultEntry i w k f).table = s.table := rfl

end

/-! `setCtx` -/

section
variable (s : State) (i : Nat) (c : Context)

@[simp] theorem setCtx_cfg : (s.setCtx i c).cfg = s.cfg := rfl
@[simp] theorem setCtx_contexts : (s.setCtx i c).contexts = s.contexts.set i c := rfl
@[simp] theorem setCtx_feat : (s.setCtx i c).feat = s.feat := rfl
@[simp] theorem setCtx_engsel : (s.setCtx i c).engsel = s.engsel := rfl
@[simp] theorem setCtx_tableLE : (s.setCtx i c).tableLE = s.tableLE := rfl
@[simp] theorem setCtx_tableBE : (s.setCtx i c).tableBE = s.tableBE := rfl
@[simp] theorem setCtx_tvalidLE : (s.setCtx i c).tvalidLE = s.tvalidLE := rfl
@[simp] theorem setCtx_tvalidBE : (s.setCtx i c).tvalidBE = s.tvalidBE := rfl
@[simp] theorem setCtx_mem : (s.setCtx i c).mem = s.mem := rfl
@[simp] theorem setCtx_pending : (s.setCtx i c).pending = s.pending := rfl
@[simp] theorem setCtx_observed : (s.setCtx i c).observed = s.observed := rfl
@[simp] theorem setCtx_issuing : (s.setCtx i c).issuing = s.issuing := rfl
@[simp] theorem setCtx_byteAt : (s.setCtx i c).byteAt = s.byteAt := rfl
@[simp] theorem setCtx_readByte : (s.setCtx i c).readByte = s.readByte := rfl
@[simp] theorem setCtx_mapped : (s.setCtx i c).mapped = s.mapped := rfl
@[simp] theorem setCtx_tvalid : (s.setCtx i c).tvalid = s.tvalid := rfl
@[simp] theorem setCtx_table : (s.setCtx i c).table = s.table := rfl

end

/-! `writeByte` -/

section
variable (s : State) (a : Nat) (b : Byte)

@[simp] theorem writeByte_cfg : (s.writeByte a b).cfg = s.cfg := rfl
@[simp] theorem writeByte_contexts : (s.writeByte a b).contexts = s.contexts := rfl
@[simp] theorem writeByte_feat : (s.writeByte a b).feat = s.feat := rfl
@[simp] theorem writeByte_engsel : (s.writeByte a b).engsel = s.engsel := rfl
@[simp] theorem writeByte_tableLE : (s.writeByte a b).tableLE = s.tableLE := rfl
@[simp] theorem writeByte_tableBE : (s.writeByte a b).tableBE = s.tableBE := rfl
@[simp] theorem writeByte_tvalidLE : (s.writeByte a b).tvalidLE = s.tvalidLE := rfl
@[simp] theorem writeByte_tvalidBE : (s.writeByte a b).tvalidBE = s.tvalidBE := rfl
@[simp] theorem writeByte_mem : (s.writeByte a b).mem = Memory.put s.cfg.fill s.mem a b := rfl
@[simp] theorem writeByte_pending : (s.writeByte a b).pending = s.pending := rfl
@[simp] theorem writeByte_observed : (s.writeByte a b).observed = s.observed := rfl
@[simp] theorem writeByte_issuing : (s.writeByte a b).issuing = s.issuing := rfl
@[simp] theorem writeByte_mapped : (s.writeByte a b).mapped = s.mapped := rfl
@[simp] theorem writeByte_tvalid : (s.writeByte a b).tvalid = s.tvalid := rfl
@[simp] theorem writeByte_table : (s.writeByte a b).table = s.table := rfl

end

/-! `observe` -/

section
variable (s : State) (o : Observation)

@[simp] theorem observe_cfg : (s.observe o).cfg = s.cfg := rfl
@[simp] theorem observe_contexts : (s.observe o).contexts = s.contexts := rfl
@[simp] theorem observe_feat : (s.observe o).feat = s.feat := rfl
@[simp] theorem observe_engsel : (s.observe o).engsel = s.engsel := rfl
@[simp] theorem observe_tableLE : (s.observe o).tableLE = s.tableLE := rfl
@[simp] theorem observe_tableBE : (s.observe o).tableBE = s.tableBE := rfl
@[simp] theorem observe_tvalidLE : (s.observe o).tvalidLE = s.tvalidLE := rfl
@[simp] theorem observe_tvalidBE : (s.observe o).tvalidBE = s.tvalidBE := rfl
@[simp] theorem observe_mem : (s.observe o).mem = s.mem := rfl
@[simp] theorem observe_pending : (s.observe o).pending = s.pending := rfl
@[simp] theorem observe_observed : (s.observe o).observed = s.observed ++ [o] := rfl
@[simp] theorem observe_issuing : (s.observe o).issuing = s.issuing := rfl
@[simp] theorem observe_byteAt : (s.observe o).byteAt = s.byteAt := rfl
@[simp] theorem observe_readByte : (s.observe o).readByte = s.readByte := rfl
@[simp] theorem observe_mapped : (s.observe o).mapped = s.mapped := rfl
@[simp] theorem observe_tvalid : (s.observe o).tvalid = s.tvalid := rfl
@[simp] theorem observe_table : (s.observe o).table = s.table := rfl

end

/-! `build` -/

section
variable (s : State) (v : Variant)

@[simp] theorem build_cfg : (s.build v).cfg = s.cfg := by cases v <;> rfl
@[simp] theorem build_contexts : (s.build v).contexts = s.contexts := by cases v <;> rfl
@[simp] theorem build_feat : (s.build v).feat = s.feat := by cases v <;> rfl
@[simp] theorem build_engsel : (s.build v).engsel = s.engsel := by cases v <;> rfl
@[simp] theorem build_mem : (s.build v).mem = s.mem := by cases v <;> rfl
@[simp] theorem build_pending : (s.build v).pending = s.pending := by cases v <;> rfl
@[simp] theorem build_observed : (s.build v).observed = s.observed := by cases v <;> rfl
@[simp] theorem build_issuing : (s.build v).issuing = s.issuing := by cases v <;> rfl
@[simp] theorem build_byteAt : (s.build v).byteAt = s.byteAt := by cases v <;> rfl
@[simp] theorem build_readByte : (s.build v).readByte = s.readByte := by cases v <;> rfl
@[simp] theorem build_mapped : (s.build v).mapped = s.mapped := by cases v <;> rfl
@[simp] theorem build_tvalid_same : (s.build v).tvalid v = true := by cases v <;> rfl
@[simp] theorem build_table_same : (s.build v).table v = some builtTable := by cases v <;> rfl
theorem build_tvalid_other {u : Variant} (h : u ≠ v) : (s.build v).tvalid u = s.tvalid u := by
  cases u <;> cases v <;> first | rfl | exact absurd rfl h
theorem build_table_other {u : Variant} (h : u ≠ v) : (s.build v).table u = s.table u := by
  cases u <;> cases v <;> first | rfl | exact absurd rfl h

end

/-! `ensureTable` -/

section
variable (s : State) (v : Variant)

@[simp] theorem ensureTable_cfg : (s.ensureTable v).cfg = s.cfg := by
  unfold State.ensureTable; split <;> simp
@[simp] theorem ensureTable_contexts : (s.ensureTable v).contexts = s.contexts := by
  unfold State.ensureTable; split <;> simp
@[simp] theorem ensureTable_feat : (s.ensureTable v).feat = s.feat := by
  unfold State.ensureTable; split <;> simp
@[simp] theorem ensureTable_engsel : (s.ensureTable v).engsel = s.engsel := by
  unfold State.ensureTable; split <;> simp
@[simp] theorem ensureTable_mem : (s.ensureTable v).mem = s.mem := by
  unfold State.ensureTable; split <;> simp
@[simp] theorem ensureTable_pending : (s.ensureTable v).pending = s.pending := by
  unfold State.ensureTable; split <;> simp
@[simp] theorem ensureTable_observed : (s.ensureTable v).observed = s.observed := by
  unfold State.ensureTable; split <;> simp
@[simp] theorem ensureTable_issuing : (s.ensureTable v).issuing = s.issuing := by
  unfold State.ensureTable; split <;> simp
@[simp] theorem ensureTable_byteAt : (s.ensureTable v).byteAt = s.byteAt := by
  unfold State.ensureTable; split <;> simp
@[simp] theorem ensureTable_readByte : (s.ensureTable v).readByte = s.readByte := by
  unfold State.ensureTable; split <;> simp
@[simp] theorem ensureTable_mapped : (s.ensureTable v).mapped = s.mapped := by
  unfold State.ensureTable; split <;> simp
@[simp] theorem ensureTable_tvalid_same : (s.ensureTable v).tvalid v = true := by
  unfold State.ensureTable; split <;> simp [*]
theorem ensureTable_of_valid (h : s.tvalid v = true) : s.ensureTable v = s := by
  simp [State.ensureTable, h]
theorem ensureTable_of_invalid (h : s.tvalid v = false) : s.ensureTable v = s.build v := by
  simp [State.ensureTable, h]

end

/-! `resetEngine` -/

section
variable (s : State)

@[simp] theorem resetEngine_cfg : s.resetEngine.cfg = s.cfg := rfl
@[simp] theorem resetEngine_contexts : s.resetEngine.contexts = List.replicate s.cfg.nctx Context.reset := rfl
@[simp] theorem resetEngine_feat : s.resetEngine.feat = featOf s.cfg := rfl
@[simp] theorem resetEngine_engsel : s.resetEngine.engsel = select (featOf s.cfg) := rfl
@[simp] theorem resetEngine_tableLE : s.resetEngine.tableLE = none := rfl
@[simp] theorem resetEngine_tableBE : s.resetEngine.tableBE = none := rfl
@[simp] theorem resetEngine_tvalidLE : s.resetEngine.tvalidLE = false := rfl
@[simp] theorem resetEngine_tvalidBE : s.resetEngine.tvalidBE = false := rfl
@[simp] theorem resetEngine_mem : s.resetEngine.mem = s.mem := rfl
@[simp] theorem resetEngine_pending : s.resetEngine.pending = s.pending := rfl
@[simp] theorem resetEngine_observed : s.resetEngine.observed = s.observed := rfl
@[simp] theorem resetEngine_issuing : s.resetEngine.issuing = s.issuing := rfl
@[simp] theorem resetEngine_mapped : s.resetEngine.mapped = s.mapped := rfl
@[simp] theorem resetEngine_readByte : s.resetEngine.readByte = s.readByte := rfl
@[simp] theorem resetEngine_tvalid (v : Variant) : s.resetEngine.tvalid v = false := by
  cases v <;> rfl
@[simp] theorem resetEngine_table (v : Variant) : s.resetEngine.table v = none := by
  cases v <;> rfl

end

/-! Taking an operation from the queue, and naming the issuing context. -/

section
variable (s : State) (rest : List HostOp) (i : Nat)

@[simp] theorem pending_mapped : State.mapped { s with pending := rest } = s.mapped := rfl
@[simp] theorem pending_byteAt : State.byteAt { s with pending := rest } = s.byteAt := rfl
@[simp] theorem pending_readByte : State.readByte { s with pending := rest } = s.readByte := rfl
@[simp] theorem pending_tvalid : State.tvalid { s with pending := rest } = s.tvalid := rfl
@[simp] theorem pending_table : State.table { s with pending := rest } = s.table := rfl
@[simp] theorem pending_ctx? : State.ctx? { s with pending := rest } i = s.ctx? i := rfl
@[simp] theorem issuing_mapped : State.mapped { s with issuing := i } = s.mapped := rfl
@[simp] theorem issuing_byteAt : State.byteAt { s with issuing := i } = s.byteAt := rfl
@[simp] theorem issuing_readByte : State.readByte { s with issuing := i } = s.readByte := rfl
@[simp] theorem issuing_tvalid : State.tvalid { s with issuing := i } = s.tvalid := rfl
@[simp] theorem issuing_table : State.table { s with issuing := i } = s.table := rfl
@[simp] theorem issuing_ctx? (j : Nat) : State.ctx? { s with issuing := i } j = s.ctx? j := rfl

@[simp] theorem issued_mapped :
    State.mapped { s with pending := rest, issuing := i } = s.mapped := rfl
@[simp] theorem issued_byteAt :
    State.byteAt { s with pending := rest, issuing := i } = s.byteAt := rfl
@[simp] theorem issued_readByte :
    State.readByte { s with pending := rest, issuing := i } = s.readByte := rfl
@[simp] theorem issued_tvalid :
    State.tvalid { s with pending := rest, issuing := i } = s.tvalid := rfl
@[simp] theorem issued_table :
    State.table { s with pending := rest, issuing := i } = s.table := rfl
@[simp] theorem issued_ctx? (j : Nat) :
    State.ctx? { s with pending := rest, issuing := i } j = s.ctx? j := rfl

end

end Sys2Proof.Laws
end

