-- ==== Sys2Proof/Laws/Memory.lean ====
section
/-! SUPPORT. The laws of buffer memory: read after write, the canonical form, and the reads of a
byte range. -/

namespace Sys2Proof.Laws

open Sys2Proof.Machine

/-! ## The list of cells -/

/-- An address below every listed one is not listed. -/
theorem get_none_of_lt {m : List Host.Cell} {a : Nat} (h : ∀ c ∈ m, a < c.1) :
    Memory.get m a = none := by
  induction m with
  | nil => rfl
  | cons c m ih =>
    have h0 : a ≠ c.1 := by have := h c (by simp); omega
    simp only [Memory.get, h0, if_false]
    exact ih fun x hx => h x (by simp [hx])

/-- What well-formedness says of a listed cell and the rest. -/
theorem wf_cons {fill : Byte} {k : Nat} {v : Byte} {m : List Host.Cell} :
    Memory.wf fill ((k, v) :: m) = true ↔
      v ≠ fill ∧ (∀ c ∈ m, k < c.1) ∧ Memory.wf fill m = true := by
  simp [Memory.wf, and_assoc]

/-- Read after write of the same address: the byte written, or what an unlisted address reads as. -/
theorem get_put_same {fill : Byte} {m : List Host.Cell} (h : Memory.wf fill m = true)
    (a : Nat) (b : Byte) : (Memory.get (Memory.put fill m a b) a).getD fill = b := by
  induction m with
  | nil => by_cases hb : b = fill <;> simp [Memory.put, Memory.get, hb]
  | cons c m ih =>
    obtain ⟨k, v⟩ := c
    obtain ⟨-, hlt, hm⟩ := wf_cons.mp h
    unfold Memory.put
    by_cases h1 : a < k
    · by_cases hb : b = fill
      · have : Memory.get m a = none :=
          get_none_of_lt fun c hc => Nat.lt_trans h1 (hlt c hc)
        simp [h1, hb, Memory.get, this, Nat.ne_of_lt h1]
      · simp [h1, hb, Memory.get]
    · by_cases h2 : a = k
      · subst h2
        by_cases hb : b = fill
        · simp [hb, get_none_of_lt hlt]
        · simp [hb, Memory.get]
      · simpa [h1, h2, Memory.get] using ih hm

/-- A write leaves every other address alone. -/
theorem get_put_other (fill : Byte) (m : List Host.Cell) {a x : Nat} (b : Byte) (h : x ≠ a) :
    Memory.get (Memory.put fill m a b) x = Memory.get m x := by
  induction m with
  | nil => by_cases hb : b = fill <;> simp [Memory.put, Memory.get, hb, h]
  | cons c m ih =>
    obtain ⟨k, v⟩ := c
    unfold Memory.put
    by_cases h1 : a < k
    · by_cases hb : b = fill <;> simp [h1, hb, Memory.get, h]
    · by_cases h2 : a = k
      · subst h2
        by_cases hb : b = fill <;> simp [hb, Memory.get, h]
      · simp only [h1, h2, if_false, Memory.get, ih]

/-- The addresses listed after a write are those listed before and the one written. -/
theorem mem_put {fill : Byte} {m : List Host.Cell} {a : Nat} {b : Byte} {c : Host.Cell}
    (h : c ∈ Memory.put fill m a b) : c.1 = a ∨ c ∈ m := by
  induction m with
  | nil =>
    by_cases hb : b = fill <;> simp_all [Memory.put]
  | cons d m ih =>
    obtain ⟨k, v⟩ := d
    unfold Memory.put at h
    split at h
    · split at h
      · exact .inr h
      · rcases List.mem_cons.mp h with rfl | h
        · exact .inl rfl
        · exact .inr h
    · split at h
      · split at h
        · exact .inr (by simp [h])
        · rcases List.mem_cons.mp h with rfl | h
          · exact .inl rfl
          · exact .inr (by simp [h])
      · rcases List.mem_cons.mp h with rfl | h
        · exact .inr (by simp)
        · exact (ih h).imp id fun h => by simp [h]

/-- A write keeps the canonical form. -/
theorem wf_put {fill : Byte} {m : List Host.Cell} (h : Memory.wf fill m = true) (a : Nat)
    (b : Byte) : Memory.wf fill (Memory.put fill m a b) = true := by
  induction m with
  | nil => by_cases hb : b = fill <;> simp [Memory.put, Memory.wf, hb]
  | cons c m ih =>
    obtain ⟨k, v⟩ := c
    obtain ⟨hv, hlt, hm⟩ := wf_cons.mp h
    unfold Memory.put
    by_cases h1 : a < k
    · by_cases hb : b = fill
      · simpa [h1, hb] using h
      · simp only [h1, hb, if_true, if_false]
        refine wf_cons.mpr ⟨hb, ?_, h⟩
        intro c hc
        rcases List.mem_cons.mp hc with rfl | hc
        · exact h1
        · exact Nat.lt_trans h1 (hlt c hc)
    · by_cases h2 : a = k
      · subst h2
        by_cases hb : b = fill
        · simpa [hb] using hm
        · simpa [hb] using wf_cons.mpr ⟨hb, hlt, hm⟩
      · simp only [h1, h2, if_false]
        refine wf_cons.mpr ⟨hv, ?_, ih hm⟩
        intro c hc
        rcases mem_put hc with rfl | hc
        · omega
        · exact hlt c hc

/-- Memory of the reset state is in canonical form. -/
theorem reset_mem_wf : Memory.wf State.reset.cfg.fill State.reset.mem = true := rfl

/-! ## The memory of a state -/

/-- The byte written reads back. -/
theorem byteAt_writeByte_same {s : State} (h : Memory.wf s.cfg.fill s.mem = true) (a : Nat)
    (b : Byte) : (s.writeByte a b).byteAt a = b := by
  simpa [State.byteAt] using get_put_same h a b

/-- Every other byte reads as before. -/
theorem byteAt_writeByte_other (s : State) {a x : Nat} (b : Byte) (h : x ≠ a) :
    (s.writeByte a b).byteAt x = s.byteAt x := by
  simp [State.byteAt, get_put_other _ _ _ h]

/-- An unlisted address reads as `unlisted` says. -/
theorem readByte_of_unlisted {s : State} {a : Nat} (h : Memory.get s.mem a = none) :
    s.readByte a = s.unlisted a := by
  simp [State.readByte, State.unlisted, State.byteAt, h]

/-! ## Byte ranges -/

@[simp] theorem memRead_length (mem : Nat → Byte) (a n : Nat) : (memRead mem a n).length = n := by
  induction n generalizing a with
  | zero => rfl
  | succ n ih => simp [memRead, ih]

/-- A range read in two parts. -/
theorem memRead_add (mem : Nat → Byte) (a m n : Nat) :
    memRead mem a (m + n) = memRead mem a m ++ memRead mem (a + m) n := by
  induction m generalizing a with
  | zero => simp [memRead]
  | succ m ih =>
    rw [Nat.succ_add]
    simp [memRead, ih, Nat.add_assoc, Nat.add_comm 1]

/-- A read depends on the bytes of its range alone. -/
theorem memRead_congr {mem mem' : Nat → Byte} {a n : Nat}
    (h : ∀ x, a ≤ x → x < a + n → mem x = mem' x) : memRead mem a n = memRead mem' a n := by
  induction n generalizing a with
  | zero => rfl
  | succ n ih =>
    simp only [memRead]
    rw [h a (by omega) (by omega), ih fun x h1 h2 => h x (by omega) (by omega)]

end Sys2Proof.Laws
end

