-- ==== Sys2Proof/Laws/Register.lean ====
section
/-! SUPPORT. The laws of the register accessors (10_state.md R27, R28) and of the list of
contexts. -/

namespace Sys2Proof.Laws

open Sys2Proof.Machine

/-! ## One context's registers -/

/-- R0 reads as 0 (R27). -/
@[simp] theorem reg_zero (c : Context) : c.reg 0 = some 0 := rfl

/-- A write of R0 is discarded (R27). -/
@[simp] theorem setReg_zero (c : Context) (v : Word64) : c.setReg 0 v = c := rfl

/-- A register other than R0 is one of the 15 stored ones. -/
theorem reg_of_ne_zero (c : Context) {r : RegId} (h : r ≠ 0) :
    c.reg r = c.regs[r.val - 1]'(by omega) := by
  have : r.val ≠ 0 := fun h' => h (Fin.ext h')
  simp [Context.reg, this]

/-- Read after write of the same register. -/
theorem reg_setReg_same (c : Context) {r : RegId} (v : Word64) (h : r ≠ 0) :
    (c.setReg r v).reg r = some v := by
  have : r.val ≠ 0 := fun h' => h (Fin.ext h')
  simp [Context.reg, Context.setReg, this]

/-- A write leaves every other register alone. -/
theorem reg_setReg_other (c : Context) {r q : RegId} (v : Word64) (h : q ≠ r) :
    (c.setReg r v).reg q = c.reg q := by
  have h' : q.val ≠ r.val := fun e => h (Fin.ext e)
  unfold Context.reg Context.setReg
  by_cases hq : q.val = 0 <;> by_cases hr : r.val = 0 <;> simp [hq, hr]
  rw [Vector.getElem_set_ne]
  omega

@[simp] theorem setReg_status (c : Context) (r : RegId) (v : Word64) :
    (c.setReg r v).status = c.status := by unfold Context.setReg; split <;> rfl
@[simp] theorem setReg_fcmd (c : Context) (r : RegId) (v : Word64) :
    (c.setReg r v).fcmd = c.fcmd := by unfold Context.setReg; split <;> rfl
@[simp] theorem setReg_faddr (c : Context) (r : RegId) (v : Word64) :
    (c.setReg r v).faddr = c.faddr := by unfold Context.setReg; split <;> rfl
@[simp] theorem setReg_faulted (c : Context) (r : RegId) (v : Word64) :
    (c.setReg r v).faulted = c.faulted := by simp [Context.faulted]
@[simp] theorem setReg_legal (cfg : Config) (c : Context) (r : RegId) (v : Word64) :
    (c.setReg r v).legal cfg = c.legal cfg := by simp [Context.legal]

/-- No register of a context holds a value after reset, but R0 (R177). -/
theorem reset_reg {r : RegId} (h : r ≠ 0) : Context.reset.reg r = none := by
  simp [reg_of_ne_zero _ h, Context.reset]

/-! ## The list of contexts -/

/-- The issuing context after a destination write. -/
theorem writeDest_ctx?_issuing {s : State} {c : Context} (h : s.ctx? s.issuing = some c)
    (rd : RegId) (v : Word64) : (s.writeDest rd v).ctx? s.issuing = some (c.setReg rd v) := by
  simp_all [State.ctx?, List.getElem?_modify_eq]

/-- Every other context after a destination write. -/
theorem writeDest_ctx?_other (s : State) (rd : RegId) (v : Word64) {j : Nat}
    (h : j ≠ s.issuing) : (s.writeDest rd v).ctx? j = s.ctx? j := by
  simp [State.ctx?, Ne.symm h]

/-- The faulting context after a fault entry. -/
theorem faultEntry_ctx?_same {s : State} {i : Nat} {c : Context} (h : s.ctx? i = some c)
    (w : Word32) (k : Cause) (f : Word64) :
    (s.faultEntry i w k f).ctx? i =
      some { c with status := Status.ofCause k, fcmd := w, faddr := f } := by
  simp_all [State.ctx?, List.getElem?_modify_eq]

/-- Every other context after a fault entry. -/
theorem faultEntry_ctx?_other (s : State) {i j : Nat} (w : Word32) (k : Cause) (f : Word64)
    (h : j ≠ i) : (s.faultEntry i w k f).ctx? j = s.ctx? j := by
  simp [State.ctx?, Ne.symm h]

/-- A replaced context. -/
theorem setCtx_ctx?_same {s : State} {i : Nat} {c : Context} (h : s.ctx? i = some c)
    (d : Context) : (s.setCtx i d).ctx? i = some d := by
  have := List.getElem?_eq_some_iff.mp h
  simp [State.ctx?, this.1]

/-- Every context but the replaced one. -/
theorem setCtx_ctx?_other (s : State) {i j : Nat} (d : Context) (h : j ≠ i) :
    (s.setCtx i d).ctx? j = s.ctx? j := by
  simp [State.ctx?, Ne.symm h]

/-- A context found is one of the contexts. -/
theorem mem_of_ctx? {s : State} {i : Nat} {c : Context} (h : s.ctx? i = some c) :
    c ∈ s.contexts := List.mem_of_getElem? h

/-! ## STATUS -/

/-- STATUS after a fault entry has FAULTED = 1 and CAUSE the code (R32, R158). -/
@[simp] theorem faulted_ofCause (k : Cause) : Status.faulted (Status.ofCause k) = true := by
  cases k <;> decide

/-- STATUS after reset is not faulted. -/
@[simp] theorem faulted_zero : Status.faulted 0 = false := by decide

end Sys2Proof.Laws
end

