-- ==== Sys2Proof/Laws/Command.lean ====
section
/-! SUPPORT. What the shared operations of the commands can do: one equation per outcome of each
check, and one inversion lemma for every command. -/

namespace Sys2Proof.Laws

open Sys2Proof.Machine

/-! ## The checks, outcome by outcome -/

section
variable {s t : State} {c : Context} {r : RegId} {v : Variant} {a : Word64} {n : Nat}

theorem source_of_value {x : Word64} (h : c.reg r = some x) (k : Word64 → Except Stop State) :
    source c r k = k x := by simp [source, h]

theorem source_of_none (h : c.reg r = none) (k : Word64 → Except Stop State) :
    source c r k = .error (.raised .undefOperand (BitVec.ofNat 64 r.val)) := by simp [source, h]

theorem requireEngine_of_available (k : Except Stop State) : requireEngine true k = k := rfl

theorem requireEngine_of_absent (k : Except Stop State) :
    requireEngine false k = .error (.raised .engineAbsent 0) := rfl

theorem requireTable_of_valid {T : Table} (h : s.tvalid v = true) (ht : s.table v = some T)
    (k : Table → Except Stop State) : requireTable s v k = k T := by
  simp [requireTable, tableOf, h, ht]

theorem requireTable_of_invalid (h : s.tvalid v = false) (k : Table → Except Stop State) :
    requireTable s v k = .error (.raised .tableInvalid 0) := by
  simp [requireTable, h]

theorem requireRange_of_outOfRange (h : s.outOfRange a.toNat n = true) (k : Except Stop State) :
    requireRange s a n k = .error (.raised .rangeFault a) := by simp [requireRange, h]

theorem requireRange_of_unmapped {u : Nat} (h : s.outOfRange a.toNat n = false)
    (hu : s.firstUnmapped a.toNat n = some u) (k : Except Stop State) :
    requireRange s a n k = .error (.raised .memFault (BitVec.ofNat 64 u)) := by
  simp [requireRange, h, hu]

theorem requireRange_of_readable (h : s.outOfRange a.toNat n = false)
    (hu : s.firstUnmapped a.toNat n = none) (k : Except Stop State) :
    requireRange s a n k = k := by simp [requireRange, h, hu]

/-- The table a software update uses, where the valid flags tell the truth. -/
theorem ensureTable_table (h : s.tableLegal v) : (s.ensureTable v).table v = some builtTable := by
  rcases h with ⟨hv, ht⟩ | ⟨hv, -⟩
  · rw [ensureTable_of_valid _ _ hv, ht]
  · rw [ensureTable_of_invalid _ _ hv]; simp

/-- A valid flag that tells the truth comes with the built table. -/
theorem table_of_valid (h : s.tableLegal v) (hv : s.tvalid v = true) :
    s.table v = some builtTable := by
  rcases h with ⟨-, ht⟩ | ⟨h0, -⟩
  · exact ht
  · simp [hv] at h0

/-- The first unmapped address lies in the range and is not mapped. -/
theorem firstUnmapped_spec {b u : Nat} (h : s.firstUnmapped b n = some u) :
    b ≤ u ∧ u < b + n ∧ s.mapped u = false := by
  induction n generalizing b with
  | zero => simp [State.firstUnmapped] at h
  | succ n ih =>
    unfold State.firstUnmapped at h
    split at h
    · obtain ⟨h1, h2, h3⟩ := ih h
      exact ⟨by omega, by omega, h3⟩
    · cases h; exact ⟨Nat.le_refl _, by omega, by simp_all⟩

end

/-! ## How a command ends -/

section
variable {s t : State} {i : Instr} {c : Context} {rule : Context → Except Stop State}

theorem command_of_ok (hc : s.ctx? s.issuing = some c) (h : rule c = .ok t) :
    command i s rule = .next t := by simp [command, hc, h]

theorem command_of_raised {k : Cause} {f : Word64} (hc : s.ctx? s.issuing = some c)
    (h : rule c = .error (.raised k f)) :
    command i s rule = .next (s.faultEntry s.issuing (encode i) k f) := by simp [command, hc, h]

theorem command_next (h : command i s rule = .next t) :
    ∃ c, s.ctx? s.issuing = some c ∧ (rule c = .ok t ∨
      ∃ k f, rule c = .error (.raised k f) ∧ t = s.faultEntry s.issuing (encode i) k f) := by
  unfold command at h
  split at h
  · cases h
  · next c hc =>
    refine ⟨c, hc, ?_⟩
    split at h
    · next h' => cases h; exact .inl h'
    · next k f h' => cases h; exact .inr ⟨k, f, h', rfl⟩
    · cases h

end

/-! ## What a rule can do -/

/-- The effect of a command that completes: a build, or one destination write, of a software update
after the table is made sure of. -/
inductive Done (s : State) : Option RegId → State → Prop
  | build (v : Variant) : Done s none (s.build v)
  | write (rd : RegId) (x : Word64) : Done s (some rd) (s.writeDest rd x)
  | update (rd : RegId) (x : Word64) (v : Variant) :
      Done s (some rd) ((s.ensureTable v).writeDest rd x)

/-- Everything a rule can answer: a completed effect, or a cause with what FADDR may record beside
it, or a stop. -/
def RuleLegal (s : State) (dest : Option RegId) : Except Stop State → Prop
  | .ok t => Done s dest t
  | .error (.raised k f) => s.cfg.wellFormed = true → infoLegal s.cfg k f = true
  | .error (.stuck _) => True

section
variable {s : State} {dest : Option RegId} {c : Context}

theorem source_legal {r : RegId} {k : Word64 → Except Stop State}
    (h : ∀ x, RuleLegal s dest (k x)) : RuleLegal s dest (source c r k) := by
  unfold source
  split
  · exact h _
  · next hr =>
    intro _
    have h0 : r ≠ 0 := by rintro rfl; simp at hr
    have : r.val ≠ 0 := fun h' => h0 (Fin.ext h')
    have := r.isLt
    simp only [infoLegal, BitVec.toNat_ofNat]
    rw [Nat.mod_eq_of_lt (by omega)]
    simp; omega

theorem requireEngine_legal {b : Bool} {k : Except Stop State} (h : RuleLegal s dest k) :
    RuleLegal s dest (requireEngine b k) := by
  cases b
  · intro _; rfl
  · exact h

theorem tableOf_legal {s' : State} {v : Variant} {k : Table → Except Stop State}
    (h : ∀ T, RuleLegal s dest (k T)) : RuleLegal s dest (tableOf s' v k) := by
  unfold tableOf
  split
  · exact h _
  · trivial

theorem requireTable_legal {v : Variant} {k : Table → Except Stop State}
    (h : ∀ T, RuleLegal s dest (k T)) : RuleLegal s dest (requireTable s v k) := by
  unfold requireTable
  split
  · exact tableOf_legal h
  · intro _; rfl

theorem requireRange_legal {a : Word64} {n : Nat} {k : Except Stop State}
    (h : RuleLegal s dest k) : RuleLegal s dest (requireRange s a n k) := by
  unfold requireRange
  split
  · intro _; rfl
  · next hr =>
    split
    · next u hu =>
      intro hw
      obtain ⟨h1, h2, h3⟩ := firstUnmapped_spec hu
      have hw : s.cfg.addrW ≤ 64 := by
        simp only [Config.wellFormed, Bool.and_eq_true, decide_eq_true_eq] at hw; omega
      have hp : 2 ^ s.cfg.addrW ≤ 2 ^ 64 := Nat.pow_le_pow_right (by omega) hw
      simp only [State.outOfRange, Bool.or_eq_true, decide_eq_true_eq, not_or, Nat.not_le,
        Nat.not_lt] at hr
      have hu' : (BitVec.ofNat 64 u).toNat = u := by
        rw [BitVec.toNat_ofNat]; exact Nat.mod_eq_of_lt (by omega)
      have h3 : Config.maps s.cfg u = false := h3
      simp only [infoLegal, hu', h3]
      simp; omega
    · exact h

theorem updateSWRule_legal (v : Variant) (rd rs1 rs2 rs3 : RegId) :
    RuleLegal s (some rd) (updateSWRule v rd rs1 rs2 rs3 s c) :=
  requireEngine_legal <| source_legal fun _ => source_legal fun _ => source_legal fun _ =>
    requireRange_legal <| tableOf_legal fun _ => Done.update _ _ _

theorem updateHWRule_legal (rd rs1 rs2 rs3 : RegId) :
    RuleLegal s (some rd) (updateHWRule rd rs1 rs2 rs3 s c) :=
  requireEngine_legal <| source_legal fun _ => source_legal fun _ => source_legal fun _ =>
    requireRange_legal <| Done.write _ _

theorem treadRule_legal (v : Variant) (rd rs1 : RegId) :
    RuleLegal s (some rd) (treadRule v rd rs1 s c) :=
  source_legal fun _ => requireTable_legal fun _ => Done.write _ _

theorem tstepRule_legal (v : Variant) (rd rs1 rs2 : RegId) :
    RuleLegal s (some rd) (tstepRule v rd rs1 rs2 s c) :=
  source_legal fun _ => source_legal fun _ => requireTable_legal fun _ => Done.write _ _

theorem tsliceRule_legal (v : Variant) (rd rs1 rs2 : RegId) :
    RuleLegal s (some rd) (tsliceRule v rd rs1 rs2 s c) :=
  source_legal fun _ => source_legal fun _ => requireTable_legal fun _ => Done.write _ _

theorem crcStepRule_legal (step : Word32 → Word64 → Word32) (rd rs1 rs2 : RegId) :
    RuleLegal s (some rd) (crcStepRule step rd rs1 rs2 s c) :=
  requireEngine_legal <| source_legal fun _ => source_legal fun _ => Done.write _ _

theorem foldRule_legal (k : Word32) (rd rs1 : RegId) :
    RuleLegal s (some rd) (foldRule k rd rs1 s c) :=
  requireEngine_legal <| source_legal fun _ => Done.write _ _

theorem loadRule_legal (order : List Byte → Word64) (n : Nat) (rd rs1 : RegId) :
    RuleLegal s (some rd) (loadRule order n rd rs1 s c) :=
  source_legal fun _ => requireRange_legal <| Done.write _ _

end

/-! ## Every command -/

/-- What a command whose rule is legal can do when it answers a next state. -/
theorem command_cases {i : Instr} {s t : State} {dest : Option RegId}
    {rule : Context → Except Stop State} (h : command i s rule = .next t)
    (hr : ∀ c, RuleLegal s dest (rule c)) :
    ∃ c, s.ctx? s.issuing = some c ∧ (Done s dest t ∨
      ∃ k f, (s.cfg.wellFormed = true → infoLegal s.cfg k f = true) ∧
        t = s.faultEntry s.issuing (encode i) k f) := by
  obtain ⟨c, hc, h' | ⟨k, f, h', rfl⟩⟩ := command_next h
  · have := hr c
    rw [h'] at this
    exact ⟨c, hc, .inl this⟩
  · have := hr c
    rw [h'] at this
    exact ⟨c, hc, .inr ⟨k, f, this, rfl⟩⟩

/-- Inversion of `exec`: a command that answers a next state completed its effect on the issuing
context's destination, or took a fault in the state before it. -/
theorem exec_cases {i : Instr} {s t : State} (h : exec i s = .next t) :
    ∃ c, s.ctx? s.issuing = some c ∧ (Done s i.dest t ∨
      ∃ k f, (s.cfg.wellFormed = true → infoLegal s.cfg k f = true) ∧
        t = s.faultEntry s.issuing (encode i) k f) := by
  cases i with
  | select rd =>
    exact command_cases (rule := fun _ => .ok (s.writeDest rd (zext64 s.engsel))) h
      fun _ => Done.write _ _
  | tbuildLE =>
    exact command_cases (rule := fun _ => .ok (s.build .le)) h fun _ => Done.build _
  | tbuildBE =>
    exact command_cases (rule := fun _ => .ok (s.build .be)) h fun _ => Done.build _
  | treadLE rd rs1 => exact command_cases h (fun _ => treadRule_legal _ _ _)
  | treadBE rd rs1 => exact command_cases h (fun _ => treadRule_legal _ _ _)
  | update rd rs1 rs2 rs3 =>
    refine command_cases h fun c => ?_
    split
    · intro _; rfl
    · exact updateSWRule_legal _ _ _ _ _
    · exact updateSWRule_legal _ _ _ _ _
    · exact updateHWRule_legal _ _ _ _
  | updateSWLE rd rs1 rs2 rs3 => exact command_cases h (fun _ => updateSWRule_legal _ _ _ _ _)
  | updateSWBE rd rs1 rs2 rs3 => exact command_cases h (fun _ => updateSWRule_legal _ _ _ _ _)
  | updateHW rd rs1 rs2 rs3 => exact command_cases h (fun _ => updateHWRule_legal _ _ _ _)
  | crc32cb rd rs1 rs2 => exact command_cases h (fun _ => crcStepRule_legal _ _ _ _)
  | crc32ch rd rs1 rs2 => exact command_cases h (fun _ => crcStepRule_legal _ _ _ _)
  | crc32cw rd rs1 rs2 => exact command_cases h (fun _ => crcStepRule_legal _ _ _ _)
  | crc32cx rd rs1 rs2 => exact command_cases h (fun _ => crcStepRule_legal _ _ _ _)
  | clmul rd rs1 rs2 =>
    exact command_cases h fun _ => requireEngine_legal <| source_legal fun _ =>
      source_legal fun _ => Done.write _ _
  | foldk1 rd rs1 => exact command_cases h (fun _ => foldRule_legal _ _ _)
  | foldk2 rd rs1 => exact command_cases h (fun _ => foldRule_legal _ _ _)
  | tstepLE rd rs1 rs2 => exact command_cases h (fun _ => tstepRule_legal _ _ _ _)
  | tstepBE rd rs1 rs2 => exact command_cases h (fun _ => tstepRule_legal _ _ _ _)
  | tsliceLE rd rs1 rs2 => exact command_cases h (fun _ => tsliceRule_legal _ _ _ _)
  | tsliceBE rd rs1 rs2 => exact command_cases h (fun _ => tsliceRule_legal _ _ _ _)
  | xor rd rs1 rs2 =>
    exact command_cases h (fun _ => source_legal fun _ => source_legal fun _ => Done.write _ _)
  | inv rd rs1 => exact command_cases h (fun _ => source_legal fun _ => Done.write _ _)
  | ldleB rd rs1 => exact command_cases h (fun _ => loadRule_legal _ _ _ _)
  | ldleH rd rs1 => exact command_cases h (fun _ => loadRule_legal _ _ _ _)
  | ldleW rd rs1 => exact command_cases h (fun _ => loadRule_legal _ _ _ _)
  | ldleX rd rs1 => exact command_cases h (fun _ => loadRule_legal _ _ _ _)
  | ldbeB rd rs1 => exact command_cases h (fun _ => loadRule_legal _ _ _ _)
  | ldbeH rd rs1 => exact command_cases h (fun _ => loadRule_legal _ _ _ _)
  | ldbeW rd rs1 => exact command_cases h (fun _ => loadRule_legal _ _ _ _)
  | ldbeX rd rs1 => exact command_cases h (fun _ => loadRule_legal _ _ _ _)

end Sys2Proof.Laws
end

