-- ==== Sys2Proof/Laws/Crc.lean ====
section
/-! SUPPORT. The laws of the CRC steps, of the built table, of the update loops and of the range
check. -/

namespace Sys2Proof.Laws

open Sys2Proof.Machine

/-! ## CRC steps -/

/-- The raw CRC of a sequence in two parts. -/
theorem crcraw_append (c : Word32) (a b : List Byte) :
    crcraw c (a ++ b) = crcraw (crcraw c a) b := by
  induction a generalizing c with
  | nil => rfl
  | cons x a ih => simp [crcraw, ih]

/-- One polynomial step is linear. -/
theorem crcbit_xor (a b : Word32) : crcbit (a ^^^ b) = crcbit a ^^^ crcbit b := by
  unfold crcbit
  simp only [BitVec.getLsbD_xor, BitVec.ushiftRight_xor_distrib]
  cases a.getLsbD 0 <;> cases b.getLsbD 0 <;> simp <;> ac_nf
  simp

/-- Eight polynomial steps are linear. -/
theorem crcbit8_xor (a b : Word32) : crcbit8 (a ^^^ b) = crcbit8 a ^^^ crcbit8 b := by
  simp only [crcbit8, crcbit_xor]

/-! ## The built table -/

/-- The values of a tabulated function. -/
@[simp] theorem tabulate_getElem {α : Type} {n : Nat} (f : Fin n → α) {i : Nat} (h : i < n) :
    (tabulate n f)[i] = f ⟨i, h⟩ := by
  simp [tabulate, Vector.getElem_mk]

/-- An entry of the built table is that of its row. -/
theorem entry_builtTable (k : BitVec 3) (n : BitVec 8) :
    entry builtTable k n = rowAt (buildRow k.toNat) n := by
  simp [entry, builtTable]

/-- Row 0 of the built table. -/
theorem rowAt_buildRow0 (n : BitVec 8) : rowAt (buildRow 0) n = crcbit8 (n.zeroExtend 32) := by
  simp [rowAt, buildRow, buildRow0]

/-- A later row of the built table, from row 0 and the row before. -/
theorem rowAt_buildRow_succ (k : Nat) (n : BitVec 8) :
    rowAt (buildRow (k + 1)) n =
      rowAt (buildRow 0) ((rowAt (buildRow k) n).extractLsb' 0 8) ^^^
        (rowAt (buildRow k) n >>> 8) := by
  simp [rowAt, buildRow, buildNext]

/-! ## Loops -/

/-- A loop whose condition fails leaves the working registers alone. -/
theorem whileLoop_of_done {cond : Work → Bool} {body : Work → Work} {fuel : Nat} {w : Work}
    (h : cond w = false) : whileLoop cond body fuel w = w := by
  cases fuel <;> simp [whileLoop, h]

/-- A loop whose condition holds runs its body and goes on. -/
theorem whileLoop_of_more {cond : Work → Bool} {body : Work → Work} {fuel : Nat} {w : Work}
    (h : cond w = true) : whileLoop cond body (fuel + 1) w = whileLoop cond body fuel (body w) := by
  simp [whileLoop, h]

/-- With a body that decreases rem where the condition holds, fuel of rem is enough: the loop ends
because its condition fails. -/
theorem whileLoop_ends {cond : Work → Bool} {body : Work → Work}
    (hb : ∀ w, cond w = true → (body w).rem < w.rem) {fuel : Nat} {w : Work} (h : w.rem ≤ fuel) :
    cond (whileLoop cond body fuel w) = false := by
  induction fuel generalizing w with
  | zero =>
    cases hc : cond w
    · simpa [whileLoop] using hc
    · exact absurd (hb w hc) (by omega)
  | succ fuel ih =>
    cases hc : cond w
    · rw [whileLoop_of_done hc]; exact hc
    · rw [whileLoop_of_more hc]; exact ih (by have := hb w hc; omega)

/-! ## Byte ranges -/

/-- A range inside the address space passes the range check. -/
theorem outOfRange_of_inRange {s : State} {a n : Nat} (h : InRange s a n) :
    s.outOfRange a n = false := by
  obtain ⟨h1, h2⟩ := h
  simp [State.outOfRange]; omega

/-- A range of existing bytes passes the existence check. -/
theorem firstUnmapped_of_allMapped {s : State} {a n : Nat} (h : AllMapped s a n) :
    s.firstUnmapped a n = none := by
  induction n generalizing a with
  | zero => rfl
  | succ n ih =>
    unfold State.firstUnmapped
    rw [if_pos (h a (by omega) (by omega))]
    exact ih fun x h1 h2 => h x (by omega) (by omega)

end Sys2Proof.Laws
end

