-- ==== Sys2Proof/Laws/PerInstr.lean ====
section
/-! SUPPORT. Statements made per instruction. -/

namespace Sys2Proof.Laws.EncodesLegalFields

/-- The fields of the command pass every check of WellFormed (30_encoding.md R81). -/
def Statement (i : Instr) : Prop := i.fields.legal = true

theorem select (rd : RegId) : Statement (.select rd) := by
  simp [Statement, Instr.fields, FormatC.legal, FormatC.opDefined, FormatC.resZero,
    FormatC.vDefined, FormatC.unusedZero]
theorem tbuildLE : Statement .tbuildLE := by
  simp [Statement, Instr.fields, FormatC.legal, FormatC.opDefined, FormatC.resZero,
    FormatC.vDefined, FormatC.unusedZero]
theorem tbuildBE : Statement .tbuildBE := by
  simp [Statement, Instr.fields, FormatC.legal, FormatC.opDefined, FormatC.resZero,
    FormatC.vDefined, FormatC.unusedZero]
theorem treadLE (rd rs1 : RegId) : Statement (.treadLE rd rs1) := by
  simp [Statement, Instr.fields, FormatC.legal, FormatC.opDefined, FormatC.resZero,
    FormatC.vDefined, FormatC.unusedZero]
theorem treadBE (rd rs1 : RegId) : Statement (.treadBE rd rs1) := by
  simp [Statement, Instr.fields, FormatC.legal, FormatC.opDefined, FormatC.resZero,
    FormatC.vDefined, FormatC.unusedZero]
theorem update (rd rs1 rs2 rs3 : RegId) : Statement (.update rd rs1 rs2 rs3) := by
  simp [Statement, Instr.fields, FormatC.legal, FormatC.opDefined, FormatC.resZero,
    FormatC.vDefined, FormatC.unusedZero]
theorem updateSWLE (rd rs1 rs2 rs3 : RegId) : Statement (.updateSWLE rd rs1 rs2 rs3) := by
  simp [Statement, Instr.fields, FormatC.legal, FormatC.opDefined, FormatC.resZero,
    FormatC.vDefined, FormatC.unusedZero]
theorem updateSWBE (rd rs1 rs2 rs3 : RegId) : Statement (.updateSWBE rd rs1 rs2 rs3) := by
  simp [Statement, Instr.fields, FormatC.legal, FormatC.opDefined, FormatC.resZero,
    FormatC.vDefined, FormatC.unusedZero]
theorem updateHW (rd rs1 rs2 rs3 : RegId) : Statement (.updateHW rd rs1 rs2 rs3) := by
  simp [Statement, Instr.fields, FormatC.legal, FormatC.opDefined, FormatC.resZero,
    FormatC.vDefined, FormatC.unusedZero]
theorem crc32cb (rd rs1 rs2 : RegId) : Statement (.crc32cb rd rs1 rs2) := by
  simp [Statement, Instr.fields, FormatC.legal, FormatC.opDefined, FormatC.resZero,
    FormatC.vDefined, FormatC.unusedZero]
theorem crc32ch (rd rs1 rs2 : RegId) : Statement (.crc32ch rd rs1 rs2) := by
  simp [Statement, Instr.fields, FormatC.legal, FormatC.opDefined, FormatC.resZero,
    FormatC.vDefined, FormatC.unusedZero]
theorem crc32cw (rd rs1 rs2 : RegId) : Statement (.crc32cw rd rs1 rs2) := by
  simp [Statement, Instr.fields, FormatC.legal, FormatC.opDefined, FormatC.resZero,
    FormatC.vDefined, FormatC.unusedZero]
theorem crc32cx (rd rs1 rs2 : RegId) : Statement (.crc32cx rd rs1 rs2) := by
  simp [Statement, Instr.fields, FormatC.legal, FormatC.opDefined, FormatC.resZero,
    FormatC.vDefined, FormatC.unusedZero]
theorem clmul (rd rs1 rs2 : RegId) : Statement (.clmul rd rs1 rs2) := by
  simp [Statement, Instr.fields, FormatC.legal, FormatC.opDefined, FormatC.resZero,
    FormatC.vDefined, FormatC.unusedZero]
theorem foldk1 (rd rs1 : RegId) : Statement (.foldk1 rd rs1) := by
  simp [Statement, Instr.fields, FormatC.legal, FormatC.opDefined, FormatC.resZero,
    FormatC.vDefined, FormatC.unusedZero]
theorem foldk2 (rd rs1 : RegId) : Statement (.foldk2 rd rs1) := by
  simp [Statement, Instr.fields, FormatC.legal, FormatC.opDefined, FormatC.resZero,
    FormatC.vDefined, FormatC.unusedZero]
theorem tstepLE (rd rs1 rs2 : RegId) : Statement (.tstepLE rd rs1 rs2) := by
  simp [Statement, Instr.fields, FormatC.legal, FormatC.opDefined, FormatC.resZero,
    FormatC.vDefined, FormatC.unusedZero]
theorem tstepBE (rd rs1 rs2 : RegId) : Statement (.tstepBE rd rs1 rs2) := by
  simp [Statement, Instr.fields, FormatC.legal, FormatC.opDefined, FormatC.resZero,
    FormatC.vDefined, FormatC.unusedZero]
theorem tsliceLE (rd rs1 rs2 : RegId) : Statement (.tsliceLE rd rs1 rs2) := by
  simp [Statement, Instr.fields, FormatC.legal, FormatC.opDefined, FormatC.resZero,
    FormatC.vDefined, FormatC.unusedZero]
theorem tsliceBE (rd rs1 rs2 : RegId) : Statement (.tsliceBE rd rs1 rs2) := by
  simp [Statement, Instr.fields, FormatC.legal, FormatC.opDefined, FormatC.resZero,
    FormatC.vDefined, FormatC.unusedZero]
theorem xor (rd rs1 rs2 : RegId) : Statement (.xor rd rs1 rs2) := by
  simp [Statement, Instr.fields, FormatC.legal, FormatC.opDefined, FormatC.resZero,
    FormatC.vDefined, FormatC.unusedZero]
theorem inv (rd rs1 : RegId) : Statement (.inv rd rs1) := by
  simp [Statement, Instr.fields, FormatC.legal, FormatC.opDefined, FormatC.resZero,
    FormatC.vDefined, FormatC.unusedZero]
theorem ldleB (rd rs1 : RegId) : Statement (.ldleB rd rs1) := by
  simp [Statement, Instr.fields, FormatC.legal, FormatC.opDefined, FormatC.resZero,
    FormatC.vDefined, FormatC.unusedZero]
theorem ldleH (rd rs1 : RegId) : Statement (.ldleH rd rs1) := by
  simp [Statement, Instr.fields, FormatC.legal, FormatC.opDefined, FormatC.resZero,
    FormatC.vDefined, FormatC.unusedZero]
theorem ldleW (rd rs1 : RegId) : Statement (.ldleW rd rs1) := by
  simp [Statement, Instr.fields, FormatC.legal, FormatC.opDefined, FormatC.resZero,
    FormatC.vDefined, FormatC.unusedZero]
theorem ldleX (rd rs1 : RegId) : Statement (.ldleX rd rs1) := by
  simp [Statement, Instr.fields, FormatC.legal, FormatC.opDefined, FormatC.resZero,
    FormatC.vDefined, FormatC.unusedZero]
theorem ldbeB (rd rs1 : RegId) : Statement (.ldbeB rd rs1) := by
  simp [Statement, Instr.fields, FormatC.legal, FormatC.opDefined, FormatC.resZero,
    FormatC.vDefined, FormatC.unusedZero]
theorem ldbeH (rd rs1 : RegId) : Statement (.ldbeH rd rs1) := by
  simp [Statement, Instr.fields, FormatC.legal, FormatC.opDefined, FormatC.resZero,
    FormatC.vDefined, FormatC.unusedZero]
theorem ldbeW (rd rs1 : RegId) : Statement (.ldbeW rd rs1) := by
  simp [Statement, Instr.fields, FormatC.legal, FormatC.opDefined, FormatC.resZero,
    FormatC.vDefined, FormatC.unusedZero]
theorem ldbeX (rd rs1 : RegId) : Statement (.ldbeX rd rs1) := by
  simp [Statement, Instr.fields, FormatC.legal, FormatC.opDefined, FormatC.resZero,
    FormatC.vDefined, FormatC.unusedZero]

end Sys2Proof.Laws.EncodesLegalFields
end

