-- ==== Sys2Proof/Laws/Step.lean ====
section
/-! SUPPORT. Everything one step can do: the inversion of the host-port operations and of `step`,
and the parts of the invariant that the shared operations keep. -/

namespace Sys2Proof.Laws

open Sys2Proof.Machine

/-- What a host-port operation can do when it answers a next state. -/
inductive Performed (s : State) : HostOp → State → Prop
  | writeReg (j : Nat) (r : RegId) (v : Word64) (c : Context) (hc : s.ctx? j = some c) :
      Performed s (.writeReg j r v) (s.setCtx j (c.setReg r v))
  | readReg (j : Nat) (r : RegId) (v : Word64) (c : Context) (hc : s.ctx? j = some c)
      (hv : c.reg r = some v) : Performed s (.readReg j r) (s.observe (.reg j r v))
  | refused (j : Nat) (w : Word32) (c : Context) (hc : s.ctx? j = some c)
      (hf : c.faulted = true) : Performed s (.issue j w) s
  | illegal (j : Nat) (w : Word32) (c : Context) (e : Illegal) (hc : s.ctx? j = some c)
      (hf : c.faulted = false) (he : decode w = .error e) :
      Performed s (.issue j w) (s.faultEntry j w .illegalCommand 0)
  | command (j : Nat) (w : Word32) (c : Context) (i : Instr) (t : State)
      (hc : s.ctx? j = some c) (hf : c.faulted = false) (hi : decode w = .ok i)
      (ht : exec i { s with issuing := j } = .next t) : Performed s (.issue j w) t
  | readStatus (j : Nat) (c : Context) (hc : s.ctx? j = some c) :
      Performed s (.readStatus j) (s.observe (.status j c.status c.fcmd c.faddr))
  | readFeat : Performed s .readFeat (s.observe (.feat s.feat))
  | readEngsel : Performed s .readEngsel (s.observe (.engsel s.engsel))
  | writeMem (a : Word64) (b : Byte) (hm : s.mapped a.toNat = true) :
      Performed s (.writeMem a b) (s.writeByte a.toNat b)
  | reset : Performed s .reset s.resetEngine

/-- Inversion of `perform`. -/
theorem perform_cases {op : HostOp} {s t : State} (h : perform op s = .next t) :
    Performed s op t := by
  cases op with
  | writeReg j r v =>
    simp only [perform, hostWriteReg] at h
    split at h
    · cases h
    · cases h; exact .writeReg j r v _ ‹_›
  | readReg j r =>
    simp only [perform, hostReadReg] at h
    split at h
    · cases h
    · split at h
      · cases h
      · cases h; exact .readReg j r _ _ ‹_› ‹_›
  | issue j w =>
    simp only [perform, hostIssue] at h
    split at h
    · cases h
    · next c hc =>
      by_cases hf : c.faulted = true
      · simp only [hf, if_true] at h
        cases h
        exact .refused j w c hc hf
      · simp only [hf, Bool.false_eq_true, if_false] at h
        have hf : c.faulted = false := by simpa using hf
        split at h
        · cases h; exact .illegal j w c _ hc hf ‹_›
        · exact .command j w c _ t hc hf ‹_› h
  | readStatus j =>
    simp only [perform, hostReadStatus] at h
    split at h
    · cases h
    · cases h; exact .readStatus j _ ‹_›
  | readFeat => cases h; exact .readFeat
  | readEngsel => cases h; exact .readEngsel
  | writeMem a b =>
    simp only [perform, hostWriteMem] at h
    split at h
    · cases h; exact .writeMem a b ‹_›
    · cases h
  | reset => cases h; exact .reset

/-- Inversion of `step`: idle, or the operation at the head of the queue. -/
theorem step_cases {s t : State} (h : step s = .next t) :
    (s.pending = [] ∧ t = s) ∨
    ∃ op rest, s.pending = op :: rest ∧ Performed { s with pending := rest } op t := by
  unfold step performNext at h
  split at h
  · cases h; exact .inl ⟨‹_›, rfl⟩
  · exact .inr ⟨_, _, ‹_›, perform_cases h⟩

/-! ## Parts of the invariant -/

/-- Every context after a destination write is an earlier one, or an earlier one with a register
written. -/
theorem mem_writeDest {s : State} {rd : RegId} {v : Word64} {c : Context}
    (h : c ∈ (s.writeDest rd v).contexts) :
    ∃ d ∈ s.contexts, c = d ∨ c = d.setReg rd v := by
  obtain ⟨n, hn⟩ := List.mem_iff_getElem?.mp h
  simp only [writeDest_contexts, List.getElem?_modify] at hn
  obtain ⟨d, hd, rfl⟩ := Option.map_eq_some_iff.mp hn
  refine ⟨d, List.mem_of_getElem? hd, ?_⟩
  split
  · exact .inr rfl
  · exact .inl rfl

/-- Every context after a fault entry is an earlier one, or an earlier one with the fault registers
written. -/
theorem mem_faultEntry {s : State} {i : Nat} {w : Word32} {k : Cause} {f : Word64} {c : Context}
    (h : c ∈ (s.faultEntry i w k f).contexts) :
    ∃ d ∈ s.contexts, c = d ∨
      c = { d with status := Status.ofCause k, fcmd := w, faddr := f } := by
  obtain ⟨n, hn⟩ := List.mem_iff_getElem?.mp h
  simp only [faultEntry_contexts, List.getElem?_modify] at hn
  obtain ⟨d, hd, rfl⟩ := Option.map_eq_some_iff.mp hn
  refine ⟨d, List.mem_of_getElem? hd, ?_⟩
  split
  · exact .inr rfl
  · exact .inl rfl

/-- Every context after a replacement is an earlier one or the new one. -/
theorem mem_setCtx {s : State} {i : Nat} {c d : Context} (h : c ∈ (s.setCtx i d).contexts) :
    c ∈ s.contexts ∨ c = d := List.mem_or_eq_of_mem_set h

/-- Fault registers written with what FADDR may record beside the cause are legal. -/
theorem legal_of_info {cfg : Config} {d : Context} {k : Cause} {f : Word64} (w : Word32)
    (h : infoLegal cfg k f = true) :
    Context.legal cfg { d with status := Status.ofCause k, fcmd := w, faddr := f } = true := by
  unfold Context.legal
  rw [Bool.or_eq_true]
  right
  rw [List.any_eq_true]
  exact ⟨k, by cases k <;> simp [Cause.all], by simp [h]⟩

/-- A context after reset is legal. -/
theorem legal_reset (cfg : Config) : Context.reset.legal cfg = true := rfl

end Sys2Proof.Laws
end

