-- ==== Sys2Proof/Tests/Slice0.lean ====
section
/-! SUPPORT. The model's own tests. Expected words and values are those of the "Example" lines of the
command rules (40_tablebuilder.md to 44_datapath.md) and of 95_test_vectors.md; the last part shows,
for each statement with hypotheses, a state and operands that meet them. -/

namespace Sys2Proof.Tests

open Sys2Proof.Machine Sys2Proof.Laws

/-! ## Well-formedness: an ill-formed term for each check -/

/-- R81, first point: OP 0x00 and the OPs from 0x0E on. -/
theorem test_opDefined_refuses :
    (⟨0x00, 0, 0, 0, 0, 0, 0⟩ : FormatC).opDefined = false ∧
    (⟨0x0E, 0, 0, 0, 0, 0, 0⟩ : FormatC).opDefined = false ∧
    (⟨0x3F, 0, 0, 0, 0, 0, 0⟩ : FormatC).legal = false := by decide

/-- R81, second point. -/
theorem test_resZero_refuses :
    (⟨0x0A, 3, 1, 2, 0, 0, 1⟩ : FormatC).resZero = false ∧
    (⟨0x0A, 3, 1, 2, 0, 0, 1⟩ : FormatC).legal = false := by decide

/-- R81, third point: V = 1 of SELECT, V = 2 of TSLICE. -/
theorem test_vDefined_refuses :
    (⟨0x01, 5, 0, 0, 0, 1, 0⟩ : FormatC).vDefined = false ∧
    (⟨0x09, 3, 1, 2, 0, 2, 0⟩ : FormatC).vDefined = false ∧
    (⟨0x0C, 3, 1, 0, 0, 3, 0⟩ : FormatC).vDefined = true := by decide

/-- R81, fourth point: RD of TBUILD, RS1 of SELECT, RS2 of INV, RS3 of XOR. -/
theorem test_unusedZero_refuses :
    (⟨0x02, 1, 0, 0, 0, 0, 0⟩ : FormatC).unusedZero = false ∧
    (⟨0x01, 5, 1, 0, 0, 0, 0⟩ : FormatC).unusedZero = false ∧
    (⟨0x0B, 2, 1, 1, 0, 0, 0⟩ : FormatC).unusedZero = false ∧
    (⟨0x0A, 3, 1, 2, 1, 0, 0⟩ : FormatC).unusedZero = false := by decide

/-- R8: ADDR_W 0 and 65, NCTX 0. -/
theorem test_config_refuses :
    { Config.reference with addrW := 0 }.wellFormed = false ∧
    { Config.reference with addrW := 65 }.wellFormed = false ∧
    { Config.reference with nctx := 0 }.wellFormed = false ∧
    Config.reference.wellFormed = true := by decide

/-- R25: a context number from NCTX on, in each operation that names one. -/
theorem test_hostOp_refuses :
    (HostOp.writeReg 2 1 0).wellFormed 2 = false ∧ (HostOp.readReg 2 1).wellFormed 2 = false ∧
    (HostOp.issue 2 0).wellFormed 2 = false ∧ (HostOp.readStatus 2).wellFormed 2 = false ∧
    (HostOp.readStatus 1).wellFormed 2 = true := by decide

/-! ## Decoding: every constructor, by the word of its rule's example -/

/-- R133, R136: `select r5`; `update r4, r0, r2, r3`. -/
theorem test_dispatcher_words :
    decode 0x05400000 = .ok (.select 5) ∧ decode 0x11008C00 = .ok (.update 4 0 2 3) := by decide

/-- R91 to R95. -/
theorem test_tablebuilder_words :
    decode 0x08000000 = .ok .tbuildLE ∧ decode 0x08000100 = .ok .tbuildBE ∧
    decode 0x0C840000 = .ok (.treadLE 2 1) ∧ decode 0x0C840100 = .ok (.treadBE 2 1) := by decide

/-- R100 to R103, R108, R109. -/
theorem test_software_words :
    decode 0x20C48000 = .ok (.tstepLE 3 1 2) ∧ decode 0x20C48100 = .ok (.tstepBE 3 1 2) ∧
    decode 0x24C48000 = .ok (.tsliceLE 3 1 2) ∧ decode 0x24C48100 = .ok (.tsliceBE 3 1 2) ∧
    decode 0x11048D00 = .ok (.updateSWLE 4 1 2 3) ∧
    decode 0x11048E00 = .ok (.updateSWBE 4 1 2 3) := by decide

/-- R112 to R119, R127. -/
theorem test_hardware_words :
    decode 0x14C48000 = .ok (.crc32cb 3 1 2) ∧ decode 0x14C48100 = .ok (.crc32ch 3 1 2) ∧
    decode 0x14C48200 = .ok (.crc32cw 3 1 2) ∧ decode 0x14C48300 = .ok (.crc32cx 3 1 2) ∧
    decode 0x18C48000 = .ok (.clmul 3 1 2) ∧ decode 0x1CC40000 = .ok (.foldk1 3 1) ∧
    decode 0x1CC40100 = .ok (.foldk2 3 1) ∧ decode 0x11048F00 = .ok (.updateHW 4 1 2 3) := by
  decide

/-- R137, R138, R140 to R147. -/
theorem test_datapath_words :
    decode 0x28C48000 = .ok (.xor 3 1 2) ∧ decode 0x2C840000 = .ok (.inv 2 1) ∧
    decode 0x30840000 = .ok (.ldleB 2 1) ∧ decode 0x30840100 = .ok (.ldleH 2 1) ∧
    decode 0x30840200 = .ok (.ldleW 2 1) ∧ decode 0x30840300 = .ok (.ldleX 2 1) ∧
    decode 0x34840000 = .ok (.ldbeB 2 1) ∧ decode 0x34840100 = .ok (.ldbeH 2 1) ∧
    decode 0x34840200 = .ok (.ldbeW 2 1) ∧ decode 0x34840300 = .ok (.ldbeX 2 1) := by decide

/-- R74 at the ends of every field: OP 0x04, RD 15, RS1 0, RS2 15, RS3 8, V 3. -/
theorem test_field_places :
    decode (0b000100#6 ++ 0b1111#4 ++ 0b0000#4 ++ 0b1111#4 ++ 0b1000#4 ++ 0b11#2 ++ 0b00000000#8)
      = .ok (.updateHW 15 0 15 8) ∧
    encode (.updateHW 15 0 15 8) = 0x13C3E300 := by decide

/-- R81: the four ways to be illegal, by name. -/
theorem test_illegal_words :
    decode 0x00000000 = .error .reservedOpcode ∧ decode 0x38000000 = .error .reservedOpcode ∧
    decode 0x28C48001 = .error .resNotZero ∧ decode 0x05400100 = .error .undefinedVariant ∧
    decode 0x08400000 = .error .unusedFieldNotZero := by decide

/-- The table's numbering of bits is the word's. -/
theorem test_table_word : decodeTableWord 32 0x28C48000 = some (.xor 3 1 2) := by decide

/-! ## A small machine -/

/-- Two contexts, 16-bit addresses, a hole between two mapped regions. -/
def config : Config where
  addrW := 16
  nctx := 2
  mapped := [⟨0x1000, 0x100⟩, ⟨0x2000, 0x10⟩, ⟨0xFFF8, 8⟩]
  fill := 0
  fCrc := true
  fClmul := true
  hostBE := false
  hasSwLE := true
  hasSwBE := true
  hasHW := true

/-- "123456789" at 0x1000 and at 0x1013, "0123456789ABCDEF" at 0x2000. -/
def digits : List Host.Cell := [
  (0x1000, 0x31), (0x1001, 0x32), (0x1002, 0x33), (0x1003, 0x34), (0x1004, 0x35), (0x1005, 0x36),
  (0x1006, 0x37), (0x1007, 0x38), (0x1008, 0x39)] ++ [
  (0x1013, 0x31), (0x1014, 0x32), (0x1015, 0x33), (0x1016, 0x34), (0x1017, 0x35), (0x1018, 0x36),
  (0x1019, 0x37), (0x101A, 0x38), (0x101B, 0x39)] ++ [
  (0x2000, 0x30), (0x2001, 0x31), (0x2002, 0x32), (0x2003, 0x33), (0x2004, 0x34), (0x2005, 0x35),
  (0x2006, 0x36), (0x2007, 0x37), (0x2008, 0x38), (0x2009, 0x39), (0x200A, 0x41), (0x200B, 0x42),
  (0x200C, 0x43), (0x200D, 0x44), (0x200E, 0x45), (0x200F, 0x46)]

/-- A context whose R1, R2, R3 hold values and no other register does. -/
def regs3 (a b c : Word64) : Context := ((Context.reset.setReg 1 a).setReg 2 b).setReg 3 c

/-- A machine with the given context 0, tables built or not, and pending operations. -/
def machine (cfg : Config) (built : Bool) (c : Context) (ops : List HostOp) : State :=
  { State.launch cfg digits with
    contexts := [c, Context.reset]
    tableLE := if built then some builtTable else none
    tableBE := if built then some builtTable else none
    tvalidLE := built
    tvalidBE := built
    pending := ops }

/-- Context 0 runs one command word in the next step; the value its register r then holds. -/
def run (built : Bool) (c : Context) (w : Nat) (r : RegId) : Option Word64 :=
  match step ((machine config built c []).withFetchWord 32 w) with
  | .next t => (t.ctx? 0).bind (·.reg r)
  | .fault _ => none
  | .refused _ => none

/-- The fault registers of context 0 after it runs one command word. -/
def faultOf (cfg : Config) (built : Bool) (c : Context) (w : Nat) :
    Option (Word32 × Word32 × Word64) :=
  match step ((machine cfg built c []).withFetchWord 32 w) with
  | .next t => (t.ctx? 0).map fun d => (d.status, d.fcmd, d.faddr)
  | .fault _ => none
  | .refused _ => none

/-! ## Results: the example of each command's rule -/

theorem test_select : run false Context.reset 0x05400000 5 = some 3 := by decide

/-- R133: the software binding, and no binding. -/
theorem test_select_software :
    select (featOf { config with fCrc := false }) = 1 ∧
    select (featOf { config with hasHW := false, hasSwLE := false }) = 0x80000000 := by decide

/-- What a build leaves: the valid flags, and one entry of the table of a variant. -/
def builtEntry (i : Instr) (v : Variant) (k : BitVec 3) (n : BitVec 8) :
    Option (Bool × Bool × Option Word32) :=
  match exec i (machine config false Context.reset []) with
  | .next t => some (t.tvalidLE, t.tvalidBE, (t.table v).map fun T => entry T k n)
  | .fault _ => none
  | .refused _ => none

theorem test_tbuildLE :
    builtEntry .tbuildLE .le 0 0x80 = some (true, false, some 0x82F63B78) := by decide +kernel

theorem test_tbuildBE :
    builtEntry .tbuildBE .be 7 0x01 = some (false, true, some 0x493C7D27) := by decide +kernel

theorem test_treadLE : run true (regs3 0x0701 0 0) 0x0C840000 2 = some 0x493C7D27 := by
  decide +kernel

theorem test_treadBE : run true (regs3 0x00FF 0 0) 0x0C840100 2 = some 0xAD7D5351 := by
  decide +kernel

theorem test_tstepLE :
    run true (regs3 0xFFFFFFFF 0x31 0) 0x20C48000 3 = some 0x6F0A661C := by decide +kernel

theorem test_tstepBE :
    run true (regs3 0x12345678 0xAB 0) 0x20C48100 3 = some 0xC0912609 := by decide +kernel

theorem test_tsliceLE :
    run true (regs3 0xFFFFFFFF 0x3837363534333231 0) 0x24C48000 3 = some 0x9F787F65 := by
  decide +kernel

theorem test_tsliceBE :
    run true (regs3 0xFFFFFFFF 0x3132333435363738 0) 0x24C48100 3 = some 0x9F787F65 := by
  decide +kernel

theorem test_updateSWLE :
    run false (regs3 0 0x1000 9) 0x11048D00 4 = some 0xE3069283 := by decide +kernel

/-- R109's example is misaligned by 3; so is this copy of its bytes. -/
theorem test_updateSWBE :
    run true (regs3 0 0x1013 9) 0x11048E00 4 = some 0xE3069283 := by decide +kernel

theorem test_updateHW :
    run false (regs3 0 0x1000 9) 0x11048F00 4 = some 0xE3069283 := by decide +kernel

theorem test_update :
    run false (regs3 0 0x1000 9) 0x11008C00 4 = some 0xE3069283 := by decide +kernel

theorem test_crc32cb : run false (regs3 0xFFFFFFFF 0x31 0) 0x14C48000 3 = some 0x6F0A661C := by
  decide +kernel

theorem test_crc32ch : run false (regs3 0 0xFF 0) 0x14C48100 3 = some 0xA3E32483 := by
  decide +kernel

theorem test_crc32cw : run false (regs3 0xFFFFFFFF 0 0) 0x14C48200 3 = some 0xB798B438 := by
  decide +kernel

theorem test_crc32cx :
    run false (regs3 0x12345678 0x0123456789ABCDEF 0) 0x14C48300 3 = some 0xA3D207BE := by
  decide +kernel

theorem test_clmul :
    run false (regs3 0xE417F38A 0x8F158014 0) 0x18C48000 3 = some 0x779A66B2CBE7F688 := by
  decide +kernel

theorem test_foldk1 : run false (regs3 1 0 0) 0x1CC40000 3 = some 0x96C515BB := by decide +kernel

theorem test_foldk2 : run false (regs3 0x12345678 0 0) 0x1CC40100 3 = some 0xA2A20460 := by
  decide +kernel

theorem test_xor : run false (regs3 0x9DF9F1C5 0xB54AA048 0) 0x28C48000 3 = some 0x28B3518D := by
  decide

theorem test_inv : run false (regs3 0x1CF96D7C 0 0) 0x2C840000 2 = some 0xE3069283 := by decide

theorem test_ldleB : run false (regs3 0x1008 0 0) 0x30840000 2 = some 0x39 := by decide

theorem test_ldleH : run false (regs3 0x1001 0 0) 0x30840100 2 = some 0x3332 := by decide

theorem test_ldleW : run false (regs3 0x1000 0 0) 0x30840200 2 = some 0x34333231 := by decide

theorem test_ldleX : run false (regs3 0x2000 0 0) 0x30840300 2 = some 0x3736353433323130 := by
  decide

theorem test_ldbeB : run false (regs3 0x1000 0 0) 0x34840000 2 = some 0x31 := by decide

theorem test_ldbeH : run false (regs3 0x1001 0 0) 0x34840100 2 = some 0x3233 := by decide

theorem test_ldbeW : run false (regs3 0x1000 0 0) 0x34840200 2 = some 0x31323334 := by decide

theorem test_ldbeX : run false (regs3 0x2000 0 0) 0x34840300 2 = some 0x3031323334353637 := by
  decide

/-- The last eight addresses of the address space can be read. -/
theorem test_ldleX_top : run false (regs3 0xFFF8 0 0) 0x30840300 2 = some 0 := by decide

/-! ## Faults (60_exceptions.md): STATUS, FCMD, FADDR -/

theorem test_illegalCommand :
    faultOf config false Context.reset 0x00000000 = some (0x11, 0, 0) := by decide

theorem test_configError :
    faultOf { config with hasHW := false, hasSwLE := false } false Context.reset 0x11008C00 =
      some (0x21, 0x11008C00, 0) := by decide

theorem test_engineAbsent :
    faultOf { config with fClmul := false } false Context.reset 0x18C48000 =
      some (0x31, 0x18C48000, 0) := by decide

theorem test_undefOperand :
    faultOf config false (Context.reset.setReg 1 5) 0x28C48000 = some (0x41, 0x28C48000, 2) := by
  decide

theorem test_tableInvalid :
    faultOf config false (regs3 0 0 0) 0x0C840000 = some (0x51, 0x0C840000, 0) := by decide

/-- A range that ends one byte past the top. -/
theorem test_rangeFault :
    faultOf config false (regs3 0xFFF9 0 0) 0x30840300 = some (0x61, 0x30840300, 0xFFF9) := by
  decide

/-- The lowest unmapped byte of a range that starts mapped. -/
theorem test_memFault :
    faultOf config false (regs3 0x10FE 0 0) 0x30840200 = some (0x71, 0x30840200, 0x1100) := by
  decide

/-! ## Assembler -/

theorem test_assembler_lines :
    assembleWord "update.hw r4, r1, r2, r3  # P4".toList = some 0x11048F00 ∧
    assembleLine "foo r1".toList = .unknownMnemonic ∧
    assembleLine "inv r2, r16".toList = .badRegister ∧
    assembleLine "xor r1, r2".toList = .wrongOperandCount ∧
    assembleLine "# only a comment".toList = .blank := by decide +kernel

/-! ## Witnesses: for each statement with hypotheses, states and operands that meet them -/

/-- The small machine meets the invariant, whatever its registers and queue, if the fault registers of
context 0 are legal. -/
theorem machine_inv {cfg : Config} {built : Bool} {c : Context} (ops : List HostOp)
    (h1 : cfg.wellFormed = true) (h2 : cfg.nctx = 2) (h3 : cfg.fill = 0)
    (h4 : c.legal cfg = true) (h5 : digits.all (fun p => Config.maps cfg p.1) = true) :
    (machine cfg built c ops).Inv where
  cfg := h1
  contexts := h2.symm
  legal := by
    intro d hd
    simp only [machine, List.mem_cons, List.not_mem_nil, or_false] at hd
    rcases hd with rfl | rfl
    · exact h4
    · exact legal_reset cfg
  feat := rfl
  engsel := rfl
  tables := by
    intro v
    cases v <;> cases built <;> first | exact .inr ⟨rfl, rfl⟩ | exact .inl ⟨rfl, rfl⟩
  mem := by
    show Memory.wf cfg.fill digits = true
    rw [h3]; decide
  memMapped := fun p hp => List.all_eq_true.mp h5 p hp

/-- A context that took RANGE_FAULT on an address. -/
def faulted : Context :=
  { regs3 0 0xFFF9 8 with status := Status.ofCause .rangeFault, fcmd := 0x11048F00, faddr := 0xFFF9 }

/-- The small machine with an illegal word of each kind, a legal word, or any other operation at the
head of the queue: context 0 exists and is not faulted. -/
theorem witness_queue (op : HostOp) :
    (machine config true (regs3 0 0x1000 9) [op]).pending = op :: [] ∧
    (machine config true (regs3 0 0x1000 9) [op]).ctx? 0 = some (regs3 0 0x1000 9) ∧
    (regs3 0 0x1000 9).faulted = false ∧
    (machine config true (regs3 0 0x1000 9) [op]).Inv :=
  ⟨rfl, rfl, rfl, machine_inv _ rfl rfl rfl rfl (by decide)⟩

theorem witness_LegalWordIsItsCommandsWord : decode 0x11048F00 = .ok (.updateHW 4 1 2 3) := by decide

theorem witness_DecodeIsTheSearchOfTheOpcodeTable : decode 0x08000100 = .ok .tbuildBE := by decide

/-- One word for each point of R81; the rest of the hypotheses are those of `witness_queue`. -/
theorem witness_IllegalWordsTakeIllegalCommand :
    decodeByTable 0x00000000 = none ∧ decodeByTable 0x38000000 = none ∧
    decodeByTable 0x28C48001 = none ∧ decodeByTable 0x05400100 = none ∧
    decodeByTable 0x08400000 = none ∧
    (machine config true (regs3 0 0x1000 9) [.issue 0 0x38000000]).pending =
      .issue 0 0x38000000 :: [] ∧
    (machine config true (regs3 0 0x1000 9) [.issue 0 0x38000000]).ctx? 0 =
      some (regs3 0 0x1000 9) ∧ (regs3 0 0x1000 9).faulted = false := by decide

/-- A pending legal word, and no pending operation. -/
theorem witness_StepRunsTheIssuedCommand :
    ((machine config true (regs3 0 0x1000 9) [.issue 0 0x28C48000]).pending =
        .issue 0 0x28C48000 :: [] ∧
      (machine config true (regs3 0 0x1000 9) [.issue 0 0x28C48000]).ctx? 0 =
        some (regs3 0 0x1000 9) ∧ (regs3 0 0x1000 9).faulted = false ∧
      decode 0x28C48000 = .ok (.xor 3 1 2)) ∧
    (machine config true (regs3 0 0x1000 9) []).pending = [] := by decide

/-- Every operation that can stand at the head of the queue of a machine whose context 0 is faulted;
R3 and R0 hold values there. -/
theorem witness_FaultedContextIsStoppedUntilReset (op : HostOp) :
    (machine config true faulted [op]).pending = op :: [] ∧
    (machine config true faulted [op]).ctx? 0 = some faulted ∧ faulted.faulted = true ∧
    faulted.reg 3 = some 8 ∧ faulted.reg 0 = some 0 ∧
    (∃ t, step (machine config true faulted [.readStatus 0]) = .next t) ∧
    0 < (machine config true faulted [op]).cfg.nctx :=
  ⟨rfl, rfl, rfl, rfl, rfl, ⟨_, rfl⟩, Nat.zero_lt_succ 1⟩

/-- R15 and R0, a register among the others. -/
theorem witness_WriteRegSetsTheRegister :
    (machine config true faulted [.writeReg 0 15 7]).pending = .writeReg 0 15 7 :: [] ∧
    (machine config true faulted [.writeReg 0 0 7]).pending = .writeReg 0 0 7 :: [] ∧
    (machine config true faulted [.writeReg 0 0 7]).ctx? 0 = some faulted ∧
    (15 : RegId) ≠ 0 ∧ (1 : RegId) ≠ 15 :=
  ⟨rfl, rfl, rfl, by decide, by decide⟩

/-- A register with a value, one without, and the three other reads (`witness_queue` has the queue). -/
theorem witness_HostReadsReturnTheState :
    (machine config true (regs3 0 0x1000 9) [.readReg 0 3]).pending = .readReg 0 3 :: [] ∧
    (machine config true (regs3 0 0x1000 9) [.readReg 0 15]).pending = .readReg 0 15 :: [] ∧
    (regs3 0 0x1000 9).reg 3 = some 9 ∧ (regs3 0 0x1000 9).reg 15 = none ∧
    (machine config true (regs3 0 0x1000 9) [.readStatus 1]).ctx? 1 = some Context.reset ∧
    (machine config true (regs3 0 0x1000 9) [.readFeat]).pending = .readFeat :: [] ∧
    (machine config true (regs3 0 0x1000 9) [.readEngsel]).pending = .readEngsel :: [] :=
  ⟨rfl, rfl, rfl, rfl, rfl, rfl, rfl⟩

/-- The first and the last byte of a region, and the byte after it. -/
theorem witness_WriteMemSetsOneMappedByte :
    (machine config true faulted [.writeMem 0x1000 0]).pending = .writeMem 0x1000 0 :: [] ∧
    Memory.wf (machine config true faulted []).cfg.fill (machine config true faulted []).mem = true ∧
    (machine config true faulted []).mapped 0x1000 = true ∧
    (machine config true faulted []).mapped 0x10FF = true ∧
    (machine config true faulted []).mapped 0xFFFF = true ∧
    (machine config true faulted []).mapped 0x1100 = false ∧
    (machine config true faulted []).mapped 0x10000 = false :=
  ⟨rfl, by decide, by decide, by decide, by decide, by decide, by decide⟩

theorem witness_ResetLeavesTheResetTable :
    (machine config true faulted [.reset]).pending = .reset :: [] := rfl

theorem witness_LaunchStatesMeetTheInvariant :
    config.wellFormed = true ∧ Memory.wf config.fill digits = true ∧
    (∀ p ∈ digits, Config.maps config p.1 = true) := by decide

/-- A step from a state with the invariant that answers a next state. -/
theorem witness_StepKeepsTheInvariant :
    (machine config true faulted [.reset]).Inv ∧
    ∃ t, step (machine config true faulted [.reset]) = .next t :=
  ⟨machine_inv _ rfl rfl rfl (by decide) (by decide), ⟨_, rfl⟩⟩

/-- An ISSUE to the last context, and each of the three refusals. -/
theorem witness_StepStopsOnlyAtRefusedHostOperations :
    (∀ op, (machine config true (regs3 0 0x1000 9) [op]).Inv) ∧
    1 < (machine config true (regs3 0 0x1000 9) [.issue 1 0]).cfg.nctx ∧
    step (machine config true (regs3 0 0x1000 9) [.issue 2 0]) = .refused .noSuchContext ∧
    step (machine config true (regs3 0 0x1000 9) [.readReg 0 15]) =
      .refused .readRegWithoutValue ∧
    step (machine config true (regs3 0 0x1000 9) [.writeMem 0x1100 0]) =
      .refused .writeMemUnmapped :=
  ⟨fun op => (witness_queue op).2.2.2, by decide, rfl, rfl, rfl⟩

/-- A step that is no RESET, and one that is, from a state with the invariant and built tables. -/
theorem witness_BindingNeverChanges :
    (machine config true faulted [.readFeat]).Inv ∧
    (∃ t, step (machine config true faulted [.readFeat]) = .next t) ∧
    isReset .readFeat = false ∧ (∃ t, step (machine config true faulted [.reset]) = .next t) ∧
    isReset .reset = true :=
  ⟨machine_inv _ rfl rfl rfl (by decide) (by decide), ⟨_, rfl⟩, rfl, ⟨_, rfl⟩, rfl⟩

/-- A host operation, and a refused command, on a machine with built tables. -/
theorem witness_BuiltTableIsConstantUntilReset :
    (machine config true faulted [.readFeat]).Inv ∧
    (∃ t, step (machine config true faulted [.readFeat]) = .next t ∧
      t.table .be = some builtTable) ∧
    (∀ j w, HostOp.readFeat ≠ .issue j w) ∧ isReset .readFeat = false ∧
    (machine config true faulted [.readFeat]).tvalid .be = true :=
  ⟨machine_inv _ rfl rfl rfl (by decide) (by decide), ⟨_, rfl, rfl⟩, by simp, rfl, rfl⟩

theorem witness_OnlyTheHostWritesMemory :
    (machine config true (regs3 1 2 3) [.issue 0 0x28C48000]).pending =
      .issue 0 0x28C48000 :: [] ∧
    isWriteMem (.issue 0 0x28C48000) = false ∧
    ∃ t, step (machine config true (regs3 1 2 3) [.issue 0 0x28C48000]) = .next t :=
  ⟨rfl, rfl, ⟨_, rfl⟩⟩

theorem witness_CommandsDoNotTouchOtherContexts :
    1 ≠ (machine config true (regs3 1 2 3) []).issuing := by decide

/-- A command that completes and one that faults: for CommandFrameOutsideTheContext,
CommandFrameInsideTheContext and CommandFrameOfTheTables. -/
theorem witness_CommandFrames :
    (∃ t, exec (.xor 3 1 2) (machine config true (regs3 1 2 3) []) = .next t) ∧
    (∃ t, exec (.xor 3 1 15) (machine config true (regs3 1 2 3) []) = .next t) ∧
    (1 : Nat) ≠ (machine config true (regs3 1 2 3) []).issuing ∧
    (Instr.xor 3 1 2).dest ≠ some 1 ∧ (Instr.xor 3 1 2) ≠ .tbuildLE ∧
    (Instr.xor 3 1 2).isDispatched = false ∧
    (∀ rd a b c, Instr.xor 3 1 2 ≠ .updateSWLE rd a b c) ∧ (Instr.xor 3 1 2) ≠ .tbuildBE ∧
    (∀ rd a b c, Instr.xor 3 1 2 ≠ .updateSWBE rd a b c) :=
  ⟨⟨_, rfl⟩, ⟨_, rfl⟩, by decide, by decide, by decide, rfl, by simp, by decide, by simp⟩

/-- Destination R0: a command that completes, and one to which a cause applies. -/
theorem witness_RegisterZeroIsHardwired :
    (machine config true (regs3 1 2 3) []).Inv ∧ (Instr.xor 0 1 2).dest = some 0 ∧
    (∃ t, exec (.xor 0 1 2) (machine config true (regs3 1 2 3) []) = .next t ∧
      t.ctx? 0 = some (regs3 1 2 3)) ∧
    (machine config true (regs3 1 2 3) []).ctx? 0 = some (regs3 1 2 3) ∧
    firstFault (.xor 0 1 15) (machine config true (regs3 1 2 3) []) (regs3 1 2 3) =
      some (.undefOperand, 15) :=
  ⟨machine_inv _ rfl rfl rfl (by decide) (by decide), rfl, ⟨_, rfl, rfl⟩, rfl, by decide⟩

/-- A step that takes a fault. -/
theorem witness_FaultsArePrecise :
    (machine config true (regs3 1 2 3) [.issue 0 0x28C7C000]).ctx? 0 = some (regs3 1 2 3) ∧
    (regs3 1 2 3).faulted = false ∧
    ∃ t d, step (machine config true (regs3 1 2 3) [.issue 0 0x28C7C000]) = .next t ∧
      t.ctx? 0 = some d ∧ d.faulted = true :=
  ⟨rfl, rfl, _, _, rfl, rfl, by decide⟩

/-- For each line of R160 that applies to a command, one that reports it, and one to which none
applies (points 1 and 2 are `witness_FaultedContextIsStoppedUntilReset` and
`witness_IllegalWordsTakeIllegalCommand`). -/
theorem witness_FirstApplicableFaultIsReported :
    firstFault (.update 4 1 2 15)
      (machine { config with hasHW := false, hasSwLE := false } false (regs3 0 0xFFFF 9) [])
      (regs3 0 0xFFFF 9) = some (.configError, 0) ∧
    firstFault (.clmul 4 1 15) (machine { config with fClmul := false } false (regs3 0 0xFFFF 9) [])
      (regs3 0 0xFFFF 9) = some (.engineAbsent, 0) ∧
    firstFault (.tstepLE 4 1 15) (machine config false (regs3 0 0xFFFF 9) []) (regs3 0 0xFFFF 9) =
      some (.undefOperand, 15) ∧
    firstFault (.tstepLE 4 1 2) (machine config false (regs3 0 0xFFFF 9) []) (regs3 0 0xFFFF 9) =
      some (.tableInvalid, 0) ∧
    firstFault (.updateHW 4 1 2 3) (machine config false (regs3 0 0xFFF0 17) [])
      (regs3 0 0xFFF0 17) = some (.rangeFault, 0xFFF0) ∧
    firstFault (.updateHW 4 1 2 3) (machine config false (regs3 0 0xFFF7 9) [])
      (regs3 0 0xFFF7 9) = some (.memFault, 0xFFF7) ∧
    firstFault (.updateHW 4 1 2 3) (machine config false (regs3 0 0xFFF8 8) [])
      (regs3 0 0xFFF8 8) = none ∧
    firstFault (.updateHW 4 1 2 3) (machine config false (regs3 0 0xFFFF 0) [])
      (regs3 0 0xFFFF 0) = none := by decide

theorem witness_UnavailableEngineIsAbsent :
    (machine { config with fClmul := false } true (regs3 1 2 3) []).Inv ∧
    (machine { config with fClmul := false } true (regs3 1 2 3) []).ctx? 0 = some (regs3 1 2 3) ∧
    (Instr.clmul 3 1 2).availableIn { config with fClmul := false } = false :=
  ⟨machine_inv _ rfl rfl rfl (by decide) (by decide), rfl, rfl⟩

theorem witness_UnboundUpdateIsConfigError :
    (machine { config with hasHW := false, hasSwLE := false } true (regs3 1 2 3) []).ctx? 0 =
      some (regs3 1 2 3) ∧
    Engsel.bind (machine { config with hasHW := false, hasSwLE := false } true
      (regs3 1 2 3) []).engsel = .none := ⟨rfl, by decide⟩

/-- Each binding, and an update that answers a next state. -/
theorem witness_SelectionBindsOnlyAvailableEngines :
    (machine config false (regs3 0 0xFFF9 9) []).ctx? 0 = some (regs3 0 0xFFF9 9) ∧
    Engsel.bind (select (featOf config)) = .hw ∧
    Engsel.bind (select (featOf { config with fCrc := false })) = .swLE ∧
    Engsel.bind (select (featOf { config with fCrc := false, hostBE := true })) = .swBE ∧
    (machine config false (regs3 0 0xFFF9 9) []).Inv ∧ (regs3 0 0xFFF9 9).faulted = false ∧
    ∃ t d, exec (.update 4 1 2 3) (machine config false (regs3 0 0xFFF9 9) []) = .next t ∧
      t.ctx? 0 = some d :=
  ⟨rfl, by decide, by decide, by decide, machine_inv _ rfl rfl rfl (by decide) (by decide), by decide,
    _, _, rfl, rfl⟩

/-- The third source is the one without a value. -/
theorem witness_FirstValuelessSourceIsReported :
    (machine config true (regs3 1 2 3) []).ctx? 0 = some (regs3 1 2 3) ∧
    (machine config true (regs3 1 2 3) []).Inv ∧
    EngineReady (.updateHW 4 1 2 15) (machine config true (regs3 1 2 3) []) ∧
    (Instr.updateHW 4 1 2 15).sources = [1, 2] ++ 15 :: [] ∧
    (∀ q ∈ ([1, 2] : List RegId), ((regs3 1 2 3).reg q).isSome = true) ∧
    (regs3 1 2 3).reg 15 = none :=
  ⟨rfl, machine_inv _ rfl rfl rfl (by decide) (by decide), ⟨by decide, by decide⟩, rfl, by decide,
    by decide⟩

/-- A table that is not built, and an update that answers a next state. -/
theorem witness_UnbuiltTableIsInvalid :
    (machine config false (regs3 1 2 3) []).ctx? 0 = some (regs3 1 2 3) ∧
    (regs3 1 2 3).faulted = false ∧
    (Instr.tsliceBE 3 1 2).tableNeeded = some .be ∧
    SourcesHold (.tsliceBE 3 1 2) (regs3 1 2 3) ∧
    (machine config false (regs3 1 2 3) []).tvalid .be = false ∧
    (Instr.updateSWLE 4 1 2 3).tableNeeded = none ∧
    ∃ t d, exec (.updateSWLE 4 1 2 3) (machine config false (regs3 1 2 3) []) = .next t ∧
      t.ctx? 0 = some d :=
  ⟨rfl, rfl, rfl, by unfold SourcesHold; decide, rfl, rfl, _, _, rfl, rfl⟩

/-- Both clauses at their boundary: an address of 2^ADDR_W, and a range one byte too long. -/
theorem witness_RangeOutsideAddressSpaceFaults :
    (machine config true (regs3 0x10000 0xFFF8 9) []).ctx? 0 = some (regs3 0x10000 0xFFF8 9) ∧
    (machine config true (regs3 0x10000 0xFFF8 9) []).Inv ∧
    EngineReady (.updateHW 4 1 2 3) (machine config true (regs3 0x10000 0xFFF8 9) []) ∧
    SourcesHold (.updateHW 4 1 2 3) (regs3 0x10000 0xFFF8 9) ∧
    rangeOf (.updateHW 4 1 2 3) (regs3 0x10000 0xFFF8 9) = some (0xFFF8, 9) ∧
    2 ^ 16 < (0xFFF8#64).toNat + 9 ∧
    rangeOf (.ldleB 4 1) (regs3 0x10000 0xFFF8 9) = some (0x10000, 1) ∧
    2 ^ 16 ≤ (0x10000#64).toNat :=
  ⟨rfl, machine_inv _ rfl rfl rfl (by decide) (by decide), ⟨by decide, by decide⟩,
    by unfold SourcesHold; decide, by decide, by decide, by decide, by decide⟩

/-- A range that starts mapped and runs into the hole after the region. -/
theorem witness_UnmappedByteInRangeFaults :
    (machine config true (regs3 0 0x10FE 9) []).ctx? 0 = some (regs3 0 0x10FE 9) ∧
    (machine config true (regs3 0 0x10FE 9) []).Inv ∧
    EngineReady (.updateHW 4 1 2 3) (machine config true (regs3 0 0x10FE 9) []) ∧
    SourcesHold (.updateHW 4 1 2 3) (regs3 0 0x10FE 9) ∧
    rangeOf (.updateHW 4 1 2 3) (regs3 0 0x10FE 9) = some (0x10FE, 9) ∧
    InRange (machine config true (regs3 0 0x10FE 9) []) 0x10FE 9 ∧
    (machine config true (regs3 0 0x10FE 9) []).mapped 0x1100 = false ∧
    (∀ x, 0x10FE ≤ x → x < 0x1100 →
      (machine config true (regs3 0 0x10FE 9) []).mapped x = true) :=
  ⟨rfl, machine_inv _ rfl rfl rfl (by decide) (by decide), ⟨by decide, by decide⟩,
    by unfold SourcesHold; decide, by decide, ⟨by decide, by decide⟩, by decide, by
      intro x h1 h2
      have : x = 0x10FE ∨ x = 0x10FF := by omega
      rcases this with rfl | rfl <;> decide⟩

/-- Operands with values, valid tables, available primitives: for SelectAndTbuildComplete,
TreadCompletes, TstepAndTsliceComplete, CrcStepsComplete, ClmulCompletes, FoldsComplete and
XorAndInvComplete. -/
theorem witness_Completes :
    (machine config true (regs3 1 2 3) []).ctx? 0 = some (regs3 1 2 3) ∧
    (regs3 1 2 3).reg 1 = some 1 ∧ (regs3 1 2 3).reg 2 = some 2 ∧
    (machine config true (regs3 1 2 3) []).tvalidLE = true ∧
    (machine config true (regs3 1 2 3) []).tableLE = some builtTable ∧
    (machine config true (regs3 1 2 3) []).tvalidBE = true ∧
    (machine config true (regs3 1 2 3) []).tableBE = some builtTable ∧
    Feat.hasHW (machine config true (regs3 1 2 3) []).feat = true ∧
    Feat.fCrc (machine config true (regs3 1 2 3) []).feat = true ∧
    Feat.fClmul (machine config true (regs3 1 2 3) []).feat = true ∧
    Feat.hwAvailable (machine config true (regs3 1 2 3) []).feat = true :=
  ⟨rfl, rfl, rfl, rfl, rfl, rfl, rfl, by decide, by decide, by decide, by decide⟩

/-- Every byte of an access at the last eight addresses, which memory does not list: for
LittleEndianLoadsComplete and BigEndianLoadsComplete. -/
theorem witness_LoadsComplete :
    (machine config true (regs3 0xFFF8 0 0) []).ctx? 0 = some (regs3 0xFFF8 0 0) ∧
    (regs3 0xFFF8 0 0).reg 1 = some 0xFFF8 ∧
    (∀ k ∈ List.range 8,
      (machine config true (regs3 0xFFF8 0 0) []).readByte ((0xFFF8#64).toNat + k) = some 0) :=
  ⟨rfl, by decide, by decide⟩

/-- A readable range, and an empty one at the last address, with every engine ready: for
SoftwareUpdatesComplete, HardwareUpdateCompletes, DispatchedUpdateCompletes and
EnginesAreSubstitutable. -/
theorem witness_UpdatesComplete :
    (machine config false (regs3 0 0xFFFF 0) []).Inv ∧
    (machine config false (regs3 0 0xFFFF 0) []).ctx? 0 = some (regs3 0 0xFFFF 0) ∧
    (regs3 0 0xFFFF 0).reg 1 = some 0 ∧ (regs3 0 0xFFFF 0).reg 2 = some 0xFFFF ∧
    (regs3 0 0xFFFF 0).reg 3 = some 0 ∧
    InRange (machine config false (regs3 0 0xFFFF 0) []) 0xFFFF 0 ∧
    AllMapped (machine config false (regs3 0 0xFFFF 0) []) 0xFFFF 0 ∧
    InRange (machine config false (regs3 0 0xFFF8 8) []) 0xFFF8 8 ∧
    AllMapped (machine config false (regs3 0 0xFFF8 8) []) 0xFFF8 8 ∧
    Feat.hasSwLE (machine config false (regs3 0 0xFFFF 0) []).feat = true ∧
    Feat.hasSwBE (machine config false (regs3 0 0xFFFF 0) []).feat = true ∧
    Feat.hwAvailable (machine config false (regs3 0 0xFFFF 0) []).feat = true ∧
    (machine config false (regs3 0 0xFFFF 0) []).tableLegal .le ∧
    (machine config false (regs3 0 0xFFFF 0) []).tableLegal .be ∧
    Engsel.bind (machine config false (regs3 0 0xFFFF 0) []).engsel ≠ .none ∧
    (∀ i ∈ [Instr.update 4 1 2 3, Instr.updateSWLE 4 1 2 3, Instr.updateSWBE 4 1 2 3,
      Instr.updateHW 4 1 2 3], EngineReady i (machine config false (regs3 0 0xFFFF 0) [])) :=
  ⟨machine_inv _ rfl rfl rfl (by decide) (by decide), rfl, by decide, by decide, by decide,
    ⟨by decide, by decide⟩, fun x h1 h2 => by omega, ⟨by decide, by decide⟩, by
      intro x h1 h2
      have : x ∈ List.range' 0xFFF8 8 := by simp; omega
      revert x; decide,
    by decide, by decide, by decide, .inr ⟨rfl, rfl⟩, .inr ⟨rfl, rfl⟩,
    by decide, by
      intro i hi
      refine ⟨fun _ => by decide, ?_⟩
      fin_cases hi <;> decide⟩

theorem witness_RawCrcIsLinear : ([0x31, 0x32] : List Byte).length = ([0, 1] : List Byte).length := rfl

theorem witness_BuiltTableFollowsItsRecurrence : (1 : BitVec 3) ≠ 0 ∧ (7 : BitVec 3) ≠ 0 := by decide

theorem witness_SliceStepsAreEightByteSteps :
    ([0x31, 0x32, 0x33, 0x34, 0x35, 0x36, 0x37, 0x38] : List Byte).length = 8 := rfl

/-- Two memories that agree on a range and differ just outside it. -/
theorem witness_UpdatesReadOnlyTheirRange :
    (∀ x, 4 ≤ x → x < 4 + 8 →
      (fun _ => 0 : Nat → Byte) x = (fun n => if n < 4 then 1 else 0 : Nat → Byte) x) ∧
    (fun _ => 0 : Nat → Byte) 3 ≠ (fun n => if n < 4 then 1 else 0 : Nat → Byte) 3 :=
  ⟨fun x h _ => by simp; omega, by decide⟩

/-- The same bytes at two addresses. -/
theorem witness_SoftwareUpdateIsTheChecksum :
    memRead (fun n => if n = 5 then 7 else 0) 5 1 = memRead (fun n => if n = 8 then 7 else 0) 8 1 :=
  by decide

/-- Each binding has a configuration; each of the last clause's conditions is met. -/
theorem witness_SelectionFollowsTheFeatures :
    (config.hasHW = true ∧ config.fCrc = true ∧ config.fClmul = true) ∧
    (config.hostBE = false ∧ config.hasSwLE = true) ∧
    (Config.hostBE { config with hostBE := true } = true ∧ config.hasSwBE = true) ∧
    ¬(config.hostBE = true ∧ config.hasSwBE = true) ∧
    ¬(Config.hasHW { config with hasHW := false } = true ∧ config.fCrc = true ∧
      config.fClmul = true) ∧
    ¬(config.hostBE = false ∧ Config.hasSwLE { config with hasSwLE := false } = true) := by decide

theorem witness_PseudoInstructionsExpand :
    regNames[(0 : RegId).val]? = some "r0".toList ∧
    regNames[(15 : RegId).val]? = some "r15".toList := by decide

end Sys2Proof.Tests
end

section
/-! PROOFS. The laws of the checksum (00_scope.md R21, R22): linearity of the raw CRC, and the
accumulator threaded through a concatenation. -/

namespace Sys2Proof.Proofs

open Sys2Proof.Machine Sys2Proof.Laws

/-! ## Linearity of the raw CRC -/

/-- Zero-extension to a CRC state is linear. -/
theorem zext32_xor {n : Nat} (a b : BitVec n) : zext32 (a ^^^ b) = zext32 a ^^^ zext32 b :=
  BitVec.setWidth_xor

/-- One byte step is linear in the CRC and the byte together. -/
theorem crcbyte_xor (c1 c2 : Word32) (b1 b2 : Byte) :
    crcbyte (c1 ^^^ c2) (b1 ^^^ b2) = crcbyte c1 b1 ^^^ crcbyte c2 b2 := by
  have regroup : c1 ^^^ c2 ^^^ (zext32 b1 ^^^ zext32 b2) =
      c1 ^^^ zext32 b1 ^^^ (c2 ^^^ zext32 b2) := by ac_rfl
  simp only [crcbyte, zext32_xor, regroup, crcbit8_xor]

/-- The raw CRC is linear in the start value and the bytes together. -/
theorem crcraw_xor (c1 c2 : Word32) {bs1 bs2 : List Byte} (h : bs1.length = bs2.length) :
    crcraw (c1 ^^^ c2) (List.zipWith (· ^^^ ·) bs1 bs2) = crcraw c1 bs1 ^^^ crcraw c2 bs2 := by
  induction bs1 generalizing c1 c2 bs2 with
  | nil =>
    cases bs2 with
    | nil => rfl
    | cons b2 bs2 => simp at h
  | cons b1 bs1 ih =>
    cases bs2 with
    | nil => simp at h
    | cons b2 bs2 =>
      have tails : bs1.length = bs2.length := by simpa using h
      simp only [List.zipWith_cons_cons, crcraw, crcbyte_xor, ih _ _ tails]

/-- As many zero bytes are neutral for the bytewise XOR. -/
theorem zipWith_xor_replicate_zero (bs : List Byte) :
    List.zipWith (· ^^^ ·) (List.replicate bs.length 0) bs = bs := by
  induction bs with
  | nil => rfl
  | cons b bs ih => simpa [List.replicate_succ] using ih

/-- The raw CRC splits into the part of its start value and the part of its bytes: linearity at
zero bytes from `c` and `bs` from 0. -/
theorem crcraw_split (c : Word32) (bs : List Byte) :
    crcraw c bs = crcraw c (List.replicate bs.length 0) ^^^ crcraw 0 bs := by
  have h := crcraw_xor c 0 (bs1 := List.replicate bs.length 0) (bs2 := bs) List.length_replicate
  have start : c ^^^ 0 = c := BitVec.xor_zero
  rwa [start, zipWith_xor_replicate_zero] at h

/-- Settles O45: linearity over the two sequences, and its special case of zero bytes from `c1`. -/
theorem rawCrcIsLinear : Obligations.RawCrcIsLinear :=
  fun c1 c2 bs1 _ h => ⟨crcraw_xor c1 c2 h, crcraw_split c1 bs1⟩

/-! ## The checksum of a concatenation -/

/-- Threading the accumulator, from any accumulator: the inversion that ends one checksum cancels
the one that begins the next. -/
theorem crc32c_append (acc : Word32) (a b : List Byte) :
    crc32c acc (a ++ b) = crc32c (crc32c acc a) b := by
  simp only [crc32c, BitVec.not_not, crcraw_append]

/-- Settles O46: the concatenation law from accumulator 0. -/
theorem checksumOfConcatenation : Obligations.ChecksumOfConcatenation :=
  fun a b => (crc32c_append 0 a b).symm

end Sys2Proof.Proofs
end

section
/-! PROOFS. The invariant of the machine: each shared operation keeps it, so every command, every
operation of the host port and every step does (10_state.md R32 to R43). -/

namespace Sys2Proof.Proofs

open Sys2Proof.Machine Sys2Proof.Laws

/-! ## The shared operations keep the invariant -/

section
variable {s : State} (inv : s.Inv)
include inv

/-- The invariant says nothing of the model's own fields (assumption log 6). -/
theorem inv_bookkeeping (ops : List HostOp) (obs : List Observation) (j : Nat) :
    State.Inv { s with pending := ops, observed := obs, issuing := j } :=
  ⟨inv.cfg, inv.contexts, inv.legal, inv.feat, inv.engsel, inv.tables, inv.mem, inv.memMapped⟩

/-- Contexts may change as long as their number and the legality of their fault registers stay. -/
theorem inv_of_legal_contexts {cs : List Context} (length : cs.length = s.contexts.length)
    (legal : ∀ c ∈ cs, c.legal s.cfg = true) : State.Inv { s with contexts := cs } :=
  ⟨inv.cfg, length.trans inv.contexts, legal, inv.feat, inv.engsel, inv.tables, inv.mem,
    inv.memMapped⟩

theorem inv_writeDest (rd : RegId) (x : Word64) : (s.writeDest rd x).Inv := by
  refine inv_of_legal_contexts inv (List.length_modify _ _ _) fun c hc => ?_
  obtain ⟨d, hd, rfl | rfl⟩ := mem_writeDest hc
  · exact inv.legal _ hd
  · rw [setReg_legal]; exact inv.legal _ hd

theorem inv_faultEntry (j : Nat) (w : Word32) {k : Cause} {f : Word64}
    (info : infoLegal s.cfg k f = true) : (s.faultEntry j w k f).Inv := by
  refine inv_of_legal_contexts inv (List.length_modify _ _ _) fun c hc => ?_
  obtain ⟨d, hd, rfl | rfl⟩ := mem_faultEntry hc
  · exact inv.legal _ hd
  · exact legal_of_info w info

theorem inv_setCtx (j : Nat) {c : Context} (legal : c.legal s.cfg = true) :
    (s.setCtx j c).Inv := by
  refine inv_of_legal_contexts inv List.length_set fun d hd => ?_
  obtain hd | rfl := mem_setCtx hd
  · exact inv.legal _ hd
  · exact legal

theorem inv_build (v : Variant) : (s.build v).Inv where
  cfg := by simpa using inv.cfg
  contexts := by simpa using inv.contexts
  legal := by simpa using inv.legal
  feat := by simpa using inv.feat
  engsel := by simpa using inv.engsel
  tables u := by
    by_cases same : u = v
    · subst same
      exact .inl ⟨build_tvalid_same s u, build_table_same s u⟩
    · rw [State.tableLegal, build_tvalid_other s v same, build_table_other s v same]
      exact inv.tables u
  mem := by simpa using inv.mem
  memMapped := by simpa using inv.memMapped

theorem inv_ensureTable (v : Variant) : (s.ensureTable v).Inv := by
  cases valid : s.tvalid v
  · rw [ensureTable_of_invalid _ _ valid]; exact inv_build inv v
  · rwa [ensureTable_of_valid _ _ valid]

theorem inv_writeByte {a : Nat} (mapped : s.mapped a = true) (b : Byte) :
    (s.writeByte a b).Inv where
  cfg := inv.cfg
  contexts := inv.contexts
  legal := inv.legal
  feat := inv.feat
  engsel := inv.engsel
  tables := inv.tables
  mem := wf_put inv.mem a b
  memMapped p hp := by
    obtain new | old := mem_put hp
    · rw [new]; exact mapped
    · exact inv.memMapped p old

theorem inv_resetEngine : s.resetEngine.Inv where
  cfg := inv.cfg
  contexts := List.length_replicate
  legal c hc := by
    obtain rfl := List.eq_of_mem_replicate hc
    exact legal_reset _
  feat := rfl
  engsel := rfl
  tables v := .inr ⟨resetEngine_tvalid s v, resetEngine_table s v⟩
  mem := inv.mem
  memMapped := inv.memMapped

/-! ## Commands, operations of the host port, steps -/

theorem inv_of_done {dest : Option RegId} {t : State} (done : Done s dest t) : t.Inv := by
  cases done with
  | build v => exact inv_build inv v
  | write rd x => exact inv_writeDest inv rd x
  | update rd x v => exact inv_writeDest (inv_ensureTable inv v) rd x

theorem exec_keeps_inv {i : Instr} {t : State} (h : exec i s = .next t) : t.Inv := by
  obtain ⟨c, -, done | ⟨k, f, info, rfl⟩⟩ := exec_cases h
  · exact inv_of_done inv done
  · exact inv_faultEntry inv _ _ (info inv.cfg)

theorem inv_of_performed {op : HostOp} {t : State} (done : Performed s op t) : t.Inv := by
  cases done with
  | writeReg j r v c hc =>
    refine inv_setCtx inv j ?_
    rw [setReg_legal]; exact inv.legal c (mem_of_ctx? hc)
  | illegal j w => exact inv_faultEntry inv j w rfl
  | command j w c i t _ _ _ ran =>
    exact exec_keeps_inv (inv_bookkeeping inv s.pending s.observed j) ran
  | writeMem a b mapped => exact inv_writeByte inv mapped b
  | reset => exact inv_resetEngine inv
  | refused => exact inv
  | readReg | readStatus | readFeat | readEngsel => exact inv_bookkeeping inv _ _ _

theorem step_keeps_inv {t : State} (h : step s = .next t) : t.Inv := by
  obtain ⟨-, rfl⟩ | ⟨op, rest, -, done⟩ := step_cases h
  · exact inv
  · exact inv_of_performed (inv_bookkeeping inv rest s.observed s.issuing) done

end

/-- Settles O14: `step_cases` says what a step can do, and each of those operations keeps the
invariant. -/
theorem stepKeepsTheInvariant : Obligations.StepKeepsTheInvariant :=
  fun _ _ inv h => step_keeps_inv inv h

end Sys2Proof.Proofs
end

section
/-! PROOFS. The operations of the host port, one equation per step (10_state.md R47 to R51). -/

namespace Sys2Proof.Proofs

open Sys2Proof.Machine Sys2Proof.Laws

/-! ## One step, operation by operation -/

/-- With no operation pending a step changes nothing (R178). -/
theorem step_of_idle {s : State} (queue : s.pending = []) : step s = .next s := by
  simp [step, performNext, queue]

section
variable {s : State} {rest : List HostOp}

/-- A step with an operation pending takes it from the queue and performs it. -/
theorem step_of_pending {op : HostOp} (queue : s.pending = op :: rest) :
    step s = perform op { s with pending := rest } := by
  simp [step, performNext, queue]

theorem step_readFeat (queue : s.pending = .readFeat :: rest) :
    step s = .next (State.observe { s with pending := rest } (.feat s.feat)) :=
  step_of_pending queue

theorem step_readEngsel (queue : s.pending = .readEngsel :: rest) :
    step s = .next (State.observe { s with pending := rest } (.engsel s.engsel)) :=
  step_of_pending queue

variable {a : Word64} {b : Byte}

theorem step_writeMem_of_mapped (queue : s.pending = .writeMem a b :: rest)
    (mapped : s.mapped a.toNat = true) :
    step s = .next (State.writeByte { s with pending := rest } a.toNat b) := by
  rw [step_of_pending queue]
  simp [perform, hostWriteMem, mapped]

theorem step_writeMem_of_unmapped (queue : s.pending = .writeMem a b :: rest)
    (unmapped : s.mapped a.toNat = false) : step s = .refused .writeMemUnmapped := by
  rw [step_of_pending queue]
  simp [perform, hostWriteMem, unmapped]

variable {j : Nat} {c : Context} {r : RegId} {v : Word64} {w : Word32} {i : Instr}

theorem step_writeReg (queue : s.pending = .writeReg j r v :: rest) (hc : s.ctx? j = some c) :
    step s = .next (State.setCtx { s with pending := rest } j (c.setReg r v)) := by
  rw [step_of_pending queue]
  simp [perform, hostWriteReg, hc]

theorem step_readReg_of_value (queue : s.pending = .readReg j r :: rest)
    (hc : s.ctx? j = some c) (value : c.reg r = some v) :
    step s = .next (State.observe { s with pending := rest } (.reg j r v)) := by
  rw [step_of_pending queue]
  simp [perform, hostReadReg, hc, value]

theorem step_readReg_of_none (queue : s.pending = .readReg j r :: rest)
    (hc : s.ctx? j = some c) (noValue : c.reg r = none) :
    step s = .refused .readRegWithoutValue := by
  rw [step_of_pending queue]
  simp [perform, hostReadReg, hc, noValue]

theorem step_readStatus (queue : s.pending = .readStatus j :: rest) (hc : s.ctx? j = some c) :
    step s = .next
      (State.observe { s with pending := rest } (.status j c.status c.fcmd c.faddr)) := by
  rw [step_of_pending queue]
  simp [perform, hostReadStatus, hc]

/-- An ISSUE of a legal word to a context that is not faulted is its command's `exec` (R51). -/
theorem step_issue_of_legal (queue : s.pending = .issue j w :: rest) (hc : s.ctx? j = some c)
    (running : c.faulted = false) (legal : decode w = .ok i) :
    step s = exec i { s with pending := rest, issuing := j } := by
  rw [step_of_pending queue]
  simp [perform, hostIssue, hc, running, legal]

end

/-! ## Memory as the host reads it -/

theorem readByte_of_mapped {s : State} {a : Nat} (mapped : s.mapped a = true) :
    s.readByte a = some (s.byteAt a) := by
  simp [State.readByte, mapped]

theorem readByte_writeByte_same {s : State} (canonical : Memory.wf s.cfg.fill s.mem = true)
    {a : Nat} (mapped : s.mapped a = true) (b : Byte) :
    (s.writeByte a b).readByte a = some b := by
  have mapped' : (s.writeByte a b).mapped a = true := mapped
  rw [readByte_of_mapped mapped', byteAt_writeByte_same canonical]

theorem readByte_writeByte_other (s : State) {a x : Nat} (b : Byte) (h : x ≠ a) :
    (s.writeByte a b).readByte x = s.readByte x := by
  simp [State.readByte, byteAt_writeByte_other s b h]

/-! ## The statements -/

/-- Settles O6: a step with a legal ISSUE at the head of the queue, and a step with none. -/
theorem stepRunsTheIssuedCommand : Obligations.StepRunsTheIssuedCommand :=
  ⟨fun _ _ _ _ _ _ queue hc running legal => step_issue_of_legal queue hc running legal,
    fun _ => step_of_idle⟩

/-- Settles O8: the laws of one register write, in the one context that is replaced. -/
theorem writeRegSetsTheRegister : Obligations.WriteRegSetsTheRegister := by
  intro s j r v rest c queue hc
  refine ⟨_, c.setReg r v, step_writeReg queue hc, setCtx_ctx?_same hc _, reg_setReg_same c v, ?_,
    fun q => reg_setReg_other c v, setReg_status c r v, setReg_fcmd c r v, setReg_faddr c r v,
    fun k => setCtx_ctx?_other _ _, rfl⟩
  rintro rfl
  exact setReg_zero c v

/-- Settles O9: each read is one observation of the state before it. -/
theorem hostReadsReturnTheState : Obligations.HostReadsReturnTheState := by
  intro s op rest queue
  refine ⟨?_, ?_, ?_, ?_⟩
  · rintro j r c rfl hc
    exact ⟨fun v => step_readReg_of_value queue hc, step_readReg_of_none queue hc⟩
  · rintro j c rfl hc
    exact step_readStatus queue hc
  · rintro rfl
    exact step_readFeat queue
  · rintro rfl
    exact step_readEngsel queue

/-- Settles O10: read after write, the frame and the canonical form of one byte written. -/
theorem writeMemSetsOneMappedByte : Obligations.WriteMemSetsOneMappedByte := by
  intro s a b rest queue canonical
  refine ⟨fun mapped => ?_, step_writeMem_of_unmapped queue⟩
  exact ⟨_, step_writeMem_of_mapped queue mapped, readByte_writeByte_same canonical mapped b,
    fun x => readByte_writeByte_other _ b, wf_put canonical _ _, rfl⟩

end Sys2Proof.Proofs
end

section
/-! PROOFS. What no operation but RESET changes: FEAT and ENGSEL (10_state.md R38, R40), and a table
once it is built (R43). -/

namespace Sys2Proof.Proofs

open Sys2Proof.Machine Sys2Proof.Laws

/-- Inversion of a step whose operation is known. -/
theorem performed_of_step {s t : State} {op : HostOp} {rest : List HostOp}
    (queue : s.pending = op :: rest) (h : step s = .next t) :
    Performed { s with pending := rest } op t :=
  perform_cases ((step_of_pending queue).symm.trans h)

theorem isReset_iff {op : HostOp} : isReset op = true ↔ op = .reset := by
  cases op <;> simp [isReset]

/-! ## FEAT, ENGSEL and the parameters -/

/-- The parameters, FEAT and ENGSEL are those of the state before. -/
def SameBinding (s t : State) : Prop := t.cfg = s.cfg ∧ t.feat = s.feat ∧ t.engsel = s.engsel

section
variable {s t : State}

theorem done_keeps_binding {dest : Option RegId} (done : Done s dest t) : SameBinding s t := by
  cases done with
  | build v => exact ⟨build_cfg s v, build_feat s v, build_engsel s v⟩
  | write => exact ⟨rfl, rfl, rfl⟩
  | update rd x v => exact ⟨ensureTable_cfg s v, ensureTable_feat s v, ensureTable_engsel s v⟩

theorem exec_keeps_binding {i : Instr} (h : exec i s = .next t) : SameBinding s t := by
  obtain ⟨c, -, done | ⟨k, f, -, rfl⟩⟩ := exec_cases h
  · exact done_keeps_binding done
  · exact ⟨rfl, rfl, rfl⟩

theorem performed_keeps_binding {op : HostOp} (done : Performed s op t)
    (notReset : isReset op = false) : SameBinding s t := by
  cases done with
  | command j w c i t _ _ _ ran => exact exec_keeps_binding (s := { s with issuing := j }) ran
  | reset => cases notReset
  | writeReg | readReg | refused | illegal | readStatus | readFeat | readEngsel | writeMem =>
    exact ⟨rfl, rfl, rfl⟩

/-- RESET sets FEAT and ENGSEL to what the invariant says they hold already. -/
theorem resetEngine_keeps_binding (inv : s.Inv) : SameBinding s s.resetEngine :=
  ⟨rfl, inv.feat.symm, by rw [resetEngine_engsel, inv.engsel, inv.feat]⟩

end

/-- Settles O16: RESET writes FEAT and ENGSEL, and no other operation does. -/
theorem bindingNeverChanges : Obligations.BindingNeverChanges := by
  intro s t op rest queue h
  have done := performed_of_step queue h
  cases isRst : isReset op
  case false =>
    obtain ⟨cfg, binding⟩ := performed_keeps_binding done isRst
    exact ⟨fun _ => binding, nofun, fun _ => binding, cfg⟩
  case true =>
    obtain rfl := isReset_iff.mp isRst
    cases done
    exact ⟨nofun, fun _ => ⟨rfl, rfl⟩, fun inv => (resetEngine_keeps_binding inv).2, rfl⟩

/-! ## The tables -/

/-- TVALID[v] is 1 and TABLE[v] is that of the state before. -/
def StaysBuilt (v : Variant) (s t : State) : Prop := t.tvalid v = true ∧ t.table v = s.table v

section
variable {s t : State} {v : Variant} (legal : s.tableLegal v) (valid : s.tvalid v = true)
include legal valid

/-- Building a table that is built already writes what it holds; building the other leaves it. -/
theorem build_staysBuilt (u : Variant) : StaysBuilt v s (s.build u) := by
  by_cases same : v = u
  · subst same
    exact ⟨build_tvalid_same s v, by rw [build_table_same, table_of_valid legal valid]⟩
  · exact ⟨by rw [build_tvalid_other s u same, valid], build_table_other s u same⟩

theorem ensureTable_staysBuilt (u : Variant) : StaysBuilt v s (s.ensureTable u) := by
  cases hu : s.tvalid u
  · rw [ensureTable_of_invalid _ _ hu]; exact build_staysBuilt legal valid u
  · rw [ensureTable_of_valid _ _ hu]; exact ⟨valid, rfl⟩

theorem done_staysBuilt {dest : Option RegId} (done : Done s dest t) : StaysBuilt v s t := by
  cases done with
  | build u => exact build_staysBuilt legal valid u
  | write => exact ⟨valid, rfl⟩
  | update rd x u => exact ensureTable_staysBuilt legal valid u

theorem exec_staysBuilt {i : Instr} (h : exec i s = .next t) : StaysBuilt v s t := by
  obtain ⟨c, -, done | ⟨k, f, -, rfl⟩⟩ := exec_cases h
  · exact done_staysBuilt legal valid done
  · exact ⟨valid, rfl⟩

theorem performed_staysBuilt {op : HostOp} (done : Performed s op t)
    (notReset : isReset op = false) : StaysBuilt v s t := by
  cases done with
  | command j w c i t _ _ _ ran =>
    exact exec_staysBuilt (s := { s with issuing := j }) legal valid ran
  | reset => cases notReset
  | writeReg | readReg | refused | illegal | readStatus | readFeat | readEngsel | writeMem =>
    exact ⟨valid, rfl⟩

end

/-- No operation of the host port but ISSUE and RESET touches a table. -/
theorem performed_keeps_tables {s t : State} {op : HostOp} (done : Performed s op t)
    (notIssue : ∀ j w, op ≠ .issue j w) (notReset : isReset op = false) (v : Variant) :
    t.table v = s.table v ∧ t.tvalid v = s.tvalid v := by
  cases done with
  | refused j w | illegal j w | command j w => exact absurd rfl (notIssue j w)
  | reset => cases notReset
  | writeReg | readReg | readStatus | readFeat | readEngsel | writeMem => exact ⟨rfl, rfl⟩

/-- A table that holds a value holds its built contents. -/
theorem table_eq_builtTable {s : State} {v : Variant} (legal : s.tableLegal v) {T : Table}
    (h : s.table v = some T) : T = builtTable := by
  rcases legal with ⟨-, built⟩ | ⟨-, unbuilt⟩
  · exact Option.some.inj (h.symm.trans built)
  · cases h.symm.trans unbuilt

/-- Settles O17: the second clause is the invariant after the step, the third that a build writes the
one built table. -/
theorem builtTableIsConstantUntilReset : Obligations.BuiltTableIsConstantUntilReset := by
  intro s t op rest v inv queue h
  have done := performed_of_step queue h
  exact ⟨fun notIssue notReset => performed_keeps_tables done notIssue notReset v,
    fun T => table_eq_builtTable ((step_keeps_inv inv h).tables v),
    fun notReset valid => performed_staysBuilt (s := { s with pending := rest }) (inv.tables v)
      valid done notReset⟩

end Sys2Proof.Proofs
end

section
/-! PROOFS. Which fault a command takes (60_exceptions.md R160): the checks of `firstFault`, one
after the other, are the checks of the command's rule. From it, R0 as a destination (10_state.md
R27). -/

namespace Sys2Proof.Proofs

open Sys2Proof.Machine Sys2Proof.Laws

/-! ## FEAT and ENGSEL as the checks read them -/

theorem getLsbD_bitAt (b : Bool) {n : Nat} (k : Nat) (h : n < 32) :
    (bitAt b n).getLsbD k = (k == n && b) := by
  cases b
  · simp [bitAt]
  · rw [bitAt, if_pos rfl, BitVec.getLsbD_shiftLeft, BitVec.getLsbD_one, Bool.eq_iff_iff]
    simp only [Bool.and_eq_true, Bool.not_eq_true', decide_eq_true_eq, decide_eq_false_iff_not,
      beq_iff_eq, and_true]
    omega

/-- The layout of FEAT (R37). -/
theorem getLsbD_featOf (c : Config) (k : Nat) : (featOf c).getLsbD k =
    ((k == 0 && c.fCrc) || (k == 1 && c.fClmul) || (k == 2 && c.hostBE) ||
      (k == 8 && c.hasSwLE) || (k == 9 && c.hasSwBE) || (k == 10 && c.hasHW)) := by
  simp only [featOf, BitVec.getLsbD_or, getLsbD_bitAt, Nat.reduceLT]

@[simp] theorem fCrc_featOf (c : Config) : Feat.fCrc (featOf c) = c.fCrc :=
  (getLsbD_featOf c 0).trans (by simp)

@[simp] theorem fClmul_featOf (c : Config) : Feat.fClmul (featOf c) = c.fClmul :=
  (getLsbD_featOf c 1).trans (by simp)

@[simp] theorem hasSwLE_featOf (c : Config) : Feat.hasSwLE (featOf c) = c.hasSwLE :=
  (getLsbD_featOf c 8).trans (by simp)

@[simp] theorem hasSwBE_featOf (c : Config) : Feat.hasSwBE (featOf c) = c.hasSwBE :=
  (getLsbD_featOf c 9).trans (by simp)

@[simp] theorem hasHW_featOf (c : Config) : Feat.hasHW (featOf c) = c.hasHW :=
  (getLsbD_featOf c 10).trans (by simp)

section
variable {s : State} (feat : s.feat = featOf s.cfg)
include feat

/-! Availability, from the parameters (43_dispatcher.md R134). -/

theorem hwAvailable_feat :
    Feat.hwAvailable s.feat = (s.cfg.hasHW && s.cfg.fCrc && s.cfg.fClmul) := by
  simp [Feat.hwAvailable, feat]

theorem crcAvailable_feat : Feat.crcAvailable s.feat = (s.cfg.hasHW && s.cfg.fCrc) := by
  simp [Feat.crcAvailable, feat]

theorem clmulAvailable_feat : Feat.clmulAvailable s.feat = (s.cfg.hasHW && s.cfg.fClmul) := by
  simp [Feat.clmulAvailable, feat]

theorem swAvailable_le_feat : Feat.swAvailable .le s.feat = s.cfg.hasSwLE := by
  simp [Feat.swAvailable, feat]

theorem swAvailable_be_feat : Feat.swAvailable .be s.feat = s.cfg.hasSwBE := by
  simp [Feat.swAvailable, feat]

end

theorem bind_engselOf (b : Binding) (e : Bool) : Engsel.bind (engselOf b e) = b := by
  cases b <;> cases e <;> decide

/-- Is the engine of a binding available (43_dispatcher.md R134)? -/
def bindingAvailable (feat : Word32) : Binding → Bool
  | .none => true
  | .swLE => Feat.swAvailable .le feat
  | .swBE => Feat.swAvailable .be feat
  | .hw => Feat.hwAvailable feat

/-- The selection binds an engine that is available (R129). -/
theorem select_binds_available (feat : Word32) :
    bindingAvailable feat (Engsel.bind (select feat)) = true := by
  unfold select
  split
  · next hw => rw [bind_engselOf]; exact hw
  split
  · next sw => rw [bind_engselOf]; exact (Bool.and_eq_true_iff.mp sw).2
  split
  · next sw => rw [bind_engselOf]; exact (Bool.and_eq_true_iff.mp sw).2
  · rw [bind_engselOf]; rfl

/-! ## The checks of `firstFault`, each with what comes after it -/

/-- A cause with what FADDR records, or none. -/
abbrev FaultReport := Option (Cause × Word64)

/-- Point 3 of R160 for a command that names its engine (R134, R153). -/
def engineCheck (available : Bool) (later : FaultReport) : FaultReport :=
  if available then later else some (.engineAbsent, 0)

/-- The first source register without a value (R154). -/
def sourcesCheck (c : Context) (rs : List RegId) (later : FaultReport) : FaultReport :=
  match rs.find? fun r => (c.reg r).isNone with
  | some r => some (.undefOperand, BitVec.ofNat 64 r.val)
  | none => later

/-- The table a command needs built (R155). -/
def tableCheck (s : State) (needed : Option Variant) (later : FaultReport) : FaultReport :=
  if needed.any fun v => !s.tvalid v then some (.tableInvalid, 0) else later

/-- The range and existence of the bytes a command reads (R156, R157). -/
def rangeCheck (s : State) : Option (Word64 × Nat) → FaultReport
  | none => none
  | some (a, n) =>
    if 2 ^ s.cfg.addrW ≤ a.toNat ∨ 2 ^ s.cfg.addrW < a.toNat + n then some (.rangeFault, a)
    else
      match (List.range' a.toNat n).find? fun x => !s.mapped x with
      | some u => some (.memFault, BitVec.ofNat 64 u)
      | none => none

/-- `firstFault` is those checks in a row, after the binding of the dispatched UPDATE. -/
theorem firstFault_eq (i : Instr) (s : State) (c : Context) : firstFault i s c =
    if i.isDispatched && Engsel.bind s.engsel == .none then some (.configError, 0)
    else engineCheck (i.availableIn s.cfg) (sourcesCheck c i.sources
      (tableCheck s i.tableNeeded (rangeCheck s (rangeOf i c)))) := by
  unfold firstFault engineCheck sourcesCheck tableCheck rangeCheck
  cases i.availableIn s.cfg <;> rfl

/-! ## Rules that report exactly such a check -/

/-- A rule's answer is what a report says: that cause raised, or completion. -/
def Reports : FaultReport → Except Stop State → Prop
  | some (k, f), x => x = .error (.raised k f)
  | none, x => ∃ t, x = .ok t

section
variable {s : State} {c : Context} {later : FaultReport}

theorem requireEngine_reports {available : Bool} {k : Except Stop State}
    (h : Reports later k) :
    Reports (engineCheck available later) (requireEngine available k) := by
  cases available
  · rfl
  · exact h

theorem source_reports {r : RegId} {rs : List RegId} {k : Word64 → Except Stop State}
    (h : ∀ x, c.reg r = some x → Reports (sourcesCheck c rs later) (k x)) :
    Reports (sourcesCheck c (r :: rs) later) (source c r k) := by
  cases value : c.reg r with
  | none =>
    rw [source_of_none value, sourcesCheck, List.find?_cons_of_pos (by simp [value])]
    rfl
  | some x =>
    rw [source_of_value value, sourcesCheck, List.find?_cons_of_neg (by simp [value])]
    exact h x value

/-- A table that is needed and valid is the built one, so the rule does not stop. -/
theorem requireTable_reports {v : Variant} (legal : s.tableLegal v)
    {k : Table → Except Stop State} (h : Reports later (k builtTable)) :
    Reports (tableCheck s (some v) later) (requireTable s v k) := by
  cases valid : s.tvalid v
  · rw [requireTable_of_invalid valid]
    simp [tableCheck, valid, Reports]
  · rw [requireTable_of_valid valid (table_of_valid legal valid)]
    simpa [tableCheck, valid] using h

/-- The lowest unmapped address is the first one of the range that the search finds. -/
theorem firstUnmapped_eq_find? (a n : Nat) :
    s.firstUnmapped a n = (List.range' a n).find? fun x => !s.mapped x := by
  induction n generalizing a with
  | zero => rfl
  | succ n ih =>
    rw [State.firstUnmapped, List.range'_succ, ih]
    cases mapped : s.mapped a <;> simp [mapped]

theorem outOfRange_iff {a n : Nat} :
    s.outOfRange a n = true ↔ 2 ^ s.cfg.addrW ≤ a ∨ 2 ^ s.cfg.addrW < a + n := by
  simp [State.outOfRange]

theorem requireRange_reports {a : Word64} {n : Nat} {k : Except Stop State}
    (h : Reports none k) : Reports (rangeCheck s (some (a, n))) (requireRange s a n k) := by
  simp only [rangeCheck]
  cases out : s.outOfRange a.toNat n
  case true =>
    rw [requireRange_of_outOfRange out, if_pos (outOfRange_iff.mp out)]
    rfl
  case false =>
    rw [if_neg fun outside => by simp [outOfRange_iff.mpr outside] at out,
      ← firstUnmapped_eq_find?]
    cases unmapped : s.firstUnmapped a.toNat n with
    | some u => exact requireRange_of_unmapped out unmapped k
    | none => rwa [requireRange_of_readable out unmapped]

theorem ok_reports (t : State) : Reports none (.ok t) := ⟨t, rfl⟩

/-! ## The rules that several commands share -/

/-- The bytes an update reads, where its address and length registers hold values. -/
theorem rangeOf_of_length {i : Instr} {ra rn : RegId} (reads : i.reads = some (ra, .inl rn))
    {a len : Word64} (ha : c.reg ra = some a) (hn : c.reg rn = some len) :
    rangeOf i c = some (a, len.toNat) := by
  simp [rangeOf, reads, ha, hn]

/-- The bytes a load reads, where its address register holds a value. -/
theorem rangeOf_of_size {i : Instr} {ra : RegId} {n : Nat} (reads : i.reads = some (ra, .inr n))
    {a : Word64} (ha : c.reg ra = some a) : rangeOf i c = some (a, n) := by
  simp [rangeOf, reads, ha]

theorem updateSWRule_reports {i : Instr} {rs2 rs3 : RegId} (reads : i.reads = some (rs2, .inl rs3))
    {v : Variant} {available : Bool} (engine : Feat.swAvailable v s.feat = available)
    (legal : s.tableLegal v) (rd rs1 : RegId) :
    Reports (engineCheck available (sourcesCheck c [rs1, rs2, rs3] (rangeCheck s (rangeOf i c))))
      (updateSWRule v rd rs1 rs2 rs3 s c) := by
  subst engine
  refine requireEngine_reports <| source_reports fun acc _ => source_reports fun a ha =>
    source_reports fun len hn => ?_
  rw [rangeOf_of_length reads ha hn]
  refine requireRange_reports ?_
  rw [tableOf, ensureTable_table legal]
  exact ok_reports _

theorem updateHWRule_reports {i : Instr} {rs2 rs3 : RegId} (reads : i.reads = some (rs2, .inl rs3))
    {available : Bool} (engine : Feat.hwAvailable s.feat = available) (rd rs1 : RegId) :
    Reports (engineCheck available (sourcesCheck c [rs1, rs2, rs3] (rangeCheck s (rangeOf i c))))
      (updateHWRule rd rs1 rs2 rs3 s c) := by
  subst engine
  refine requireEngine_reports <| source_reports fun acc _ => source_reports fun a ha =>
    source_reports fun len hn => ?_
  rw [rangeOf_of_length reads ha hn]
  exact requireRange_reports (ok_reports _)

theorem loadRule_reports {i : Instr} {rs1 : RegId} {n : Nat} (reads : i.reads = some (rs1, .inr n))
    (order : List Byte → Word64) (rd : RegId) :
    Reports (sourcesCheck c [rs1] (rangeCheck s (rangeOf i c)))
      (loadRule order n rd rs1 s c) := by
  refine source_reports fun a ha => ?_
  rw [rangeOf_of_size reads ha]
  exact requireRange_reports (ok_reports _)

theorem treadRule_reports {v : Variant} (legal : s.tableLegal v) (rd rs1 : RegId) :
    Reports (sourcesCheck c [rs1] (tableCheck s (some v) none)) (treadRule v rd rs1 s c) :=
  source_reports fun _ _ => requireTable_reports legal (ok_reports _)

theorem tstepRule_reports {v : Variant} (legal : s.tableLegal v) (rd rs1 rs2 : RegId) :
    Reports (sourcesCheck c [rs1, rs2] (tableCheck s (some v) none))
      (tstepRule v rd rs1 rs2 s c) :=
  source_reports fun _ _ => source_reports fun _ _ => requireTable_reports legal (ok_reports _)

theorem tsliceRule_reports {v : Variant} (legal : s.tableLegal v) (rd rs1 rs2 : RegId) :
    Reports (sourcesCheck c [rs1, rs2] (tableCheck s (some v) none))
      (tsliceRule v rd rs1 rs2 s c) :=
  source_reports fun _ _ => source_reports fun _ _ => requireTable_reports legal (ok_reports _)

theorem crcStepRule_reports {available : Bool} (engine : Feat.crcAvailable s.feat = available)
    (step : Word32 → Word64 → Word32) (rd rs1 rs2 : RegId) :
    Reports (engineCheck available (sourcesCheck c [rs1, rs2] none))
      (crcStepRule step rd rs1 rs2 s c) := by
  subst engine
  exact requireEngine_reports <| source_reports fun _ _ => source_reports fun _ _ => ok_reports _

theorem foldRule_reports {available : Bool} (engine : Feat.hwAvailable s.feat = available)
    (k : Word32) (rd rs1 : RegId) :
    Reports (engineCheck available (sourcesCheck c [rs1] none)) (foldRule k rd rs1 s c) := by
  subst engine
  exact requireEngine_reports <| source_reports fun _ _ => ok_reports _

end

/-! ## Every command -/

/-- The command answers, on context `c`, what `firstFault` says: it runs a rule that reports it. -/
def AnswersFirstFault (i : Instr) (s : State) (c : Context) : Prop :=
  ∃ rule, exec i s = command i s rule ∧ Reports (firstFault i s c) (rule c)

/-- What is left to show of a command other than the dispatched UPDATE. -/
theorem answersFirstFault_of_reports {i : Instr} {s : State} {c : Context}
    {rule : Context → Except Stop State} (plain : i.isDispatched = false)
    (runs : exec i s = command i s rule)
    (reports : Reports (engineCheck (i.availableIn s.cfg) (sourcesCheck c i.sources
      (tableCheck s i.tableNeeded (rangeCheck s (rangeOf i c))))) (rule c)) :
    AnswersFirstFault i s c :=
  ⟨rule, runs, by rw [firstFault_eq, plain]; exact reports⟩

section
variable {s : State} (inv : s.Inv) (c : Context)
include inv

/-- The dispatched UPDATE: the bound engine is available, so its own check of it passes. -/
theorem update_answersFirstFault (rd rs1 rs2 rs3 : RegId) :
    AnswersFirstFault (.update rd rs1 rs2 rs3) s c := by
  have available := select_binds_available s.feat
  rw [← inv.engsel] at available
  refine ⟨_, rfl, ?_⟩
  rw [firstFault_eq]
  cases bound : Engsel.bind s.engsel <;> rw [bound] at available
  case none => rfl
  case swLE =>
    exact updateSWRule_reports (i := .update rd rs1 rs2 rs3) (v := .le) rfl available
      (inv.tables .le) rd rs1
  case swBE =>
    exact updateSWRule_reports (i := .update rd rs1 rs2 rs3) (v := .be) rfl available
      (inv.tables .be) rd rs1
  case hw => exact updateHWRule_reports (i := .update rd rs1 rs2 rs3) rfl available rd rs1

/-- R160: the checks of each command's rule are those of `firstFault`, in its order. -/
theorem exec_answersFirstFault (i : Instr) : AnswersFirstFault i s c := by
  have le := inv.tables .le
  have be := inv.tables .be
  have hw := hwAvailable_feat inv.feat
  have crc := crcAvailable_feat inv.feat
  cases i with
  | update rd rs1 rs2 rs3 => exact update_answersFirstFault inv c rd rs1 rs2 rs3
  | select rd =>
    exact answersFirstFault_of_reports (rule := fun _ => .ok (s.writeDest rd (zext64 s.engsel)))
      rfl rfl (ok_reports _)
  | tbuildLE =>
    exact answersFirstFault_of_reports (rule := fun _ => .ok (s.build .le)) rfl rfl (ok_reports _)
  | tbuildBE =>
    exact answersFirstFault_of_reports (rule := fun _ => .ok (s.build .be)) rfl rfl (ok_reports _)
  | treadLE rd rs1 =>
    exact answersFirstFault_of_reports rfl rfl (treadRule_reports le rd rs1)
  | treadBE rd rs1 =>
    exact answersFirstFault_of_reports rfl rfl (treadRule_reports be rd rs1)
  | updateSWLE rd rs1 rs2 rs3 =>
    exact answersFirstFault_of_reports rfl rfl
      (updateSWRule_reports rfl (swAvailable_le_feat inv.feat) le rd rs1)
  | updateSWBE rd rs1 rs2 rs3 =>
    exact answersFirstFault_of_reports rfl rfl
      (updateSWRule_reports rfl (swAvailable_be_feat inv.feat) be rd rs1)
  | updateHW rd rs1 rs2 rs3 =>
    exact answersFirstFault_of_reports rfl rfl (updateHWRule_reports rfl hw rd rs1)
  | crc32cb rd rs1 rs2 | crc32ch rd rs1 rs2 | crc32cw rd rs1 rs2 | crc32cx rd rs1 rs2 =>
    exact answersFirstFault_of_reports rfl rfl (crcStepRule_reports crc _ rd rs1 rs2)
  | clmul rd rs1 rs2 =>
    refine answersFirstFault_of_reports rfl rfl ?_
    rw [clmulAvailable_feat inv.feat]
    exact requireEngine_reports <| source_reports fun _ _ => source_reports fun _ _ => ok_reports _
  | foldk1 rd rs1 | foldk2 rd rs1 =>
    exact answersFirstFault_of_reports rfl rfl (foldRule_reports hw _ rd rs1)
  | tstepLE rd rs1 rs2 =>
    exact answersFirstFault_of_reports rfl rfl (tstepRule_reports le rd rs1 rs2)
  | tstepBE rd rs1 rs2 =>
    exact answersFirstFault_of_reports rfl rfl (tstepRule_reports be rd rs1 rs2)
  | tsliceLE rd rs1 rs2 =>
    exact answersFirstFault_of_reports rfl rfl (tsliceRule_reports le rd rs1 rs2)
  | tsliceBE rd rs1 rs2 =>
    exact answersFirstFault_of_reports rfl rfl (tsliceRule_reports be rd rs1 rs2)
  | xor rd rs1 rs2 =>
    exact answersFirstFault_of_reports rfl rfl
      (source_reports fun _ _ => source_reports fun _ _ => ok_reports _)
  | inv rd rs1 =>
    exact answersFirstFault_of_reports rfl rfl (source_reports fun _ _ => ok_reports _)
  | ldleB rd rs1 | ldleH rd rs1 | ldleW rd rs1 | ldleX rd rs1
  | ldbeB rd rs1 | ldbeH rd rs1 | ldbeW rd rs1 | ldbeX rd rs1 =>
    exact answersFirstFault_of_reports rfl rfl (loadRule_reports rfl _ rd)

/-- A command to which a cause applies takes that fault, in the state before it (R158, R160). -/
theorem exec_of_firstFault {i : Instr} {c : Context} (hc : s.ctx? s.issuing = some c) {k : Cause}
    {f : Word64} (first : firstFault i s c = some (k, f)) :
    exec i s = .next (s.faultEntry s.issuing (encode i) k f) := by
  obtain ⟨rule, runs, reports⟩ := exec_answersFirstFault inv c i
  rw [first] at reports
  exact runs.trans (command_of_raised hc reports)

end

/-! ## R0 as a destination -/

/-- A result written to R0 is discarded. -/
theorem writeDest_zero (s : State) (x : Word64) : s.writeDest 0 x = s :=
  congrArg (fun cs => { s with contexts := cs }) (List.modify_id s.issuing s.contexts)

theorem ensureTable_ctx? (s : State) (v : Variant) (j : Nat) :
    (s.ensureTable v).ctx? j = s.ctx? j := by
  simp [State.ctx?]

/-- A command that completes with destination R0 leaves every context as it was. -/
theorem done_dest_zero_ctx? {s t : State} (done : Done s (some 0) t) (j : Nat) :
    t.ctx? j = s.ctx? j := by
  cases done with
  | write rd x => rw [writeDest_zero]
  | update rd x v => rw [writeDest_zero, ensureTable_ctx?]

/-- With destination R0, neither completing nor a fault writes a register. -/
theorem exec_dest_zero_keeps_regs {i : Instr} {s t : State} {c d : Context}
    (dest : i.dest = some 0) (h : exec i s = .next t) (hc : s.ctx? s.issuing = some c)
    (hd : t.ctx? s.issuing = some d) : d.regs = c.regs := by
  obtain ⟨-, -, done | ⟨k, f, -, rfl⟩⟩ := exec_cases h
  · rw [dest] at done
    rw [done_dest_zero_ctx? done, hc] at hd
    rw [Option.some.inj hd]
  · rw [faultEntry_ctx?_same hc] at hd
    rw [← Option.some.inj hd]

/-- Settles O22: the register laws of R0, what a destination of R0 leaves, and the first fault. -/
theorem registerZeroIsHardwired : Obligations.RegisterZeroIsHardwired :=
  ⟨fun c v => ⟨reg_zero c, setReg_zero c v⟩,
    fun _ _ _ _ _ dest h hc hd => exec_dest_zero_keeps_regs dest h hc hd,
    fun _ _ _ _ _ inv _ hc first => exec_of_firstFault inv hc first⟩

end Sys2Proof.Proofs
end

section
/-! PROOFS. What a command leaves as it was outside its own context, and who writes memory
(10_state.md R38, R40; 20_memory.md R54; 60_exceptions.md R168). -/

namespace Sys2Proof.Proofs

open Sys2Proof.Machine Sys2Proof.Laws

/-! ## What is left as it was -/

/-- Memory holds what it held, and reads as it read. -/
def SameMemory (s t : State) : Prop := t.mem = s.mem ∧ ∀ a, t.readByte a = s.readByte a

/-- The host's queue, the record of its reads and the issuing number are as before. -/
def SamePort (s t : State) : Prop :=
  t.pending = s.pending ∧ t.observed = s.observed ∧ t.issuing = s.issuing

/-- There are as many contexts, and all but the issuing one are those of the state before. -/
def SameOtherContexts (s t : State) : Prop :=
  t.contexts.length = s.contexts.length ∧ ∀ j, j ≠ s.issuing → t.ctx? j = s.ctx? j

section
variable {s t : State}

/-! ## Commands -/

theorem build_ctx? (s : State) (v : Variant) (j : Nat) : (s.build v).ctx? j = s.ctx? j := by
  simp [State.ctx?]

theorem done_keeps_memory {dest : Option RegId} (done : Done s dest t) : SameMemory s t := by
  cases done with
  | build v => exact ⟨build_mem s v, congrFun (build_readByte s v)⟩
  | write => exact ⟨rfl, fun _ => rfl⟩
  | update rd x v => exact ⟨ensureTable_mem s v, congrFun (ensureTable_readByte s v)⟩

theorem done_keeps_port {dest : Option RegId} (done : Done s dest t) : SamePort s t := by
  cases done with
  | build v => exact ⟨build_pending s v, build_observed s v, build_issuing s v⟩
  | write => exact ⟨rfl, rfl, rfl⟩
  | update rd x v =>
    exact ⟨ensureTable_pending s v, ensureTable_observed s v, ensureTable_issuing s v⟩

theorem writeDest_keeps_otherContexts (s : State) (rd : RegId) (x : Word64) :
    SameOtherContexts s (s.writeDest rd x) :=
  ⟨by simp, fun _ other => writeDest_ctx?_other s rd x other⟩

/-- Making sure of a table touches no context, so the destination write is all that does. -/
theorem done_keeps_otherContexts {dest : Option RegId} (done : Done s dest t) :
    SameOtherContexts s t := by
  cases done with
  | build v => exact ⟨by simp, fun j _ => build_ctx? s v j⟩
  | write rd x => exact writeDest_keeps_otherContexts s rd x
  | update rd x v =>
    obtain ⟨length, others⟩ := writeDest_keeps_otherContexts (s.ensureTable v) rd x
    rw [ensureTable_contexts] at length
    rw [ensureTable_issuing] at others
    exact ⟨length, fun j other => (others j other).trans (ensureTable_ctx? s v j)⟩

theorem faultEntry_keeps_otherContexts (s : State) (w : Word32) (k : Cause) (f : Word64) :
    SameOtherContexts s (s.faultEntry s.issuing w k f) :=
  ⟨by simp, fun _ other => faultEntry_ctx?_other s w k f other⟩

theorem exec_keeps_memory {i : Instr} (h : exec i s = .next t) : SameMemory s t := by
  obtain ⟨c, -, done | ⟨k, f, -, rfl⟩⟩ := exec_cases h
  · exact done_keeps_memory done
  · exact ⟨rfl, fun _ => rfl⟩

theorem exec_keeps_port {i : Instr} (h : exec i s = .next t) : SamePort s t := by
  obtain ⟨c, -, done | ⟨k, f, -, rfl⟩⟩ := exec_cases h
  · exact done_keeps_port done
  · exact ⟨rfl, rfl, rfl⟩

theorem exec_keeps_otherContexts {i : Instr} (h : exec i s = .next t) :
    SameOtherContexts s t := by
  obtain ⟨c, -, done | ⟨k, f, -, rfl⟩⟩ := exec_cases h
  · exact done_keeps_otherContexts done
  · exact faultEntry_keeps_otherContexts s _ k f

/-! ## Operations of the host port -/

theorem performed_keeps_memory {op : HostOp} (done : Performed s op t)
    (notWriteMem : isWriteMem op = false) : SameMemory s t := by
  cases done with
  | command j w c i t _ _ _ ran => exact exec_keeps_memory (s := { s with issuing := j }) ran
  | writeMem => cases notWriteMem
  | writeReg | readReg | refused | illegal | readStatus | readFeat | readEngsel | reset =>
    exact ⟨rfl, fun _ => rfl⟩

end

/-- Settles O18: of the operations a step can perform, only WRITE_MEM writes a byte. -/
theorem onlyTheHostWritesMemory : Obligations.OnlyTheHostWritesMemory :=
  fun s _ _ rest queue notWriteMem h => performed_keeps_memory
    (s := { s with pending := rest }) (performed_of_step queue h) notWriteMem

/-- Settles O20: the frame is kept by every completed effect, and by the fault entry. -/
theorem commandFrameOutsideTheContext : Obligations.CommandFrameOutsideTheContext := by
  intro i s t h
  obtain ⟨cfg, feat, engsel⟩ := exec_keeps_binding h
  obtain ⟨mem, bytes⟩ := exec_keeps_memory h
  obtain ⟨pending, observed, issuing⟩ := exec_keeps_port h
  obtain ⟨length, others⟩ := exec_keeps_otherContexts h
  exact ⟨cfg, feat, engsel, bytes, mem, pending, observed, issuing, length, others⟩

end Sys2Proof.Proofs
end

section
/-! PROOFS. The faults of the byte range a command reads (20_memory.md R59, R60; 60_exceptions.md
R156, R157): once the engine is ready and the sources hold values, the range check comes first. -/

namespace Sys2Proof.Proofs

open Sys2Proof.Machine Sys2Proof.Laws

/-- No command that reads memory needs a table built: the software updates build it (R155). -/
theorem tableNeeded_of_reads {i : Instr} {operands : RegId × (RegId ⊕ Nat)}
    (reads : i.reads = some operands) : i.tableNeeded = none := by
  cases i with
  | treadLE | treadBE | tstepLE | tstepBE | tsliceLE | tsliceBE => cases reads
  | _ => rfl

section
variable {i : Instr} {s : State} {c : Context} {range : Word64 × Nat}

theorem reads_of_rangeOf (h : rangeOf i c = some range) : ∃ operands, i.reads = some operands := by
  cases reads : i.reads with
  | none => simp [rangeOf, reads] at h
  | some operands => exact ⟨operands, rfl⟩

theorem sourcesCheck_of_hold {rs : List RegId} (hold : ∀ r ∈ rs, (c.reg r).isSome = true)
    (later : FaultReport) : sourcesCheck c rs later = later := by
  have found : (rs.find? fun r => (c.reg r).isNone) = none :=
    List.find?_eq_none.mpr fun r hr => by simpa [Option.isSome_iff_ne_none] using hold r hr
  rw [sourcesCheck, found]

/-- With the checks before it passed, the range check decides. -/
theorem firstFault_of_ready (ready : EngineReady i s) (hold : SourcesHold i c)
    (h : rangeOf i c = some range) : firstFault i s c = rangeCheck s (some range) := by
  obtain ⟨bound, available⟩ := ready
  obtain ⟨_, reads⟩ := reads_of_rangeOf h
  have dispatch : (i.isDispatched && Engsel.bind s.engsel == .none) = false := by
    simpa using bound
  simp [firstFault_eq, dispatch, available, engineCheck, sourcesCheck_of_hold hold, tableCheck,
    tableNeeded_of_reads reads, h]

end

section
variable {s : State} {a : Word64} {n u : Nat}

theorem rangeCheck_of_outside
    (outside : 2 ^ s.cfg.addrW ≤ a.toNat ∨ 2 ^ s.cfg.addrW < a.toNat + n) :
    rangeCheck s (some (a, n)) = some (.rangeFault, a) := if_pos outside

/-- The search of the range finds the lowest unmapped address. -/
theorem rangeCheck_of_unmapped (inside : InRange s a.toNat n) (low : a.toNat ≤ u)
    (high : u < a.toNat + n) (unmapped : s.mapped u = false)
    (lowest : ∀ x, a.toNat ≤ x → x < u → s.mapped x = true) :
    rangeCheck s (some (a, n)) = some (.memFault, BitVec.ofNat 64 u) := by
  have found : ((List.range' a.toNat n).find? fun x => !s.mapped x) = some u :=
    List.find?_range'_eq_some.mpr ⟨by simp [unmapped], by simp [low, high],
      fun x h1 h2 => by simp [lowest x h1 h2]⟩
  obtain ⟨first, last⟩ := inside
  rw [rangeCheck, if_neg (by omega), found]

end

/-- Settles O31: RANGE_FAULT is the first cause that applies. -/
theorem rangeOutsideAddressSpaceFaults : Obligations.RangeOutsideAddressSpaceFaults :=
  fun _ _ _ _ _ inv hc ready hold range outside => exec_of_firstFault inv hc <|
    (firstFault_of_ready ready hold range).trans (rangeCheck_of_outside outside)

/-- Settles O32: MEM_FAULT is the first cause that applies. -/
theorem unmappedByteInRangeFaults : Obligations.UnmappedByteInRangeFaults :=
  fun _ _ _ _ _ _ inv hc ready hold range inside low high unmapped lowest =>
    exec_of_firstFault inv hc <| (firstFault_of_ready ready hold range).trans
      (rangeCheck_of_unmapped inside low high unmapped lowest)

end Sys2Proof.Proofs
end

section
/-! PROOFS. An update reads no byte outside its range (20_memory.md R57, R61): every turn of every
phase reads the bytes it consumes and no others, and consumes no more than remain. -/

namespace Sys2Proof.Proofs

open Sys2Proof.Machine Sys2Proof.Laws

/-! ## Memories that agree on a range -/

/-- The two memories hold the same bytes at `a .. a+n-1`. -/
def AgreeOn (mem mem' : Nat → Byte) (a n : Nat) : Prop :=
  ∀ x, a ≤ x → x < a + n → mem x = mem' x

theorem AgreeOn.sub {mem mem' : Nat → Byte} {a n b m : Nat} (agree : AgreeOn mem mem' a n)
    (low : a ≤ b) (high : b + m ≤ a + n) : AgreeOn mem mem' b m :=
  fun x h1 h2 => agree x (by omega) (by omega)

/-- The memories agree on the bytes still to be consumed. -/
def AgreeAhead (mem mem' : Nat → Byte) (w : Work) : Prop := AgreeOn mem mem' w.p w.rem

/-- A phase of an update reads only the bytes still to be consumed, and leaves the rest of them to
the phases after it. -/
def ReadsAhead (phase : (Nat → Byte) → Work → Work) : Prop :=
  ∀ mem mem' w, AgreeAhead mem mem' w →
    phase mem w = phase mem' w ∧ AgreeAhead mem mem' (phase mem w)

theorem ReadsAhead.comp {first second : (Nat → Byte) → Work → Work} (h1 : ReadsAhead first)
    (h2 : ReadsAhead second) : ReadsAhead fun mem w => second mem (first mem w) := by
  intro mem mem' w agree
  obtain ⟨same, agree⟩ := h1 mem mem' w agree
  simpa only [← same] using h2 mem mem' _ agree

/-! ## Turns, and the phases made of them -/

/-- A turn on the working CRC reads only the `n` bytes at the read pointer. -/
def ReadsOnly (n : Nat) (turn : (Nat → Byte) → Word32 → Nat → Word32) : Prop :=
  ∀ mem mem' c p, AgreeOn mem mem' p n → turn mem c p = turn mem' c p

/-- The working registers after a turn that consumes `n` bytes: the body of every phase. -/
def consume (n : Nat) (turn : (Nat → Byte) → Word32 → Nat → Word32) (mem : Nat → Byte) (w : Work) :
    Work :=
  { c := turn mem w.c w.p, p := w.p + n, rem := w.rem - n }

section
variable {n : Nat} {turn : (Nat → Byte) → Word32 → Nat → Word32} (reads : ReadsOnly n turn)
include reads

theorem consume_readsAhead {mem mem' : Nat → Byte} {w : Work} (enough : n ≤ w.rem)
    (agree : AgreeAhead mem mem' w) :
    consume n turn mem w = consume n turn mem' w ∧ AgreeAhead mem mem' (consume n turn mem w) := by
  constructor
  · rw [consume, reads mem mem' w.c w.p (agree.sub (Nat.le_refl _) (by omega)), consume]
  · exact agree.sub (Nat.le_add_right _ _) (by simp only [consume]; omega)

/-- A loop that goes on only while a turn's bytes remain, whatever its fuel. -/
theorem whileLoop_readsAhead_of_fuel {cond : Work → Bool} (enough : ∀ w, cond w = true → n ≤ w.rem)
    (fuel : Nat) : ReadsAhead fun mem w => whileLoop cond (consume n turn mem) fuel w := by
  intro mem mem' w agree
  induction fuel generalizing w with
  | zero => exact ⟨rfl, agree⟩
  | succ fuel ih =>
    cases more : cond w
    case false => simpa only [whileLoop_of_done more, true_and] using agree
    case true =>
      obtain ⟨same, agree⟩ := consume_readsAhead reads (enough w more) agree
      simpa only [whileLoop_of_more more, ← same] using ih _ agree

/-- The loops of the engines, whose fuel is the remaining length. -/
theorem whileLoop_readsAhead {cond : Work → Bool} (enough : ∀ w, cond w = true → n ≤ w.rem) :
    ReadsAhead fun mem w => whileLoop cond (consume n turn mem) w.rem w :=
  fun mem mem' w => whileLoop_readsAhead_of_fuel reads enough w.rem mem mem' w

/-- A phase of at most one turn. -/
theorem atMostOnce_readsAhead :
    ReadsAhead fun mem w => if n ≤ w.rem then consume n turn mem w else w := by
  intro mem mem' w agree
  by_cases enough : n ≤ w.rem
  · simpa only [if_pos enough] using consume_readsAhead reads enough agree
  · simpa only [if_neg enough, true_and] using agree

end

/-! ## The software engine -/

theorem swbyte_readsOnly (t : Table) : ReadsOnly 1 fun mem c p => swbyte t c (mem p) :=
  fun _ _ c p agree => congrArg (swbyte t c) (agree p (Nat.le_refl p) (Nat.lt_succ_self p))

theorem slice_readsOnly (v : Variant) (t : Table) :
    ReadsOnly 8 fun mem c p => slice v t c (bulkWord v (memRead mem p 8)) :=
  fun _ _ c _ agree => congrArg (fun bs => slice v t c (bulkWord v bs)) (memRead_congr agree)

theorem swAlign_readsAhead (t : Table) : ReadsAhead (swAlign t) :=
  whileLoop_readsAhead (swbyte_readsOnly t) fun w more => by
    simp only [Bool.and_eq_true, decide_eq_true_eq] at more
    omega

theorem swBulk_readsAhead (v : Variant) (t : Table) : ReadsAhead (swBulk v t) :=
  whileLoop_readsAhead (slice_readsOnly v t) fun _ more => of_decide_eq_true more

theorem swTail_readsAhead (t : Table) : ReadsAhead (swTail t) :=
  whileLoop_readsAhead (swbyte_readsOnly t) fun _ more => of_decide_eq_true more

/-! ## The hardware engine -/

section
variable {mem mem' : Nat → Byte} {b : Nat} (agree : AgreeOn mem mem' b BLOCK)
include agree

/-- The words of a block lie in the block (R122). -/
theorem blockWord_congr {j : Nat} (h : j < 128) : blockWord mem b j = blockWord mem' b j :=
  congrArg Machine.LE <| memRead_congr <|
    agree.sub (Nat.le_add_right _ _) (by simp only [BLOCK]; omega)

theorem laneSeed_congr (c : Word32) : laneSeed mem c b = laneSeed mem' c b := by
  rw [laneSeed, blockWord_congr agree (by decide), laneSeed]

theorem laneTurn_congr {i : Nat} (h : i < LANE_WORDS) (l : Lanes) :
    laneTurn mem b i l = laneTurn mem' b i l := by
  rw [LANE_WORDS] at h
  rw [laneTurn, blockWord_congr agree (by omega), blockWord_congr agree (by omega),
    blockWord_congr agree (by omega), laneTurn]

theorem laneLoop_congr (c : Word32) {n : Nat} (h : n ≤ LANE_WORDS) :
    laneLoop mem c b n = laneLoop mem' c b n := by
  induction n with
  | zero => exact laneSeed_congr agree c
  | succ n ih => rw [laneLoop, ih (Nat.le_of_succ_le h), laneTurn_congr agree h, laneLoop]

theorem laneMerge_congr (l : Lanes) : laneMerge mem b l = laneMerge mem' b l := by
  rw [laneMerge, blockWord_congr agree (by decide), laneMerge]

end

theorem hwBlock_readsOnly : ReadsOnly BLOCK hwBlock := by
  intro mem mem' c p agree
  rw [hwBlock, laneLoop_congr agree c (Nat.le_refl _), laneMerge_congr agree, hwBlock]

/-- The steps of the tail that read a little-endian word of `n` bytes. -/
theorem leStep_readsOnly (n : Nat) (step : Word32 → Word64 → Word32) :
    ReadsOnly n fun mem c p => step c (Machine.LE (memRead mem p n)) :=
  fun _ _ c _ agree => congrArg (fun bs => step c (Machine.LE bs)) (memRead_congr agree)

theorem hwcrc1_readsOnly : ReadsOnly 1 fun mem c p => hwcrc1 c (mem p) :=
  fun _ _ c p agree => congrArg (hwcrc1 c) (agree p (Nat.le_refl p) (Nat.lt_succ_self p))

theorem hwBlocks_readsAhead : ReadsAhead hwBlocks :=
  whileLoop_readsAhead hwBlock_readsOnly fun _ more => of_decide_eq_true more

theorem hwTail8_readsAhead : ReadsAhead hwTail8 :=
  whileLoop_readsAhead (leStep_readsOnly 8 hwcrc8) fun _ more => of_decide_eq_true more

theorem hwTail4_readsAhead : ReadsAhead hwTail4 :=
  atMostOnce_readsAhead (leStep_readsOnly 4 fun c d => hwcrc4 c (low32 d))

theorem hwTail2_readsAhead : ReadsAhead hwTail2 :=
  atMostOnce_readsAhead (leStep_readsOnly 2 fun c d => hwcrc2 c (low16 d))

theorem hwTail1_readsAhead : ReadsAhead hwTail1 := atMostOnce_readsAhead hwcrc1_readsOnly

theorem hwTail_readsAhead : ReadsAhead hwTail :=
  ((hwTail8_readsAhead.comp hwTail4_readsAhead).comp hwTail2_readsAhead).comp hwTail1_readsAhead

/-! ## The updates -/

section
variable {mem mem' : Nat → Byte} {a len : Nat} (agree : AgreeOn mem mem' a len)
include agree

theorem swUpdate_congr (v : Variant) (t : Table) (acc : Word32) :
    swUpdate v t mem acc a len = swUpdate v t mem' acc a len :=
  have phases := ((swAlign_readsAhead t).comp (swBulk_readsAhead v t)).comp (swTail_readsAhead t)
  congrArg (fun w : Work => ~~~w.c) (phases mem mem' ⟨~~~acc, a, len⟩ agree).1

theorem hwUpdate_congr (acc : Word32) : hwUpdate mem acc a len = hwUpdate mem' acc a len :=
  have phases := hwBlocks_readsAhead.comp hwTail_readsAhead
  congrArg (fun w : Work => ~~~w.c) (phases mem mem' ⟨~~~acc, a, len⟩ agree).1

end

/-- Settles O52: every phase of either update reads only bytes of the range still to be consumed. -/
theorem updatesReadOnlyTheirRange : Obligations.UpdatesReadOnlyTheirRange :=
  fun v T _ _ acc _ _ agree => ⟨swUpdate_congr agree v T acc, hwUpdate_congr agree acc⟩

end Sys2Proof.Proofs
end

section
/-! PROOFS. The encoding of commands (30_encoding.md R74, R80, R81, R87): encoder and field decoder
undo each other, and the field decoder answers what the search of the opcode table answers. -/

namespace Sys2Proof.Proofs

open Sys2Proof.Machine Sys2Proof.Laws

/-! ## Words and their fields (R74) -/

/-- No field reaches into the bits of another. -/
theorem ofWord_toWord (f : FormatC) : FormatC.ofWord f.toWord = f := by
  obtain ⟨op, rd, rs1, rs2, rs3, v, res⟩ := f
  simp only [FormatC.ofWord, FormatC.toWord, FormatC.mk.injEq]
  refine ⟨?_, ?_, ?_, ?_, ?_, ?_, ?_⟩ <;> ext k hk <;>
    simp (disch := omega) [hk, BitVec.getLsbD_of_ge] <;> omega

/-- The fields are a partition of the word: each of its 32 bits lies in one of them. -/
theorem toWord_ofWord (w : Word32) : (FormatC.ofWord w).toWord = w := by
  simp only [FormatC.ofWord, FormatC.toWord]
  ext k hk
  interval_cases k <;> simp

@[simp] theorem regOf_fieldOf (r : RegId) : regOf (fieldOf r) = r := rfl

@[simp] theorem fieldOf_regOf (b : BitVec 4) : fieldOf (regOf b) = b := rfl

/-! ## The field decoder and the fields of a command -/

/-- A field decoder of any number of operands answers a command only where its check passes. -/
theorem check_eq_ok_iff {p : Prop} [Decidable p] {a i : Instr} {e : Illegal} :
    (if p then Except.ok a else .error e) = .ok i ↔ i = a ∧ p := by
  split <;> simp [*, eq_comm]

theorem res_fields (i : Instr) : i.fields.res = 0 := by
  cases i <;> rfl

/-- The opcode map sends the fields of every command to the row of that command. -/
theorem decode_fields (i : Instr) : i.fields.decode = .ok i := by
  cases i <;> simp [Instr.fields, FormatC.decode, FormatC.decode0, FormatC.decode1,
    FormatC.decode2, FormatC.decode3, FormatC.decode4]

/-- Row by row of the opcode map: OP and V are those of the row, and the checks leave 0 in every
field that the row does not use. -/
theorem fields_of_fieldDecode {f : FormatC} {i : Instr} (res : f.res = 0)
    (h : f.decode = .ok i) : i.fields = f := by
  obtain ⟨op, rd, rs1, rs2, rs3, v, _⟩ := f
  cases res
  unfold FormatC.decode at h
  split at h
  case h_31 => split at h <;> cases h
  all_goals
    next op v =>
    simp only [FormatC.decode0, FormatC.decode1, FormatC.decode2, FormatC.decode3,
      FormatC.decode4, check_eq_ok_iff, Except.ok.injEq, eq_comm (b := i)] at h
    simp [Instr.fields, BitVec.toNat_eq, op, v, h]

theorem decode_encode (i : Instr) : decode (encode i) = .ok i := by
  simp only [decode, encode, ofWord_toWord, res_fields, if_true, decode_fields]

theorem fields_of_decode {w : Word32} {i : Instr} (h : decode w = .ok i) :
    i.fields = FormatC.ofWord w := by
  simp only [decode] at h
  split at h
  · next res => exact fields_of_fieldDecode res h
  · cases h

theorem encode_of_fields {w : Word32} {i : Instr} (h : i.fields = FormatC.ofWord w) :
    encode i = w := by
  rw [encode, h, toWord_ofWord]

/-- Settles O1: the word gives the fields back, and the fields the command. -/
theorem decodeOfEncodeIsIdentity : Obligations.DecodeOfEncodeIsIdentity := decode_encode

/-- Settles O2: the fields of the command are those of the word. -/
theorem legalWordIsItsCommandsWord : Obligations.LegalWordIsItsCommandsWord :=
  fun _ _ h => encode_of_fields (fields_of_decode h)

/-! ## The rows of the opcode table, field by field (R80) -/

/-- The fields that a mask keeps. -/
def keep (f m : FormatC) : FormatC where
  op := f.op &&& m.op
  rd := f.rd &&& m.rd
  rs1 := f.rs1 &&& m.rs1
  rs2 := f.rs2 &&& m.rs2
  rs3 := f.rs3 &&& m.rs3
  v := f.v &&& m.v
  res := f.res &&& m.res

theorem ofWord_and (w m : Word32) :
    FormatC.ofWord (w &&& m) = keep (.ofWord w) (.ofWord m) := by
  simp [FormatC.ofWord, keep, BitVec.extractLsb'_and]

theorem covers_iff {r : OpRow} {w : Word32} : r.covers w = true ↔
    keep (.ofWord w) (.ofWord r.mask) = .ofWord r.bits := by
  rw [← ofWord_and, OpRow.covers, beq_iff_eq]
  constructor
  · exact congrArg FormatC.ofWord
  · intro h
    rw [← toWord_ofWord (w &&& r.mask), h, toWord_ofWord]

/-- The command a row builds from the register fields. -/
def rowCommand (r : OpRow) (f : FormatC) : Instr :=
  r.make (regOf f.rd) (regOf f.rs1) (regOf f.rs2) (regOf f.rs3)

theorem and_of_eq_allOnes {n : Nat} {x m : BitVec n} (h : m = BitVec.allOnes n) :
    x &&& m = x := by
  rw [h, BitVec.and_allOnes]

/-- The mask of a row has 1s in OP, V, RES and the register fields that its command does not use. -/
theorem fields_rowCommand (f : FormatC) : ∀ r ∈ opcodeTable,
    keep f (.ofWord r.mask) = .ofWord r.bits → (rowCommand r f).fields = f := by
  obtain ⟨op, rd, rs1, rs2, rs3, v, res⟩ := f
  simp only [opcodeTable, List.forall_mem_append, List.forall_mem_cons]
  simp +contextual [keep, rowCommand, Instr.fields, FormatC.ofWord, and_of_eq_allOnes]

theorem decode_of_covers {r : OpRow} {w : Word32} (mem : r ∈ opcodeTable)
    (covers : r.covers w = true) : decode w = .ok (rowCommand r (.ofWord w)) := by
  have fields := fields_rowCommand (.ofWord w) r mem (covers_iff.mp covers)
  rw [← decode_encode (rowCommand r _), encode_of_fields fields]

/-- Two rows differ in a bit that both of their masks keep. -/
theorem opcodeTable_differ :
    opcodeTable.Pairwise fun r q => r.bits &&& q.mask ≠ q.bits &&& r.mask := by
  decide

theorem opcodeTable_disjoint (w : Word32) :
    opcodeTable.Pairwise fun r q => ¬(r.covers w = true ∧ q.covers w = true) := by
  refine opcodeTable_differ.imp ?_
  rintro r q differ ⟨coversR, coversQ⟩
  rw [OpRow.covers, beq_iff_eq] at coversR coversQ
  rw [← coversR, ← coversQ] at differ
  exact differ (by rw [BitVec.and_assoc, BitVec.and_comm r.mask, BitVec.and_assoc])

/-! ## Legal fields have a row (R81) -/

/-- OP and V alone. -/
def heading (op : BitVec 6) (v : BitVec 2) : FormatC := ⟨op, 0, 0, 0, 0, v, 0⟩

/-- The mask of one register field: 1s where the field must be 0. -/
def maskUnless (used : Bool) : BitVec 4 := if used then 0 else .allOnes 4

/-- The mask of an opcode's rows: 1s in OP, V, RES and the register fields that R81 wants 0. -/
def maskOf (op : BitVec 6) : FormatC where
  op := .allOnes 6
  rd := maskUnless (op.toNat != 0x02)
  rs1 := maskUnless !([0x01, 0x02].contains op.toNat)
  rs2 := maskUnless ([0x04, 0x05, 0x06, 0x08, 0x09, 0x0A].contains op.toNat)
  rs3 := maskUnless (op.toNat == 0x04)
  v := .allOnes 2
  res := .allOnes 8

/-- Every OP and V that R81 lets pass head a row of the table, by search over all of them. -/
theorem exists_row_of_heading : ∀ op v, (heading op v).opDefined = true →
    (heading op v).vDefined = true →
    ∃ r ∈ opcodeTable,
      FormatC.ofWord r.mask = maskOf op ∧ FormatC.ofWord r.bits = heading op v := by
  decide

theorem and_maskUnless {used : Bool} {b : BitVec 4} (h : (used || b == 0) = true) :
    b &&& maskUnless used = 0 := by
  cases used with
  | true => exact BitVec.and_zero
  | false =>
    rw [maskUnless, if_neg Bool.false_ne_true, BitVec.and_allOnes]
    simpa using h

theorem keep_maskOf {f : FormatC} (res : f.resZero = true) (unused : f.unusedZero = true) :
    keep f (maskOf f.op) = heading f.op f.v := by
  simp only [FormatC.resZero, beq_iff_eq] at res
  simp only [FormatC.unusedZero, Bool.and_eq_true] at unused
  obtain ⟨⟨⟨rd, rs1⟩, rs2⟩, rs3⟩ := unused
  simp only [keep, maskOf, heading, and_maskUnless rd, and_maskUnless rs1, and_maskUnless rs2,
    and_maskUnless rs3, res, BitVec.and_allOnes]

theorem exists_row_of_legal {w : Word32} (legal : (FormatC.ofWord w).legal = true) :
    ∃ r ∈ opcodeTable, r.covers w = true := by
  simp only [FormatC.legal, Bool.and_eq_true] at legal
  obtain ⟨⟨⟨op, res⟩, v⟩, unused⟩ := legal
  obtain ⟨r, mem, mask, bits⟩ := exists_row_of_heading _ _ op v
  refine ⟨r, mem, covers_iff.mpr ?_⟩
  rw [mask, bits]
  exact keep_maskOf res unused

open EncodesLegalFields in
/-- The laws of `EncodesLegalFields`, one for each command, together. -/
theorem legal_fields (i : Instr) : i.fields.legal = true :=
  match i with
  | .select _ => select _
  | .tbuildLE => tbuildLE
  | .tbuildBE => tbuildBE
  | .treadLE _ _ => treadLE _ _
  | .treadBE _ _ => treadBE _ _
  | .update _ _ _ _ => update _ _ _ _
  | .updateSWLE _ _ _ _ => updateSWLE _ _ _ _
  | .updateSWBE _ _ _ _ => updateSWBE _ _ _ _
  | .updateHW _ _ _ _ => updateHW _ _ _ _
  | .crc32cb _ _ _ => crc32cb _ _ _
  | .crc32ch _ _ _ => crc32ch _ _ _
  | .crc32cw _ _ _ => crc32cw _ _ _
  | .crc32cx _ _ _ => crc32cx _ _ _
  | .clmul _ _ _ => clmul _ _ _
  | .foldk1 _ _ => foldk1 _ _
  | .foldk2 _ _ => foldk2 _ _
  | .tstepLE _ _ _ => tstepLE _ _ _
  | .tstepBE _ _ _ => tstepBE _ _ _
  | .tsliceLE _ _ _ => tsliceLE _ _ _
  | .tsliceBE _ _ _ => tsliceBE _ _ _
  | .xor _ _ _ => xor _ _ _
  | .inv _ _ => inv _ _
  | .ldleB _ _ => ldleB _ _
  | .ldleH _ _ => ldleH _ _
  | .ldleW _ _ => ldleW _ _
  | .ldleX _ _ => ldleX _ _
  | .ldbeB _ _ => ldbeB _ _
  | .ldbeH _ _ => ldbeH _ _
  | .ldbeW _ _ => ldbeW _ _
  | .ldbeX _ _ => ldbeX _ _

/-! ## The two decoders agree (R87) -/

theorem exists_row_of_decode {w : Word32} {i : Instr} (h : decode w = .ok i) :
    ∃ r ∈ opcodeTable, r.covers w = true :=
  exists_row_of_legal (fields_of_decode h ▸ legal_fields i)

theorem decode_toOption (w : Word32) : (decode w).toOption = decodeByTable w := by
  cases found : opcodeTable.find? (·.covers w) with
  | some r =>
    have covers : r.covers w = true := by simpa using List.find?_some found
    rw [decode_of_covers (List.mem_of_find?_eq_some found) covers, decodeByTable, found]
    rfl
  | none =>
    cases answer : decode w with
    | error e => simp [decodeByTable, found, Except.toOption]
    | ok i =>
      obtain ⟨r, mem, covers⟩ := exists_row_of_decode answer
      exact absurd covers (List.find?_eq_none.mp found r mem)

/-- Settles O3: a covering row decodes to its own command, and a decoded word has a covering row. -/
theorem decodeIsTheSearchOfTheOpcodeTable : Obligations.DecodeIsTheSearchOfTheOpcodeTable :=
  fun w => ⟨decode_toOption w, opcodeTable_disjoint w, fun _ h => (fields_of_decode h).symm⟩

/-! ## Illegal words -/

theorem step_issue_of_illegal {s : State} {j : Nat} {w : Word32} {rest : List HostOp} {c : Context}
    {e : Illegal} (queue : s.pending = .issue j w :: rest) (hc : s.ctx? j = some c)
    (running : c.faulted = false) (illegal : decode w = .error e) :
    step s = .next (State.faultEntry { s with pending := rest } j w .illegalCommand 0) := by
  rw [step_of_pending queue]
  simp [perform, hostIssue, hc, running, illegal]

/-- A word is illegal in the eyes of the field decoder exactly when no row matches it. -/
theorem decodeByTable_eq_none_iff {w : Word32} :
    decodeByTable w = none ↔ ∃ e, decode w = .error e := by
  rw [← decode_toOption]
  cases decode w <;> simp [Except.toOption]

theorem decode_error_iff {w : Word32} :
    (∃ e, decode w = .error e) ↔ (FormatC.ofWord w).legal = false := by
  cases answer : decode w with
  | ok i => simp [← fields_of_decode answer, legal_fields]
  | error e =>
    have illegal : ¬(FormatC.ofWord w).legal = true := by
      intro legal
      obtain ⟨r, mem, covers⟩ := exists_row_of_legal legal
      cases (decode_of_covers mem covers).symm.trans answer
    simpa using illegal

theorem zero_has_no_row : decodeByTable 0 = none := by decide

/-- Settles O4: the field decoder fails exactly on the words without a row, whose fields are not
legal. -/
theorem illegalWordsTakeIllegalCommand : Obligations.IllegalWordsTakeIllegalCommand := by
  refine ⟨zero_has_no_row, fun w => ⟨?_, ?_⟩⟩
  · rw [decodeByTable_eq_none_iff, decode_error_iff]
    simp only [FormatC.legal, Bool.and_eq_false_iff, or_assoc]
  · intro noRow s j rest c queue hc running
    obtain ⟨e, illegal⟩ := decodeByTable_eq_none_iff.mp noRow
    exact step_issue_of_illegal queue hc running illegal

/-- Settles O5, by evaluating the decoder. -/
theorem sampleWordsDecode : Obligations.SampleWordsDecode := by
  unfold Obligations.SampleWordsDecode
  decide

end Sys2Proof.Proofs
end

section
/-! PROOFS. The assembler on lines in the plain form of R85 (30_encoding.md R85, R86): a mnemonic, a
blank, and the operands with a comma and a blank between two. -/

namespace Sys2Proof.Proofs

open Sys2Proof.Machine Sys2Proof.Laws

/-! ## Names -/

/-- A character of a mnemonic or a register name: no blank, no comma and no comment sign. -/
def isNameChar (c : Char) : Bool := !isBlank c && (c != ',' && c != '#')

/-- A mnemonic or a register name: at least one character, each of them a name's. -/
def isName (n : List Char) : Bool := !n.isEmpty && n.all isNameChar

theorem isName_iff {n : List Char} : isName n = true ↔
    n ≠ [] ∧ ∀ c ∈ n, isBlank c = false ∧ c ≠ ',' ∧ c ≠ '#' := by
  simp [isName, isNameChar]

theorem isName_reverse {n : List Char} (h : isName n = true) : isName n.reverse = true := by
  simpa [isName] using h

theorem isName_regNames : ∀ n ∈ regNames, isName n = true := by decide

theorem regOfName_regNames : ∀ r : RegId, ∀ n ∈ regNames[r.val]?, regOfName n = some r := by
  decide

/-! ## Blanks at the ends of a text -/

theorem dropWhile_isBlank_of_prefix {n cs : List Char} (h : isName n = true) (first : n <+: cs) :
    cs.dropWhile isBlank = cs := by
  obtain ⟨ne, chars⟩ := isName_iff.mp h
  obtain ⟨rest, rfl⟩ := first
  cases n with
  | nil => exact absurd rfl ne
  | cons c n => simp [(chars c (List.mem_cons_self ..)).1]

/-- A text with a name at either end has no blanks to trim. -/
theorem trim_of_names {n m cs : List Char} (hn : isName n = true) (first : n <+: cs)
    (hm : isName m = true) (last : m <:+ cs) : trim cs = cs := by
  rw [trim, dropWhile_isBlank_of_prefix hn first,
    dropWhile_isBlank_of_prefix (isName_reverse hm) (List.reverse_prefix.mpr last),
    List.reverse_reverse]

theorem trim_blank_name {n : List Char} (h : isName n = true) : trim (' ' :: n) = n :=
  trim_of_names h (List.prefix_refl n) h (List.suffix_refl n)

/-! ## The name at the start of a text -/

section
variable {n : List Char} (h : isName n = true) (rest : List Char)
include h

theorem takeWhile_name : (n ++ ' ' :: rest).takeWhile (fun c => !isBlank c) = n := by
  obtain ⟨-, chars⟩ := isName_iff.mp h
  rw [List.takeWhile_append_of_pos fun c mem => by simp [chars c mem]]
  simp [isBlank]

theorem dropWhile_name : (n ++ ' ' :: rest).dropWhile (fun c => !isBlank c) = ' ' :: rest := by
  obtain ⟨-, chars⟩ := isName_iff.mp h
  rw [List.dropWhile_append_of_pos fun c mem => by simp [chars c mem]]
  simp [isBlank]

end

/-! ## Cutting at commas -/

section
variable {cs : List Char} (noComma : ∀ c ∈ cs, c ≠ ',')
include noComma

theorem splitCommas_of_noComma : splitCommas cs = [cs] := by
  induction cs with
  | nil => rfl
  | cons c cs ih =>
    obtain ⟨hc, hcs⟩ := List.forall_mem_cons.mp noComma
    simp [splitCommas, hc, ih hcs]

theorem splitCommas_append_comma (rest : List Char) :
    splitCommas (cs ++ ',' :: rest) = cs :: splitCommas rest := by
  induction cs with
  | nil => simp [splitCommas]
  | cons c cs ih =>
    obtain ⟨hc, hcs⟩ := List.forall_mem_cons.mp noComma
    simp [splitCommas, hc, ih hcs]

end

/-! ## Operand lists -/

/-- The operands of a line, with a comma and a blank between two. -/
def operandList (n : List Char) : List (List Char) → List Char
  | [] => n
  | m :: ms => n ++ ',' :: ' ' :: operandList m ms

theorem prefix_operandList (n : List Char) (ms : List (List Char)) : n <+: operandList n ms := by
  cases ms with
  | nil => exact List.prefix_refl n
  | cons m ms => exact List.prefix_append n _

theorem exists_suffix_operandList (n : List Char) (ms : List (List Char)) :
    ∃ m ∈ n :: ms, m <:+ operandList n ms := by
  induction ms generalizing n with
  | nil => exact ⟨n, List.mem_cons_self .., List.suffix_refl n⟩
  | cons k ms ih =>
    obtain ⟨m, mem, last⟩ := ih k
    exact ⟨m, List.mem_cons_of_mem n mem, last.trans ⟨n ++ [',', ' '], by simp [operandList]⟩⟩

theorem blankName_noComma {n : List Char} (h : isName n = true) : ∀ c ∈ ' ' :: n, c ≠ ',' := by
  obtain ⟨-, chars⟩ := isName_iff.mp h
  exact List.forall_mem_cons.mpr ⟨by decide, fun c mem => (chars c mem).2.1⟩

section
variable {n : List Char} {ms : List (List Char)} (names : ∀ m ∈ n :: ms, isName m = true)
include names

theorem operandList_noComment : ∀ c ∈ operandList n ms, c ≠ '#' := by
  induction ms generalizing n with
  | nil =>
    obtain ⟨-, chars⟩ := isName_iff.mp (names n (List.mem_cons_self ..))
    exact fun c mem => (chars c mem).2.2
  | cons m ms ih =>
    obtain ⟨hn, hms⟩ := List.forall_mem_cons.mp names
    have left : ∀ c ∈ n, c ≠ '#' := fun c mem => ((isName_iff.mp hn).2 c mem).2.2
    simpa [operandList, or_imp, forall_and] using ⟨left, ih hms⟩

theorem splitCommas_operandList :
    splitCommas (' ' :: operandList n ms) = (n :: ms).map (' ' :: ·) := by
  induction ms generalizing n with
  | nil => exact splitCommas_of_noComma (blankName_noComma (names n (List.mem_cons_self ..)))
  | cons m ms ih =>
    obtain ⟨hn, hms⟩ := List.forall_mem_cons.mp names
    rw [List.map_cons, ← ih hms, ← splitCommas_append_comma (blankName_noComma hn)]
    rfl

theorem trim_operandList : trim (operandList n ms) = operandList n ms := by
  obtain ⟨m, mem, last⟩ := exists_suffix_operandList n ms
  exact trim_of_names (names n (List.mem_cons_self ..)) (prefix_operandList n ms) (names m mem) last

theorem operandTexts_operandList : operandTexts (' ' :: operandList n ms) = n :: ms := by
  have text : trim (' ' :: operandList n ms) = operandList n ms := trim_operandList names
  have ne : operandList n ms ≠ [] := fun empty =>
    (isName_iff.mp (names n (List.mem_cons_self ..))).1
      (List.prefix_nil.mp (empty ▸ prefix_operandList n ms))
  rw [operandTexts, text, if_neg ne, splitCommas_operandList names, List.map_map]
  exact (List.map_congr_left fun m mem => trim_blank_name (names m mem)).trans (List.map_id' _)

/-! ## Lines -/

/-- Such a line has no comment to cut off and no blanks to trim. -/
theorem text_of_line {k : List Char} (hk : isName k = true) :
    trim ((k ++ ' ' :: operandList n ms).takeWhile (· != '#')) = k ++ ' ' :: operandList n ms := by
  have noComment : ∀ c ∈ k ++ ' ' :: operandList n ms, c ≠ '#' := by
    have left : ∀ c ∈ k, c ≠ '#' := fun c mem => ((isName_iff.mp hk).2 c mem).2.2
    simpa [or_imp, forall_and] using ⟨left, operandList_noComment names⟩
  obtain ⟨m, mem, last⟩ := exists_suffix_operandList n ms
  rw [List.takeWhile_eq_self_iff.mpr (by simpa using noComment)]
  exact trim_of_names hk (List.prefix_append k _) (names m mem) (last.trans ⟨k ++ [' '], by simp⟩)

/-- A line whose mnemonic has the form `form`, and whose operands name registers, is that form
applied to the registers. -/
theorem assembleLine_of_names {k : List Char} (hk : isName k = true) {form : AsmForm}
    (row : asmTable.find? (fun row => row.1 == k) = some (k, form)) {rs : List RegId}
    (regs : (n :: ms).mapM regOfName = some rs) :
    assembleLine (k ++ ' ' :: operandList n ms) = form.apply rs := by
  have nonempty : k ++ ' ' :: operandList n ms ≠ [] := by simp
  simp only [assembleLine, text_of_line names hk, if_neg nonempty, takeWhile_name hk,
    dropWhile_name hk, row, operandTexts_operandList names, regs]

end

/-! ## Operands that name registers -/

/-- The names of the registers `rs`, one by one. -/
def NamesOf (ns : List (List Char)) (rs : List RegId) : Prop :=
  List.Forall₂ (fun n (r : RegId) => n ∈ regNames[r.val]?) ns rs

section
variable {ns : List (List Char)} {rs : List RegId} (h : NamesOf ns rs)
include h

theorem isName_of_namesOf : ∀ n ∈ ns, isName n = true := by
  induction h with
  | nil => simp
  | cons hn _ ih => exact List.forall_mem_cons.mpr ⟨isName_regNames _ (List.mem_of_getElem? hn), ih⟩

theorem mapM_regOfName_of_namesOf : ns.mapM regOfName = some rs := by
  induction h with
  | nil => rfl
  | cons hn _ ih => simp [regOfName_regNames _ _ hn, ih]

end

theorem assembleLine_of_namesOf {k : List Char} (hk : isName k = true) {form : AsmForm}
    (row : asmTable.find? (fun row => row.1 == k) = some (k, form)) {n : List Char}
    {ms : List (List Char)} {rs : List RegId} (h : NamesOf (n :: ms) rs) :
    assembleLine (k ++ ' ' :: operandList n ms) = form.apply rs :=
  assembleLine_of_names (isName_of_namesOf h) hk row (mapM_regOfName_of_namesOf h)

/-! ## The pseudo-instructions (R86) -/

section
variable {rd rs rl : RegId} {nd ns nl : List Char}

theorem assembleLine_zero (hd : nd ∈ regNames[rd.val]?) :
    assembleLine ("zero ".toList ++ nd) = .command (.xor rd 0 0) :=
  assembleLine_of_namesOf (k := "zero".toList) rfl rfl (.cons hd .nil)

theorem assembleLine_ones32 (hd : nd ∈ regNames[rd.val]?) :
    assembleLine ("ones32 ".toList ++ nd) = .command (.inv rd 0) :=
  assembleLine_of_namesOf (k := "ones32".toList) rfl rfl (.cons hd .nil)

theorem assembleLine_mv (hd : nd ∈ regNames[rd.val]?) (hs : ns ∈ regNames[rs.val]?) :
    assembleLine ("mv ".toList ++ nd ++ ", ".toList ++ ns) = .command (.xor rd rs 0) := by
  have line : assembleLine ("mv".toList ++ ' ' :: operandList nd [ns]) = .command (.xor rd rs 0) :=
    assembleLine_of_namesOf (k := "mv".toList) rfl rfl (.cons hd (.cons hs .nil))
  simpa [operandList] using line

theorem assembleLine_crc (hd : nd ∈ regNames[rd.val]?) (hs : ns ∈ regNames[rs.val]?)
    (hl : nl ∈ regNames[rl.val]?) :
    assembleLine ("crc ".toList ++ nd ++ ", ".toList ++ ns ++ ", ".toList ++ nl) =
      .command (.update rd 0 rs rl) := by
  have line : assembleLine ("crc".toList ++ ' ' :: operandList nd [ns, nl]) =
      .command (.update rd 0 rs rl) :=
    assembleLine_of_namesOf (k := "crc".toList) rfl rfl (.cons hd (.cons hs (.cons hl .nil)))
  simpa [operandList] using line

end

theorem assembleLine_nop : assembleLine "nop".toList = .command (.xor 0 0 0) := by decide

/-- Settles O60: each line is in the plain form, and its mnemonic's form is the expansion. -/
theorem pseudoInstructionsExpand : Obligations.PseudoInstructionsExpand :=
  ⟨assembleLine_nop, fun _ _ _ hd _ hs => ⟨assembleLine_zero hd, assembleLine_ones32 hd,
    assembleLine_mv hd hs, fun _ _ hl => assembleLine_crc hd hs hl⟩⟩

end Sys2Proof.Proofs
end

section
/-! PROOFS. The built table (40_tablebuilder.md R88, R89, R94 to R96): its recurrence, its laws, and
the commands that read it. -/

namespace Sys2Proof.Proofs

open Sys2Proof.Machine Sys2Proof.Laws

/-! ## The recurrence -/

theorem entry_builtTable_zero (n : BitVec 8) :
    entry builtTable 0 n = crcbit8 (n.zeroExtend 32) := by
  rw [entry_builtTable]
  exact rowAt_buildRow0 n

theorem entry_builtTable_of_ne_zero {k : BitVec 3} (later : k ≠ 0) (n : BitVec 8) :
    entry builtTable k n =
      entry builtTable 0 ((entry builtTable (k - 1) n).extractLsb' 0 8) ^^^
        (entry builtTable (k - 1) n >>> 8) := by
  have row : k.toNat = (k - 1).toNat + 1 := by bv_omega
  simp only [entry_builtTable]
  rw [row]
  exact rowAt_buildRow_succ _ n

/-- Settles O47: row 0, and each later row from the row before. -/
theorem builtTableFollowsItsRecurrence : Obligations.BuiltTableFollowsItsRecurrence :=
  ⟨entry_builtTable_zero, fun _ n later => entry_builtTable_of_ne_zero later n⟩

/-! ## The recurrence is a step over a zero byte -/

theorem crcbit_ushiftRight {x : Word32} {j : Nat} (even : x.getLsbD j = false) :
    crcbit (x >>> j) = x >>> (j + 1) := by
  simp [crcbit, even, BitVec.shiftRight_add]

/-- Eight steps from a value whose low byte is 0 shift it and never add the polynomial. -/
theorem crcbit8_of_low_zero {x : Word32} (low : ∀ j < 8, x.getLsbD j = false) :
    crcbit8 x = x >>> 8 := by
  have first : crcbit x = x >>> 1 := crcbit_ushiftRight (j := 0) (low 0 (by decide))
  rw [crcbit8, first, crcbit_ushiftRight (low 1 (by decide)),
    crcbit_ushiftRight (low 2 (by decide)), crcbit_ushiftRight (low 3 (by decide)),
    crcbit_ushiftRight (low 4 (by decide)), crcbit_ushiftRight (low 5 (by decide)),
    crcbit_ushiftRight (low 6 (by decide)), crcbit_ushiftRight (low 7 (by decide))]

/-- A value is its low byte and, apart from it, its upper bytes. -/
theorem lowByte_xor_upper (c : Word32) :
    (c.extractLsb' 0 8).zeroExtend 32 ^^^ c >>> 8 <<< 8 = c := by
  ext j hj
  by_cases low : j < 8
  · simp [low, hj]
  · have back : 8 + (j - 8) = j := by omega
    simp [low, hj, back]

/-- The table step: by linearity, eight steps are those of the low byte, which row 0 holds, and those
of the upper bytes, which only shift. -/
theorem crcbit8_eq_lookup (c : Word32) :
    crcbit8 c = rowAt (buildRow 0) (c.extractLsb' 0 8) ^^^ c >>> 8 := by
  have upper : crcbit8 (c >>> 8 <<< 8) = c >>> 8 := by
    rw [crcbit8_of_low_zero (fun j hj => by simp [hj])]
    ext j hj
    simpa using BitVec.lt_of_getLsbD
  calc crcbit8 c
      = crcbit8 ((c.extractLsb' 0 8).zeroExtend 32 ^^^ c >>> 8 <<< 8) := by rw [lowByte_xor_upper]
    _ = rowAt (buildRow 0) (c.extractLsb' 0 8) ^^^ c >>> 8 := by
        rw [crcbit8_xor, upper, rowAt_buildRow0]

theorem crcbyte_zero (c : Word32) : crcbyte c 0 = crcbit8 c :=
  congrArg crcbit8 BitVec.xor_zero

theorem crcraw_replicate_succ (c : Word32) (k : Nat) :
    crcraw c (List.replicate (k + 1) 0) = crcbit8 (crcraw c (List.replicate k 0)) := by
  rw [List.replicate_succ', crcraw_append, ← crcbyte_zero]
  rfl

/-! ## The laws -/

/-- Each row steps the row before over one more zero byte. -/
theorem rowAt_buildRow (k : Nat) (n : BitVec 8) :
    rowAt (buildRow k) n = crcraw (n.zeroExtend 32) (List.replicate (k + 1) 0) := by
  induction k with
  | zero => rw [rowAt_buildRow0, crcraw_replicate_succ]; rfl
  | succ k ih => rw [rowAt_buildRow_succ, ← crcbit8_eq_lookup, ih, ← crcraw_replicate_succ]

theorem entry_builtTable_eq_crcraw (k : BitVec 3) (n : BitVec 8) :
    entry builtTable k n = crcraw (n.zeroExtend 32) (List.replicate (k.toNat + 1) 0) := by
  rw [entry_builtTable, rowAt_buildRow]

/-- Zero bytes, XORed, are zero bytes, so the linearity of the raw CRC is that of a row. -/
theorem entry_builtTable_xor (k : BitVec 3) (a b : BitVec 8) :
    entry builtTable k (a ^^^ b) = entry builtTable k a ^^^ entry builtTable k b := by
  have zeros := zipWith_xor_replicate_zero (List.replicate (k.toNat + 1) 0)
  rw [List.length_replicate] at zeros
  simp only [entry_builtTable_eq_crcraw]
  rw [← crcraw_xor _ _ rfl, zeros]
  exact congrArg (crcraw · _) (zext32_xor a b)

theorem entry_builtTable_column_zero (k : BitVec 3) : entry builtTable k 0 = 0 := by
  have linear := entry_builtTable_xor k 0 0
  rwa [BitVec.xor_self, BitVec.xor_self] at linear

theorem entry_builtTable_zero_eq_crcraw (n : BitVec 8) :
    entry builtTable 0 n = crcraw 0 [n] := by
  rw [entry_builtTable_zero]
  exact congrArg crcbit8 BitVec.zero_xor.symm

/-- Settles O48: the law of zero bytes, and from it the linearity and the column 0. -/
theorem builtTableLaws : Obligations.BuiltTableLaws :=
  fun k n a b => ⟨entry_builtTable_eq_crcraw k n, entry_builtTable_zero_eq_crcraw n, rfl,
    entry_builtTable_column_zero k, entry_builtTable_xor k a b⟩

/-! ## TREAD -/

theorem treadRule_of_valid {s : State} {c : Context} {v : Variant} {rs1 : RegId} {x : Word64}
    {T : Table} (hx : c.reg rs1 = some x) (valid : s.tvalid v = true) (hT : s.table v = some T)
    (rd : RegId) : treadRule v rd rs1 s c =
      .ok (s.writeDest rd (zext64 (entry T (indexRow x) (indexColumn x)))) := by
  rw [treadRule, source_of_value hx, requireTable_of_valid valid hT]

/-- Settles O34: the rule of TREAD, at either variant. -/
theorem treadCompletes : Obligations.TreadCompletes :=
  fun _ _ rd _ _ _ hc hx =>
    ⟨fun valid hT => command_of_ok hc (treadRule_of_valid (v := .le) hx valid hT rd),
      fun valid hT => command_of_ok hc (treadRule_of_valid (v := .be) hx valid hT rd)⟩

end Sys2Proof.Proofs
end

section
/-! PROOFS. Which commands can change TABLE[v] and TVALID[v] (40_tablebuilder.md R90 to R95;
41_software_engine.md R108, R109). -/

namespace Sys2Proof.Proofs

open Sys2Proof.Machine Sys2Proof.Laws

/-- TVALID[v] and TABLE[v] are those of the state before. -/
def SameTable (v : Variant) (s t : State) : Prop :=
  t.tvalid v = s.tvalid v ∧ t.table v = s.table v

/-- A rule that completes leaves TVALID[v] and TABLE[v] alone. -/
def KeepsTable (v : Variant) (s : State) : Except Stop State → Prop
  | .ok t => SameTable v s t
  | .error _ => True

/-- TBUILD.v. -/
def tbuild : Variant → Instr
  | .le => .tbuildLE
  | .be => .tbuildBE

/-- The software update of v. -/
def updateSW : Variant → RegId → RegId → RegId → RegId → Instr
  | .le => .updateSWLE
  | .be => .updateSWBE

section
variable {v : Variant} {s : State} {c : Context}

/-! ## Effects -/

theorem writeDest_keepsTable (rd : RegId) (x : Word64) :
    KeepsTable v s (.ok (s.writeDest rd x)) := ⟨rfl, rfl⟩

theorem build_sameTable {u : Variant} (other : v ≠ u) : SameTable v s (s.build u) :=
  ⟨build_tvalid_other s u other, build_table_other s u other⟩

theorem ensureTable_sameTable {u : Variant} (other : v ≠ u) : SameTable v s (s.ensureTable u) := by
  cases hu : s.tvalid u
  · rw [ensureTable_of_invalid _ _ hu]; exact build_sameTable other
  · rw [ensureTable_of_valid _ _ hu]; exact ⟨rfl, rfl⟩

/-! ## Checks -/

theorem source_keepsTable {r : RegId} {k : Word64 → Except Stop State}
    (h : ∀ x, KeepsTable v s (k x)) : KeepsTable v s (source c r k) := by
  unfold source
  split
  · exact h _
  · trivial

theorem requireEngine_keepsTable {available : Bool} {k : Except Stop State}
    (h : KeepsTable v s k) : KeepsTable v s (requireEngine available k) := by
  cases available
  · trivial
  · exact h

theorem tableOf_keepsTable {s' : State} {u : Variant} {k : Table → Except Stop State}
    (h : ∀ T, KeepsTable v s (k T)) : KeepsTable v s (tableOf s' u k) := by
  unfold tableOf
  split
  · exact h _
  · trivial

theorem requireTable_keepsTable {u : Variant} {k : Table → Except Stop State}
    (h : ∀ T, KeepsTable v s (k T)) : KeepsTable v s (requireTable s u k) := by
  unfold requireTable
  split
  · exact tableOf_keepsTable h
  · trivial

theorem requireRange_keepsTable {a : Word64} {n : Nat} {k : Except Stop State}
    (h : KeepsTable v s k) : KeepsTable v s (requireRange s a n k) := by
  unfold requireRange
  split
  · trivial
  · split
    · trivial
    · exact h

/-! ## Rules -/

theorem updateSWRule_keepsTable {u : Variant} (other : v ≠ u) (rd rs1 rs2 rs3 : RegId) :
    KeepsTable v s (updateSWRule u rd rs1 rs2 rs3 s c) :=
  requireEngine_keepsTable <| source_keepsTable fun _ => source_keepsTable fun _ =>
    source_keepsTable fun _ => requireRange_keepsTable <| tableOf_keepsTable fun _ =>
      ensureTable_sameTable other

theorem updateHWRule_keepsTable (rd rs1 rs2 rs3 : RegId) :
    KeepsTable v s (updateHWRule rd rs1 rs2 rs3 s c) :=
  requireEngine_keepsTable <| source_keepsTable fun _ => source_keepsTable fun _ =>
    source_keepsTable fun _ => requireRange_keepsTable <| writeDest_keepsTable _ _

theorem treadRule_keepsTable (u : Variant) (rd rs1 : RegId) :
    KeepsTable v s (treadRule u rd rs1 s c) :=
  source_keepsTable fun _ => requireTable_keepsTable fun _ => writeDest_keepsTable _ _

theorem tstepRule_keepsTable (u : Variant) (rd rs1 rs2 : RegId) :
    KeepsTable v s (tstepRule u rd rs1 rs2 s c) :=
  source_keepsTable fun _ => source_keepsTable fun _ => requireTable_keepsTable fun _ =>
    writeDest_keepsTable _ _

theorem tsliceRule_keepsTable (u : Variant) (rd rs1 rs2 : RegId) :
    KeepsTable v s (tsliceRule u rd rs1 rs2 s c) :=
  source_keepsTable fun _ => source_keepsTable fun _ => requireTable_keepsTable fun _ =>
    writeDest_keepsTable _ _

theorem crcStepRule_keepsTable (step : Word32 → Word64 → Word32) (rd rs1 rs2 : RegId) :
    KeepsTable v s (crcStepRule step rd rs1 rs2 s c) :=
  requireEngine_keepsTable <| source_keepsTable fun _ => source_keepsTable fun _ =>
    writeDest_keepsTable _ _

theorem foldRule_keepsTable (k : Word32) (rd rs1 : RegId) :
    KeepsTable v s (foldRule k rd rs1 s c) :=
  requireEngine_keepsTable <| source_keepsTable fun _ => writeDest_keepsTable _ _

theorem loadRule_keepsTable (order : List Byte → Word64) (n : Nat) (rd rs1 : RegId) :
    KeepsTable v s (loadRule order n rd rs1 s c) :=
  source_keepsTable fun _ => requireRange_keepsTable <| writeDest_keepsTable _ _

/-! ## Commands -/

/-- A fault leaves the tables as they were, so the rule decides. -/
theorem command_sameTable {i : Instr} {t : State} {rule : Context → Except Stop State}
    (h : command i s rule = .next t) (keeps : ∀ c, KeepsTable v s (rule c)) : SameTable v s t := by
  obtain ⟨c, -, ok | ⟨k, f, -, rfl⟩⟩ := command_next h
  · have kept := keeps c
    rwa [ok] at kept
  · exact ⟨rfl, rfl⟩

/-- The three commands left out are those that can build the table of v: TBUILD and the software
update of v, and the dispatched UPDATE where v is bound. -/
theorem exec_sameTable {i : Instr} {t : State} (h : exec i s = .next t) (notTbuild : i ≠ tbuild v)
    (notDispatched : i.isDispatched = false)
    (notUpdateSW : ∀ rd rs1 rs2 rs3, i ≠ updateSW v rd rs1 rs2 rs3) : SameTable v s t := by
  cases i with
  | select rd =>
    exact command_sameTable (i := .select rd)
      (rule := fun _ => .ok (s.writeDest rd (zext64 s.engsel))) h fun _ => writeDest_keepsTable _ _
  | tbuildLE =>
    exact command_sameTable (i := .tbuildLE) (rule := fun _ => .ok (s.build .le)) h
      fun _ => build_sameTable (by rintro rfl; exact notTbuild rfl)
  | tbuildBE =>
    exact command_sameTable (i := .tbuildBE) (rule := fun _ => .ok (s.build .be)) h
      fun _ => build_sameTable (by rintro rfl; exact notTbuild rfl)
  | update => cases notDispatched
  | updateSWLE | updateSWBE =>
    exact command_sameTable h fun _ =>
      updateSWRule_keepsTable (by rintro rfl; exact notUpdateSW _ _ _ _ rfl) _ _ _ _
  | updateHW => exact command_sameTable h fun _ => updateHWRule_keepsTable _ _ _ _
  | treadLE | treadBE => exact command_sameTable h fun _ => treadRule_keepsTable _ _ _
  | tstepLE | tstepBE => exact command_sameTable h fun _ => tstepRule_keepsTable _ _ _ _
  | tsliceLE | tsliceBE => exact command_sameTable h fun _ => tsliceRule_keepsTable _ _ _ _
  | crc32cb | crc32ch | crc32cw | crc32cx =>
    exact command_sameTable h fun _ => crcStepRule_keepsTable _ _ _ _
  | foldk1 | foldk2 => exact command_sameTable h fun _ => foldRule_keepsTable _ _ _
  | clmul =>
    exact command_sameTable h fun _ => requireEngine_keepsTable <| source_keepsTable fun _ =>
      source_keepsTable fun _ => writeDest_keepsTable _ _
  | xor =>
    exact command_sameTable h fun _ => source_keepsTable fun _ => source_keepsTable fun _ =>
      writeDest_keepsTable _ _
  | inv => exact command_sameTable h fun _ => source_keepsTable fun _ => writeDest_keepsTable _ _
  | ldleB | ldleH | ldleW | ldleX | ldbeB | ldbeH | ldbeW | ldbeX =>
    exact command_sameTable h fun _ => loadRule_keepsTable _ _ _ _

end

/-- Settles O23: the frame of each variant's table. -/
theorem commandFrameOfTheTables : Obligations.CommandFrameOfTheTables :=
  fun _ _ _ h => ⟨exec_sameTable (v := .le) h, exec_sameTable (v := .be) h⟩

end Sys2Proof.Proofs
end

section
/-! PROOFS. The slice-by-8 step (41_software_engine.md R97 to R99): the byte lanes of a word, and the
raw CRC of 8 bytes as one table lookup per lane. -/

namespace Sys2Proof.Proofs

open Sys2Proof.Machine Sys2Proof.Laws

/-! ## Byte lanes -/

theorem lanes_succ {w : Nat} (n : Nat) (v : BitVec w) :
    lanes (n + 1) v = lanes n v ++ [byteLane v n] := by
  simp [lanes, List.range_succ]

@[simp] theorem length_lanes {w : Nat} (n : Nat) (v : BitVec w) : (lanes n v).length = n := by
  simp [lanes]

theorem byteLane_xor {w : Nat} (a b : BitVec w) (i : Nat) :
    byteLane (a ^^^ b) i = byteLane a i ^^^ byteLane b i :=
  BitVec.extractLsb'_xor

theorem lanes_xor {w : Nat} (n : Nat) (a b : BitVec w) :
    lanes n (a ^^^ b) = List.zipWith (· ^^^ ·) (lanes n a) (lanes n b) := by
  simp [lanes, List.zipWith_map, byteLane_xor]

/-- A byte appended at the low end is the lowest lane. -/
theorem lanes_append_byte {w : Nat} (n : Nat) (x : BitVec w) (b : Byte) :
    lanes (n + 1) (x ++ b) = b :: lanes n x := by
  have lowest : byteLane (x ++ b) 0 = b := BitVec.extractLsb'_append_eq_right
  have above (i : Nat) : byteLane (x ++ b) (i + 1) = byteLane x i :=
    BitVec.extractLsb'_append_eq_of_le (by omega)
  simp [lanes, List.range_succ_eq_map, lowest, above]

/-- Lanes beyond a value's width hold 0. -/
theorem byteLane_of_width_le {w : Nat} (v : BitVec w) {i : Nat} (h : w ≤ 8 * i) :
    byteLane v i = 0 := by
  ext j hj
  simpa [byteLane] using BitVec.getLsbD_of_ge v _ (by omega)

theorem byteLane_zext64 (c : Word32) (i : Nat) : byteLane (zext64 c) i = byteLane c i := by
  ext j hj
  simp only [byteLane, zext64, BitVec.getElem_extractLsb', BitVec.getLsbD_setWidth,
    Bool.and_eq_right_iff_imp, decide_eq_true_eq]
  exact fun set => (BitVec.lt_of_getLsbD set).trans (by decide)

theorem lanes_zext64 (n : Nat) (c : Word32) : lanes n (zext64 c) = lanes n c :=
  List.map_congr_left fun i _ => byteLane_zext64 c i

/-! ## Words assembled from bytes (00_scope.md R13) -/

theorem leSum_append (a b : List Byte) :
    leSum (a ++ b) = leSum a + 2 ^ (8 * a.length) * leSum b := by
  induction a with
  | nil => simp [leSum]
  | cons x a ih =>
    simp only [List.cons_append, leSum, ih, List.length_cons]
    ring

/-- Big-endian assembly is little-endian assembly of the reversed bytes. -/
theorem beSum_eq_leSum_reverse (bs : List Byte) : beSum bs = leSum bs.reverse := by
  induction bs with
  | nil => rfl
  | cons b bs ih =>
    simp [beSum, leSum_append, leSum, ih, Nat.mul_comm, Nat.add_comm]

theorem BE_eq_LE_reverse (bs : List Byte) : BE bs = LE bs.reverse :=
  congrArg (BitVec.ofNat 64) (beSum_eq_leSum_reverse bs)

/-- Bit `j` of byte `i` stands at bit `8 * i + j` of the sum. -/
theorem testBit_leSum {bs : List Byte} {i j : Nat} (hi : i < bs.length) (hj : j < 8) :
    (leSum bs).testBit (8 * i + j) = bs[i].getLsbD j := by
  induction bs generalizing i with
  | nil => cases hi
  | cons b bs ih =>
    rw [leSum, Nat.add_comm, Nat.testBit_two_pow_mul_add _ b.isLt]
    cases i with
    | zero => simp [hj, BitVec.testBit_toNat]
    | succ i =>
      have above : ¬ 8 * (i + 1) + j < 8 := by omega
      have shifted : 8 * (i + 1) + j - 8 = 8 * i + j := by omega
      rw [if_neg above, shifted]
      exact ih (Nat.lt_of_succ_lt_succ hi)

theorem byteLane_LE {bs : List Byte} (fits : bs.length ≤ 8) {i : Nat} (hi : i < bs.length) :
    byteLane (LE bs) i = bs[i] := by
  ext j hj
  have inWord : 8 * i + j < 64 := by omega
  rw [byteLane, BitVec.getElem_extractLsb', Machine.LE, BitVec.getLsbD_ofNat, testBit_leSum hi hj]
  simp [inWord, BitVec.getLsbD_eq_getElem hj]

theorem lanes_LE {bs : List Byte} (fits : bs.length ≤ 8) : lanes bs.length (LE bs) = bs :=
  List.ext_getElem (by simp) fun i _ hi => by simp [lanes, byteLane_LE fits hi]

/-! ## The byte step (R97) -/

/-- A zero-extended byte has no bits above its lowest 8. -/
theorem xor_zext32_ushiftRight (c : Word32) (b : Byte) : (c ^^^ zext32 b) >>> 8 = c >>> 8 := by
  ext j hj
  simp [zext32]

theorem swbyte_builtTable (c : Word32) (b : Byte) : swbyte builtTable c b = crcbyte c b := by
  rw [swbyte, entry_builtTable, crcbyte, crcbit8_eq_lookup, xor_zext32_ushiftRight]
  rfl

/-! ## The slice steps (R98, R99) -/

/-- Stepping over its own low byte shifts a CRC. -/
theorem crcbyte_lowByte (c : Word32) : crcbyte c (c.extractLsb' 0 8) = c >>> 8 := by
  have cancel : (c ^^^ zext32 (c.extractLsb' 0 8)).extractLsb' 0 8 = 0 := by
    ext j hj
    simpa [zext32, hj] using BitVec.lt_of_getLsbD
  rw [← swbyte_builtTable, swbyte, cancel, entry_builtTable_column_zero]
  exact BitVec.zero_xor

/-- Stepping over its own bytes shifts a CRC out. -/
theorem crcraw_lanes_self (c : Word32) (n : Nat) : crcraw c (lanes n c) = c >>> (8 * n) := by
  induction n with
  | zero => rfl
  | succ n ih =>
    have low : byteLane c n = (c >>> (8 * n)).extractLsb' 0 8 := by
      ext j hj
      simp [byteLane]
    rw [lanes_succ, crcraw_append, ih, low, Nat.mul_succ, BitVec.shiftRight_add]
    exact crcbyte_lowByte _

/-- The start value of a CRC can be XORed into the first bytes instead. -/
theorem crcraw_eq_zero_start (c : Word32) {bs : List Byte} (h : 4 ≤ bs.length) :
    crcraw c bs = crcraw 0 (List.zipWith (· ^^^ ·) bs (lanes bs.length c)) := by
  have out : crcraw c (lanes bs.length c) = 0 := by
    rw [crcraw_lanes_self]
    exact BitVec.ushiftRight_eq_zero (by omega)
  have linear := crcraw_xor c c (bs1 := bs) (bs2 := lanes bs.length c) (by simp)
  rw [BitVec.xor_self, out] at linear
  exact (linear.trans BitVec.xor_zero).symm

/-- The part of the first byte in a CRC from 0: as many zero bytes follow it as there are bytes
after it, which is what a row of the table says. -/
theorem crcraw_zero_cons (b : Byte) (bs : List Byte) :
    crcraw 0 (b :: bs) = rowAt (buildRow bs.length) b ^^^ crcraw 0 bs := by
  have first : crcbyte 0 b = crcbyte (zext32 b) 0 := by
    rw [crcbyte_zero]
    exact congrArg crcbit8 BitVec.zero_xor
  rw [crcraw, crcraw_split, first, rowAt_buildRow]
  rfl

/-- From 0, one lookup per byte. -/
theorem crcraw_zero_eight (b0 b1 b2 b3 b4 b5 b6 b7 : Byte) :
    crcraw 0 [b0, b1, b2, b3, b4, b5, b6, b7] =
      entry builtTable 7 b0 ^^^ entry builtTable 6 b1 ^^^ entry builtTable 5 b2 ^^^
      entry builtTable 4 b3 ^^^ entry builtTable 3 b4 ^^^ entry builtTable 2 b5 ^^^
      entry builtTable 1 b6 ^^^ entry builtTable 0 b7 := by
  simp only [crcraw_zero_cons _ (_ :: _), ← entry_builtTable_zero_eq_crcraw, entry_builtTable,
    BitVec.xor_assoc]
  rfl

theorem sliceLE_eq_crcraw_zero (c : Word32) (w : Word64) :
    sliceLE builtTable c w = crcraw 0 (lanes 8 (w ^^^ zext64 c)) :=
  (crcraw_zero_eight _ _ _ _ _ _ _ _).symm

theorem sliceBE_eq_crcraw_zero (c : Word32) (w : Word64) :
    sliceBE builtTable c w = crcraw 0 (lanes 8 (w ^^^ zext64 (bswap32 c) <<< 32)).reverse :=
  (crcraw_zero_eight _ _ _ _ _ _ _ _).symm

/-- The little-endian slice step runs the raw CRC over the lanes of its word, lowest first. -/
theorem sliceLE_builtTable (c : Word32) (w : Word64) :
    sliceLE builtTable c w = crcraw c (lanes 8 w) := by
  rw [sliceLE_eq_crcraw_zero, lanes_xor, lanes_zext64, crcraw_eq_zero_start c (by simp)]
  simp only [length_lanes]

theorem lanes_bswap32 (c : Word32) : lanes 4 (bswap32 c) = (lanes 4 c).reverse := by
  have one (b : Byte) : lanes 1 b = [b] := congrArg (fun x => [x]) BitVec.extractLsb'_eq_self
  rw [bswap32, lanes_append_byte, lanes_append_byte, lanes_append_byte, one]
  rfl

/-- Shifting by four bytes appends four zero bytes. -/
theorem zext64_shiftLeft_32 (v : Word32) :
    zext64 v <<< 32 = v ++ 0#8 ++ 0#8 ++ 0#8 ++ 0#8 := by
  have small : v.toNat < 2 ^ 64 := v.isLt.trans (by decide)
  have fits : v.toNat <<< 32 < 2 ^ 64 := by
    rw [Nat.shiftLeft_eq]
    exact Nat.mul_lt_mul_of_pos_right v.isLt (by decide)
  apply BitVec.eq_of_toNat_eq
  simp only [zext64, BitVec.toNat_shiftLeft, BitVec.toNat_setWidth, Nat.mod_eq_of_lt small,
    Nat.mod_eq_of_lt fits, BitVec.toNat_append, BitVec.toNat_ofNat, Nat.zero_mod, Nat.or_zero,
    ← Nat.shiftLeft_add]

/-- From the highest lane down, the mirrored CRC of R99 has the bytes of the CRC, and zeros after
them, as the little-endian step has them from the lowest lane up. -/
theorem reverse_lanes_mirrored (c : Word32) :
    (lanes 8 (zext64 (bswap32 c) <<< 32)).reverse = lanes 8 c := by
  have upper : lanes 8 c = lanes 4 c ++ [0#8, 0#8, 0#8, 0#8] := by
    simp [lanes, List.range_succ, byteLane_of_width_le]
  rw [zext64_shiftLeft_32, lanes_append_byte, lanes_append_byte, lanes_append_byte,
    lanes_append_byte, lanes_bswap32, upper]
  simp

/-- The big-endian slice step runs the raw CRC over the lanes of its word, highest first. -/
theorem sliceBE_builtTable (c : Word32) (w : Word64) :
    sliceBE builtTable c w = crcraw c (lanes 8 w).reverse := by
  rw [sliceBE_eq_crcraw_zero, lanes_xor, List.reverse_zipWith (by simp), reverse_lanes_mirrored,
    crcraw_eq_zero_start c (by simp)]
  simp only [List.length_reverse, length_lanes]

theorem sliceLE_LE (c : Word32) {bs : List Byte} (eight : bs.length = 8) :
    sliceLE builtTable c (LE bs) = crcraw c bs := by
  rw [sliceLE_builtTable, ← eight, lanes_LE (Nat.le_of_eq eight)]

theorem sliceBE_BE (c : Word32) {bs : List Byte} (eight : bs.length = 8) :
    sliceBE builtTable c (BE bs) = crcraw c bs := by
  have eight' : bs.reverse.length = 8 := List.length_reverse.trans eight
  rw [sliceBE_builtTable, BE_eq_LE_reverse, ← eight', lanes_LE (Nat.le_of_eq eight'),
    List.reverse_reverse]

/-- Settles O49: the byte step by the table step, and either slice step by its lanes. -/
theorem sliceStepsAreEightByteSteps : Obligations.SliceStepsAreEightByteSteps :=
  fun c b _ eight => ⟨swbyte_builtTable c b, sliceLE_LE c eight, sliceBE_BE c eight⟩

end Sys2Proof.Proofs
end

section
/-! PROOFS. The software update (41_software_engine.md R104 to R107, R110): what its loops consume,
and the checksum they compute. -/

namespace Sys2Proof.Proofs

open Sys2Proof.Machine Sys2Proof.Laws

/-! ## What a loop consumes -/

section
variable {n : Nat} {turn : (Nat → Byte) → Word32 → Nat → Word32} {mem : Nat → Byte}

/-- A loop that takes `n` bytes as long as `n` are left takes as many whole turns as there are. -/
theorem greedyLoop_consumes (pos : 0 < n) {fuel : Nat} {w : Work} (enough : w.rem ≤ fuel) :
    (whileLoop (fun w => decide (n ≤ w.rem)) (consume n turn mem) fuel w).p =
        w.p + n * (w.rem / n) ∧
      (whileLoop (fun w => decide (n ≤ w.rem)) (consume n turn mem) fuel w).rem = w.rem % n := by
  induction fuel generalizing w with
  | zero =>
    have nothing : w.rem = 0 := Nat.le_zero.mp enough
    simp [whileLoop, nothing]
  | succ fuel ih =>
    by_cases more : n ≤ w.rem
    · obtain ⟨hp, hrem⟩ := ih (w := consume n turn mem w) (by simp only [consume]; omega)
      rw [whileLoop_of_more (decide_eq_true more), hp, hrem, Nat.div_eq_sub_div pos more,
        Nat.mod_eq_sub_mod more]
      simp only [consume, Nat.mul_add, Nat.mul_one, and_true]
      omega
    · have few : w.rem < n := Nat.lt_of_not_le more
      rw [whileLoop_of_done (by simpa using few), Nat.div_eq_of_lt few, Nat.mod_eq_of_lt few]
      exact ⟨rfl, rfl⟩

end

/-! ## The phases (R105 to R107) -/

/-- The bytes up to the next multiple of 8, or all that are left if they are fewer (R105). -/
def alignCount (w : Work) : Nat := min w.rem ((8 - w.p % 8) % 8)

section
variable (v : Variant) (T : Table) (mem : Nat → Byte) (w : Work)

theorem alignLoop_consumes {fuel : Nat} {w : Work} (enough : w.rem ≤ fuel) :
    (whileLoop (fun w => decide (0 < w.rem) && decide (w.p % 8 ≠ 0)) (swByteTurn T mem) fuel w).p =
        w.p + alignCount w ∧
      (whileLoop (fun w => decide (0 < w.rem) && decide (w.p % 8 ≠ 0)) (swByteTurn T mem) fuel
        w).rem = w.rem - alignCount w := by
  induction fuel generalizing w with
  | zero => simp only [whileLoop, alignCount]; omega
  | succ fuel ih =>
    by_cases more : 0 < w.rem ∧ w.p % 8 ≠ 0
    · obtain ⟨hp, hrem⟩ := ih (w := swByteTurn T mem w) (by simp only [swByteTurn]; omega)
      rw [whileLoop_of_more (by simpa using more), hp, hrem]
      simp only [swByteTurn, alignCount]
      omega
    · rw [whileLoop_of_done (by simpa using more)]
      simp only [alignCount]
      omega

theorem swAlign_consumes :
    (swAlign T mem w).p = w.p + alignCount w ∧ (swAlign T mem w).rem = w.rem - alignCount w :=
  alignLoop_consumes T mem (Nat.le_refl _)

theorem swAlign_ends : (swAlign T mem w).rem = 0 ∨ (swAlign T mem w).p % 8 = 0 := by
  obtain ⟨hp, hrem⟩ := swAlign_consumes T mem w
  rw [hp, hrem, alignCount]
  omega

theorem swBulk_consumes : (swBulk v T mem w).p = w.p + 8 * (w.rem / 8) ∧
    (swBulk v T mem w).rem = w.rem % 8 :=
  greedyLoop_consumes (turn := fun mem c p => slice v T c (bulkWord v (memRead mem p 8)))
    (by decide) (Nat.le_refl _)

theorem swTail_consumes : (swTail T mem w).p = w.p + w.rem ∧ (swTail T mem w).rem = 0 := by
  have turns := greedyLoop_consumes (turn := fun mem c p => swbyte T c (mem p)) (mem := mem)
    Nat.one_pos (Nat.le_refl w.rem)
  rwa [Nat.div_one, Nat.one_mul, Nat.mod_one] at turns

end

/-- Settles O50: phase 1 by its own induction, phases 2 and 3 as loops of whole turns. -/
theorem softwarePhasesConsumeTheirBytes : Obligations.SoftwarePhasesConsumeTheirBytes :=
  fun v T mem w =>
    have ⟨hp, hrem⟩ := swAlign_consumes T mem w
    ⟨⟨hp, hrem, swAlign_ends T mem w⟩, swBulk_consumes v T mem w, swTail_consumes T mem w⟩

/-! ## The CRC owed -/

/-- The raw CRC of the bytes still to be consumed, from the working CRC: what an update is to return,
before its last inversion. -/
def owed (mem : Nat → Byte) (w : Work) : Word32 := crcraw w.c (memRead mem w.p w.rem)

theorem owed_of_none {mem : Nat → Byte} {w : Work} (none : w.rem = 0) : owed mem w = w.c := by
  rw [owed, none]
  rfl

/-- A turn steps the raw CRC over the `n` bytes at the read pointer. -/
def StepsRawCrc (n : Nat) (turn : (Nat → Byte) → Word32 → Nat → Word32) : Prop :=
  ∀ mem c p, turn mem c p = crcraw c (memRead mem p n)

section
variable {n : Nat} {turn : (Nat → Byte) → Word32 → Nat → Word32} (steps : StepsRawCrc n turn)
include steps

/-- Such a turn leaves the CRC owed as it was. -/
theorem owed_consume (mem : Nat → Byte) {w : Work} (enough : n ≤ w.rem) :
    owed mem (consume n turn mem w) = owed mem w := by
  have split : w.rem = n + (w.rem - n) := by omega
  calc owed mem (consume n turn mem w)
      = crcraw (crcraw w.c (memRead mem w.p n)) (memRead mem (w.p + n) (w.rem - n)) :=
        congrArg (crcraw · _) (steps mem w.c w.p)
    _ = crcraw w.c (memRead mem w.p (n + (w.rem - n))) := by rw [memRead_add, crcraw_append]
    _ = owed mem w := by rw [owed, ← split]

/-- So does a loop of such turns that goes on only while a turn's bytes are left. -/
theorem owed_whileLoop (mem : Nat → Byte) {cond : Work → Bool}
    (enough : ∀ w, cond w = true → n ≤ w.rem) (fuel : Nat) (w : Work) :
    owed mem (whileLoop cond (consume n turn mem) fuel w) = owed mem w := by
  induction fuel generalizing w with
  | zero => rfl
  | succ fuel ih =>
    cases more : cond w
    · rw [whileLoop_of_done more]
    · rw [whileLoop_of_more more, ih, owed_consume steps mem (enough w more)]

end

theorem swbyte_stepsRawCrc : StepsRawCrc 1 fun mem c p => swbyte builtTable c (mem p) :=
  fun mem c p => swbyte_builtTable c (mem p)

theorem slice_stepsRawCrc (v : Variant) :
    StepsRawCrc 8 fun mem c p => slice v builtTable c (bulkWord v (memRead mem p 8)) := by
  intro mem c p
  cases v with
  | le => exact sliceLE_LE c (memRead_length mem p 8)
  | be => exact sliceBE_BE c (memRead_length mem p 8)

section
variable (v : Variant) (mem : Nat → Byte) (w : Work)

theorem owed_swAlign : owed mem (swAlign builtTable mem w) = owed mem w :=
  owed_whileLoop swbyte_stepsRawCrc mem (fun w more => by
    simp only [Bool.and_eq_true, decide_eq_true_eq] at more
    exact more.1) w.rem w

theorem owed_swBulk : owed mem (swBulk v builtTable mem w) = owed mem w :=
  owed_whileLoop (slice_stepsRawCrc v) mem (fun _ more => of_decide_eq_true more) w.rem w

theorem owed_swTail : owed mem (swTail builtTable mem w) = owed mem w :=
  owed_whileLoop swbyte_stepsRawCrc mem (fun _ more => of_decide_eq_true more) w.rem w

/-- The tail consumes all that is left, so its working CRC is the CRC owed. -/
theorem swTail_c : (swTail builtTable mem w).c = owed mem w := by
  rw [← owed_swTail, owed_of_none (swTail_consumes builtTable mem w).2]

end

/-! ## The checksum -/

theorem swUpdate_builtTable (v : Variant) (mem : Nat → Byte) (acc : Word32) (a len : Nat) :
    swUpdate v builtTable mem acc a len = crc32c acc (memRead mem a len) := by
  rw [swUpdate, swTail_c, owed_swBulk, owed_swAlign]
  rfl

theorem crc32c_nil (acc : Word32) : crc32c acc [] = acc := BitVec.not_not

/-- Settles O53: the CRC owed is kept by every phase; the rest are laws of the checksum. -/
theorem softwareUpdateIsTheChecksum : Obligations.SoftwareUpdateIsTheChecksum := by
  intro v mem acc a len
  refine ⟨swUpdate_builtTable v mem acc a len, fun mem' a' same => ?_, ?_, fun m n => ?_⟩
  · rw [swUpdate_builtTable, swUpdate_builtTable, same]
  · exact (swUpdate_builtTable v mem acc a 0).trans (crc32c_nil acc)
  · simp only [swUpdate_builtTable, memRead_add, crc32c_append]

end Sys2Proof.Proofs
end

section
/-! PROOFS. Where the commands of the software engine complete (41_software_engine.md R100 to R103,
R108, R109). -/

namespace Sys2Proof.Proofs

open Sys2Proof.Machine Sys2Proof.Laws

/-- Where the valid flag tells the truth, the lazy build leaves what a build leaves: a valid table is
the built one already. -/
theorem ensureTable_of_legal {s : State} {v : Variant} (legal : s.tableLegal v) :
    s.ensureTable v = s.build v := by
  obtain ⟨valid, built⟩ | ⟨invalid, -⟩ := legal
  · rw [ensureTable_of_valid _ _ valid]
    cases v with
    | le => exact congrArg₂ (fun t b => { s with tableLE := t, tvalidLE := b }) built valid
    | be => exact congrArg₂ (fun t b => { s with tableBE := t, tvalidBE := b }) built valid
  · exact ensureTable_of_invalid _ _ invalid

section
variable {s : State} {c : Context} {v : Variant} {rs1 rs2 : RegId} {x y : Word64}
  (hx : c.reg rs1 = some x) (hy : c.reg rs2 = some y)
include hx hy

/-! ## TSTEP and TSLICE -/

section
variable {T : Table} (valid : s.tvalid v = true) (hT : s.table v = some T)
include valid hT

theorem tstepRule_of_valid (rd : RegId) : tstepRule v rd rs1 rs2 s c =
    .ok (s.writeDest rd (zext64 (swbyte T (low32 x) (low8 y)))) := by
  rw [tstepRule, source_of_value hx, source_of_value hy, requireTable_of_valid valid hT]

theorem tsliceRule_of_valid (rd : RegId) : tsliceRule v rd rs1 rs2 s c =
    .ok (s.writeDest rd (zext64 (slice v T (low32 x) y))) := by
  rw [tsliceRule, source_of_value hx, source_of_value hy, requireTable_of_valid valid hT]

end

/-! ## The software updates -/

theorem updateSWRule_of_readable {rs3 : RegId} {len : Word64} (hn : c.reg rs3 = some len)
    (inRange : InRange s y.toNat len.toNat) (mapped : AllMapped s y.toNat len.toNat)
    (engine : Feat.swAvailable v s.feat = true) (legal : s.tableLegal v) (rd : RegId) :
    updateSWRule v rd rs1 rs2 rs3 s c = .ok ((s.build v).writeDest rd
      (zext64 (swUpdate v builtTable s.byteAt (low32 x) y.toNat len.toNat))) := by
  rw [updateSWRule, engine, requireEngine_of_available, source_of_value hx, source_of_value hy,
    source_of_value hn, requireRange_of_readable (outOfRange_of_inRange inRange)
      (firstUnmapped_of_allMapped mapped), tableOf, ensureTable_table legal,
    ensureTable_of_legal legal]

end

/-- Settles O35: the rules of TSTEP and TSLICE, at either variant. -/
theorem tstepAndTsliceComplete : Obligations.TstepAndTsliceComplete :=
  fun _ _ rd _ _ _ _ _ hc hx hy =>
    ⟨fun valid hT =>
        ⟨command_of_ok hc (tstepRule_of_valid (v := .le) hx hy valid hT rd),
          command_of_ok hc (tsliceRule_of_valid (v := .le) hx hy valid hT rd)⟩,
      fun valid hT =>
        ⟨command_of_ok hc (tstepRule_of_valid (v := .be) hx hy valid hT rd),
          command_of_ok hc (tsliceRule_of_valid (v := .be) hx hy valid hT rd)⟩⟩

/-- Settles O42: the rule of the software update, at either variant. -/
theorem softwareUpdatesComplete : Obligations.SoftwareUpdatesComplete :=
  fun _ _ rd _ _ _ _ _ _ hc hacc ha hn inRange mapped =>
    ⟨fun engine legal => command_of_ok hc
        (updateSWRule_of_readable (v := .le) hacc ha hn inRange mapped engine legal rd),
      fun engine legal => command_of_ok hc
        (updateSWRule_of_readable (v := .be) hacc ha hn inRange mapped engine legal rd)⟩

end Sys2Proof.Proofs
end

section
/-! PROOFS. The carry-less product (00_scope.md R19; 42_hardware_engine.md R116): it is linear in
either operand, and its laws. -/

namespace Sys2Proof.Proofs

open Sys2Proof.Machine Sys2Proof.Laws

/-! ## Linearity -/

theorem zext64_xor (a b : Word32) : zext64 (a ^^^ b) = zext64 a ^^^ zext64 b :=
  BitVec.setWidth_xor

theorem getLsbD_zext64 (c : Word32) (j : Nat) : (zext64 c).getLsbD j = c.getLsbD j := by
  have inWord : c.getLsbD j = true → j < 64 := fun set =>
    (BitVec.lt_of_getLsbD set).trans (by decide)
  simpa [zext64]

theorem clmulBits_xor_left (a1 a2 b : Word32) (n : Nat) :
    clmulBits (a1 ^^^ a2) b n = clmulBits a1 b n ^^^ clmulBits a2 b n := by
  induction n with
  | zero => exact BitVec.xor_self.symm
  | succ n ih =>
    simp only [clmulBits, ih]
    cases b.getLsbD n with
    | false => simp
    | true =>
      simp only [if_true, zext64_xor, BitVec.shiftLeft_xor_distrib]
      ac_rfl

theorem clmul_xor_left (a1 a2 b : Word32) : clmul (a1 ^^^ a2) b = clmul a1 b ^^^ clmul a2 b :=
  clmulBits_xor_left a1 a2 b 32

theorem clmul_zero_left (b : Word32) : clmul 0 b = 0 := by
  simpa using clmul_xor_left 0 0 b

/-! ## The product by a power of two -/

/-- The low `n` bits of a value: the part of the second operand that `clmulBits` has used after `n`
terms. -/
def lowBits (b : Word32) (n : Nat) : Word32 := zext32 (b.setWidth n)

theorem getElem_lowBits (b : Word32) {n j : Nat} (hj : j < 32) :
    (lowBits b n)[j] = (decide (j < n) && b[j]) := by
  simp [lowBits, zext32, BitVec.getLsbD_eq_getElem hj]

theorem lowBits_zero (b : Word32) : lowBits b 0 = 0 := by
  ext j hj
  simp [getElem_lowBits b hj]

theorem lowBits_all (b : Word32) : lowBits b 32 = b := by
  ext j hj
  simp [getElem_lowBits b hj, hj]

theorem lowBits_succ (b : Word32) (n : Nat) :
    lowBits b (n + 1) = lowBits b n ^^^ (if b.getLsbD n then BitVec.twoPow 32 n else 0) := by
  ext j hj
  rw [BitVec.getElem_xor, getElem_lowBits b hj, getElem_lowBits b hj]
  by_cases top : j = n
  · subst top
    cases set : b[j] <;> simp [BitVec.getLsbD_eq_getElem hj, set]
  · have same : j < n + 1 ↔ j < n := by omega
    cases b.getLsbD n <;> simp [same, top]

/-- Either power may stand for the shift. -/
theorem zext64_twoPow_shiftLeft {j : Nat} (hj : j < 32) (n : Nat) :
    zext64 (BitVec.twoPow 32 j) <<< n = BitVec.twoPow 64 (j + n) := by
  have wide : zext64 (BitVec.twoPow 32 j) = BitVec.twoPow 64 j := by
    ext i hi
    by_cases low : i < 32
    · simp [zext64, low]
    · have above : i ≠ j := by omega
      simp [zext64, above, above.symm]
  rw [wide, BitVec.twoPow_eq, BitVec.twoPow_eq, ← BitVec.shiftLeft_add]

theorem clmulBits_twoPow_left (b : Word32) {j : Nat} (hj : j < 32) {n : Nat} (hn : n ≤ 32) :
    clmulBits (BitVec.twoPow 32 j) b n = zext64 (lowBits b n) <<< j := by
  induction n with
  | zero => simp [clmulBits, lowBits_zero, zext64]
  | succ n ih =>
    rw [clmulBits, ih (Nat.le_of_succ_le hn), lowBits_succ, zext64_xor,
      BitVec.shiftLeft_xor_distrib]
    cases b.getLsbD n with
    | false => simp [zext64]
    | true =>
      simp only [if_true, zext64_twoPow_shiftLeft hj, zext64_twoPow_shiftLeft hn, Nat.add_comm]

theorem clmul_twoPow_left (b : Word32) {j : Nat} (hj : j < 32) :
    clmul (BitVec.twoPow 32 j) b = zext64 b <<< j := by
  rw [clmul, clmulBits_twoPow_left b hj (Nat.le_refl _), lowBits_all]

/-! ## The laws -/

theorem clmul_one_left (b : Word32) : clmul 1 b = zext64 b :=
  (clmul_twoPow_left b (j := 0) (by decide)).trans (BitVec.shiftLeft_zero _)

/-- The first `n` terms are the product, the other way round, by the bits they have used: each term
is a product by a power of two. -/
theorem clmulBits_eq_clmul_lowBits (a b : Word32) {n : Nat} (hn : n ≤ 32) :
    clmulBits a b n = clmul (lowBits b n) a := by
  induction n with
  | zero => rw [lowBits_zero, clmul_zero_left, clmulBits]
  | succ n ih =>
    rw [clmulBits, ih (Nat.le_of_succ_le hn), lowBits_succ, clmul_xor_left]
    cases b.getLsbD n with
    | false => exact congrArg _ (clmul_zero_left a).symm
    | true => exact congrArg _ (clmul_twoPow_left a hn).symm

theorem clmul_comm (a b : Word32) : clmul a b = clmul b a := by
  rw [clmul, clmulBits_eq_clmul_lowBits a b (Nat.le_refl _), lowBits_all]

/-- No term reaches bit 63: an operand of 32 bits is shifted by 31 at most. -/
theorem getLsbD_63_clmulBits (a b : Word32) {n : Nat} (hn : n ≤ 32) :
    (clmulBits a b n).getLsbD 63 = false := by
  induction n with
  | zero => exact BitVec.getLsbD_zero
  | succ n ih =>
    have clear : (zext64 a <<< n).getLsbD 63 = false := by
      rw [BitVec.getLsbD_shiftLeft, getLsbD_zext64, BitVec.getLsbD_of_ge a _ (by omega)]
      exact Bool.and_false _
    rw [clmulBits, BitVec.getLsbD_xor, ih (Nat.le_of_succ_le hn)]
    cases b.getLsbD n with
    | false => simp
    | true => exact (Bool.false_xor _).trans clear

/-- Settles O58: commutativity turns the terms round; 0 and 1 are cases of linearity and of a power
of two. -/
theorem carrylessProductLaws : Obligations.CarrylessProductLaws :=
  fun a b => ⟨clmul_comm a b, clmul_zero_left b, clmul_one_left b,
    getLsbD_63_clmulBits a b (Nat.le_refl _)⟩

end Sys2Proof.Proofs
end

section
/-! PROOFS. The fold (42_hardware_engine.md R117, R120): an 8-byte CRC step on a 64-bit register, and
the constants by which a fold advances a CRC past a number of zero words. -/

namespace Sys2Proof.Proofs

open Sys2Proof.Machine Sys2Proof.Laws

/-! ## The polynomial step on a 64-bit register -/

/-- `crcbit` at 64 bits: a CRC and the data still to be taken into it, in one register. -/
def crcbit64 (v : Word64) : Word64 := if v.getLsbD 0 then v >>> 1 ^^^ zext64 POLY else v >>> 1

theorem crcbit64_xor (a b : Word64) : crcbit64 (a ^^^ b) = crcbit64 a ^^^ crcbit64 b := by
  simp only [crcbit64, BitVec.getLsbD_xor, BitVec.ushiftRight_xor_distrib]
  cases a.getLsbD 0 <;> cases b.getLsbD 0 <;> simp <;> ac_nf
  simp

theorem crcbit64_iterate_xor (n : Nat) (a b : Word64) :
    crcbit64^[n] (a ^^^ b) = crcbit64^[n] a ^^^ crcbit64^[n] b := by
  induction n generalizing a b with
  | zero => rfl
  | succ n ih => simp only [Function.iterate_succ_apply, crcbit64_xor, ih]

theorem crcbit64_zext64 (c : Word32) : crcbit64 (zext64 c) = zext64 (crcbit c) := by
  have shift : zext64 c >>> 1 = zext64 (c >>> 1) := by
    ext j hj
    simp [zext64]
  rw [crcbit64, crcbit, shift, getLsbD_zext64]
  cases c.getLsbD 0 with
  | false => rfl
  | true => exact (zext64_xor _ _).symm

/-- A register that holds a CRC and no more data goes through the steps of the CRC. -/
theorem crcbit64_iterate_zext64 (n : Nat) (c : Word32) :
    crcbit64^[n] (zext64 c) = zext64 (crcbit^[n] c) :=
  Function.Semiconj.iterate_right (f := zext64) (fun c => (crcbit64_zext64 c).symm) n c |>.symm

/-- Zero bits at the low end are shifted out and never add the polynomial. -/
theorem crcbit64_iterate_of_low_zero {v : Word64} {n : Nat} (low : ∀ j < n, v.getLsbD j = false) :
    crcbit64^[n] v = v >>> n := by
  induction n with
  | zero => simp
  | succ n ih =>
    rw [Function.iterate_succ_apply', ih fun j hj => low j (Nat.lt_succ_of_lt hj)]
    simp [crcbit64, low n (Nat.lt_succ_self n), BitVec.shiftRight_add]

/-- A value that does not overflow is shifted back. -/
theorem crcbit64_iterate_shiftLeft {v : Word64} {n : Nat} (fits : v <<< n >>> n = v) :
    crcbit64^[n] (v <<< n) = v := by
  rw [crcbit64_iterate_of_low_zero (fun j hj => by simp [hj]), fits]

/-! ## The 8-byte CRC step on that register -/

/-- A word is its low byte and, apart from it, its upper bytes. -/
theorem word64_eq_lowByte_xor_upper (w : Word64) :
    w = zext64 (zext32 (byteLane w 0)) ^^^ w >>> 8 <<< 8 := by
  ext j hj
  by_cases low : j < 8
  · simp [zext64, zext32, byteLane, low, BitVec.getLsbD_eq_getElem hj]
  · have back : 8 + (j - 8) = j := by omega
    simp [zext64, zext32, byteLane, low, back, BitVec.getLsbD_eq_getElem hj]

/-- Eight steps take one byte of the data into the CRC. -/
theorem crcbit64_iterate_eight (c : Word32) (w : Word64) :
    crcbit64^[8] (zext64 c ^^^ w) = zext64 (crcbyte c (byteLane w 0)) ^^^ w >>> 8 := by
  have upper : crcbit64^[8] (w >>> 8 <<< 8) = w >>> 8 :=
    crcbit64_iterate_shiftLeft (by ext j hj; simpa using BitVec.lt_of_getLsbD)
  calc crcbit64^[8] (zext64 c ^^^ w)
      = crcbit64^[8] (zext64 (c ^^^ zext32 (byteLane w 0)) ^^^ w >>> 8 <<< 8) := by
        rw [zext64_xor, BitVec.xor_assoc, ← word64_eq_lowByte_xor_upper]
    _ = zext64 (crcbyte c (byteLane w 0)) ^^^ w >>> 8 := by
        rw [crcbit64_iterate_xor, upper, crcbit64_iterate_zext64]
        rfl

/-- So `8 * n` steps take the low `n` bytes. -/
theorem crcbit64_iterate_lanes (c : Word32) (w : Word64) (n : Nat) :
    crcbit64^[8 * n] (zext64 c ^^^ w) = zext64 (crcraw c (lanes n w)) ^^^ w >>> (8 * n) := by
  induction n with
  | zero => simp [lanes, crcraw]
  | succ n ih =>
    have next : byteLane w n = byteLane (w >>> (8 * n)) 0 := by
      ext j hj
      simp [byteLane]
    rw [Nat.mul_succ, Nat.add_comm, Function.iterate_add_apply, ih, crcbit64_iterate_eight, ← next,
      lanes_succ, crcraw_append, Nat.add_comm, BitVec.shiftRight_add]
    rfl

theorem zext64_hwcrc8 (c : Word32) (w : Word64) :
    zext64 (hwcrc8 c w) = crcbit64^[64] (zext64 c ^^^ w) := by
  have gone : w >>> (8 * 8) = 0 := BitVec.ushiftRight_eq_zero (Nat.le_refl 64)
  have steps := crcbit64_iterate_lanes c w 8
  rw [gone] at steps
  exact (steps.trans BitVec.xor_zero).symm

theorem zext64_injective : Function.Injective (zext64 : Word32 → Word64) := by
  intro a b h
  exact BitVec.eq_of_getLsbD_eq fun j _ => by rw [← getLsbD_zext64, h, getLsbD_zext64]

/-- From accumulator 0, a shifted value enters the CRC only after the zeros below it. -/
theorem hwcrc8_zero_shiftLeft (a : Word32) {n : Nat} (hn : n ≤ 32) :
    hwcrc8 0 (zext64 a <<< n) = crcbit^[64 - n] a := by
  have fits : zext64 a <<< n >>> n = zext64 a := by
    refine BitVec.eq_of_getLsbD_eq fun j _ => ?_
    have inWord : a.getLsbD j = true → n + j < 64 := fun set => by
      have := BitVec.lt_of_getLsbD set
      omega
    simpa [getLsbD_zext64]
  apply zext64_injective
  calc zext64 (hwcrc8 0 (zext64 a <<< n))
      = crcbit64^[64 - n] (crcbit64^[n] (zext64 a <<< n)) := by
        rw [zext64_hwcrc8, ← Function.iterate_add_apply, Nat.sub_add_cancel (by omega)]
        exact congrArg _ BitVec.zero_xor
    _ = zext64 (crcbit^[64 - n] a) := by
        rw [crcbit64_iterate_shiftLeft fits, crcbit64_iterate_zext64]

/-! ## Folding -/

theorem hwcrc8_zero_xor (v w : Word64) : hwcrc8 0 (v ^^^ w) = hwcrc8 0 v ^^^ hwcrc8 0 w := by
  have linear := crcraw_xor 0 0 (bs1 := lanes 8 v) (bs2 := lanes 8 w) (by simp)
  rwa [← lanes_xor, BitVec.xor_self] at linear

theorem hwcrc8_zero_zero : hwcrc8 0 0 = 0 := by
  simpa using hwcrc8_zero_xor 0 0

theorem crcbit_zero : crcbit 0 = 0 := by decide

/-- Every term of the product goes through its own number of polynomial steps, so one more step on
the operand is one more on the result. -/
theorem hwcrc8_zero_clmulBits_crcbit (a b : Word32) {n : Nat} (hn : n ≤ 32) :
    hwcrc8 0 (clmulBits (crcbit a) b n) = crcbit (hwcrc8 0 (clmulBits a b n)) := by
  induction n with
  | zero => simp only [clmulBits, hwcrc8_zero_zero, crcbit_zero]
  | succ n ih =>
    have term : crcbit^[64 - n] (crcbit a) = crcbit (crcbit^[64 - n] a) := by
      rw [← Function.iterate_succ_apply, Function.iterate_succ_apply']
    simp only [clmulBits, hwcrc8_zero_xor, ih (Nat.le_of_succ_le hn), crcbit_xor]
    cases b.getLsbD n with
    | false => simp only [Bool.false_eq_true, if_false, hwcrc8_zero_zero, crcbit_zero]
    | true => simp only [if_true, hwcrc8_zero_shiftLeft _ (Nat.le_of_succ_le hn), term]

theorem foldk_crcbit (c k : Word32) : foldk (crcbit c) k = crcbit (foldk c k) :=
  hwcrc8_zero_clmulBits_crcbit c k (Nat.le_refl _)

theorem foldk_crcbit8 (c k : Word32) : foldk (crcbit8 c) k = crcbit8 (foldk c k) := by
  simp only [crcbit8, foldk_crcbit]

/-- Zero bytes before a fold are zero bytes after it. -/
theorem foldk_crcraw_zeros (c k : Word32) (n : Nat) :
    foldk (crcraw c (List.replicate n 0)) k = crcraw (foldk c k) (List.replicate n 0) := by
  induction n with
  | zero => rfl
  | succ n ih => rw [crcraw_replicate_succ, foldk_crcbit8, ih, crcraw_replicate_succ]

theorem foldk_comm (a b : Word32) : foldk a b = foldk b a :=
  congrArg (hwcrc8 0) (clmul_comm a b)

/-! ## Constants that advance a CRC past zero words -/

/-- Folding by `k` advances every CRC past `n` zero words of 8 bytes. -/
def Advances (k : Word32) (n : Nat) : Prop :=
  ∀ c, foldk c k = crcraw c (List.replicate (8 * n) 0)

/-- A CRC taken as data from accumulator 0 is the CRC advanced past zeros. -/
theorem hwcrc8_zero_zext64 (c : Word32) : hwcrc8 0 (zext64 c) = crcraw c (List.replicate 8 0) := by
  have zeros := zipWith_xor_replicate_zero (lanes 8 c)
  rw [length_lanes] at zeros
  rw [crcraw_eq_zero_start c (by simp), List.length_replicate, zeros, ← lanes_zext64]
  rfl

theorem advances_one : Advances 1 1 := by
  intro c
  rw [foldk_comm, foldk, clmul_one_left, hwcrc8_zero_zext64]

/-- The fold of one constant by another advances past the words of both: the words of the second
come out of the constant and go to the CRC. -/
theorem Advances.add {a b k : Word32} {m n : Nat} (ha : Advances a m) (hb : Advances b n)
    (product : foldk a b = k) : Advances k (m + n) := by
  intro c
  calc foldk c k
      = foldk (crcraw a (List.replicate (8 * n) 0)) c := by rw [← product, hb, foldk_comm]
    _ = crcraw (foldk c a) (List.replicate (8 * n) 0) := by rw [foldk_crcraw_zeros, foldk_comm]
    _ = crcraw c (List.replicate (8 * (m + n)) 0) := by
        rw [ha, ← crcraw_append, List.replicate_append_replicate, Nat.mul_add]

/-- The constant of 42 words, the spacing of the lanes (R122), by doubling. -/
theorem advances_lane : Advances 0xA60CE07B 42 :=
  have two : Advances 0x493C7D27 2 := advances_one.add advances_one (by decide +kernel)
  have four : Advances 0xBA4FC28E 4 := two.add two (by decide +kernel)
  have five : Advances 0x3DA6D0CB 5 := four.add advances_one (by decide +kernel)
  have ten : Advances 0x39D3B296 10 := five.add five (by decide +kernel)
  have twenty : Advances 0x878A92A7 20 := ten.add ten (by decide +kernel)
  have half : Advances 0x1B3D8F29 21 := twenty.add advances_one (by decide +kernel)
  half.add half (by decide +kernel)

/-- K2 advances past lane 2 and the trailing word. -/
theorem advances_K2 : Advances K2 43 := advances_lane.add advances_one (by decide +kernel)

/-- K1 advances past lane 1 as well. -/
theorem advances_K1 : Advances K1 (42 + 43) := advances_lane.add advances_K2 (by decide +kernel)

/-- Settles O54: 85 and 43 words of 8 bytes. -/
theorem foldsAdvancePastZeroBytes : Obligations.FoldsAdvancePastZeroBytes :=
  fun c => ⟨advances_K1 c, advances_K2 c⟩

end Sys2Proof.Proofs
end

section
/-! PROOFS. The block of the hardware engine (42_hardware_engine.md R111, R122 to R125): the CRC step
of every size on bytes of memory, the three lanes, and their merge by the folds. -/

namespace Sys2Proof.Proofs

open Sys2Proof.Machine Sys2Proof.Laws

/-! ## The CRC steps on bytes of memory -/

/-- The low lanes of a value are those of its low bits. -/
theorem lanes_extractLsb' {w : Nat} (v : BitVec w) (n : Nat) :
    lanes n (v.extractLsb' 0 (8 * n)) = lanes n v := by
  refine List.map_congr_left fun i hi => ?_
  have low : i < n := List.mem_range.mp hi
  ext j hj
  have inValue : 8 * i + j < 8 * n := by omega
  simp [byteLane, inValue]

/-- The bytes of a word assembled from memory are the bytes of memory. -/
theorem lanes_LE_memRead (mem : Nat → Byte) (p : Nat) {n : Nat} (fits : n ≤ 8) :
    lanes n (Machine.LE (memRead mem p n)) = memRead mem p n := by
  have bytes := lanes_LE (bs := memRead mem p n) (by simpa using fits)
  rwa [memRead_length] at bytes

theorem hwcrc_LE_memRead (mem : Nat → Byte) (c : Word32) (p : Nat) {n : Nat} (fits : n ≤ 8) :
    hwcrc n c (Machine.LE (memRead mem p n)) = crcraw c (memRead mem p n) := by
  rw [hwcrc, lanes_LE_memRead mem p fits]

/-- A step that takes only the low `n` bytes of the word. -/
theorem hwcrc_low_LE_memRead (mem : Nat → Byte) (c : Word32) (p : Nat) {n : Nat} (fits : n ≤ 8) :
    hwcrc n c ((Machine.LE (memRead mem p n)).extractLsb' 0 (8 * n)) =
      crcraw c (memRead mem p n) := by
  rw [hwcrc, lanes_extractLsb', lanes_LE_memRead mem p fits]

/-! ## The lanes (R123) -/

section
variable (mem : Nat → Byte) (c : Word32) (b : Nat)

/-- A lane whose accumulator is the CRC of the bytes so far takes the word after them. -/
theorem hwcrc8_blockWord (start len j : Nat) (next : b + 8 * j = start + len) :
    hwcrc8 (crcraw c (memRead mem start len)) (blockWord mem b j) =
      crcraw c (memRead mem start (len + 8)) := by
  rw [memRead_add, crcraw_append, blockWord, next]
  exact hwcrc_LE_memRead mem _ _ (Nat.le_refl 8)

/-- After `n` turns each lane holds the raw CRC of its words so far, lane 0 that of the seed word and
its own from `c`, the others from 0. -/
theorem laneLoop_eq (n : Nat) : laneLoop mem c b n =
    { crc0 := crcraw c (memRead mem b (8 * n + 8))
      crc1 := crcraw 0 (memRead mem (b + 344) (8 * n))
      crc2 := crcraw 0 (memRead mem (b + 680) (8 * n)) } := by
  induction n with
  | zero =>
    rw [laneLoop, laneSeed]
    exact congrArg (Lanes.mk · 0 0) (hwcrc8_blockWord mem c b b 0 0 rfl)
  | succ n ih =>
    rw [laneLoop, ih, laneTurn, hwcrc8_blockWord mem c b b (8 * n + 8) (1 + n) (by omega),
      hwcrc8_blockWord mem 0 b (b + 344) (8 * n) (43 + n) (by omega),
      hwcrc8_blockWord mem 0 b (b + 680) (8 * n) (85 + n) (by omega), Nat.mul_succ]

/-! ## The merge (R124) -/

/-- The merge in the form of R124: each lane advanced past the words that follow it. -/
theorem laneMerge_eq (l : Lanes) : laneMerge mem b l =
    hwcrc8 l.crc2 (blockWord mem b 127) ^^^ crcraw l.crc1 (List.replicate 344 0) ^^^
      crcraw l.crc0 (List.replicate 680 0) := by
  have fold0 := advances_K1 l.crc0
  have fold1 := advances_K2 l.crc1
  rw [laneMerge, ← fold0, ← fold1]
  rfl

/-- The three parts of a block: the raw CRC of the whole is that of each part from its own start,
advanced past the parts after it. -/
theorem crcraw_three_parts (x y z : List Byte) :
    crcraw c (x ++ y ++ z) =
      crcraw 0 z ^^^ crcraw (crcraw 0 y) (List.replicate z.length 0) ^^^
        crcraw (crcraw c x) (List.replicate (y.length + z.length) 0) := by
  rw [List.append_assoc, crcraw_append, crcraw_split _ (y ++ z), crcraw_append 0 y z,
    crcraw_split _ z, List.length_append]
  ac_rfl

theorem hwBlock_eq_crcraw : hwBlock mem c b = crcraw c (memRead mem b 1024) := by
  have parts : memRead mem b 1024 =
      memRead mem b 344 ++ memRead mem (b + 344) 336 ++ memRead mem (b + 680) 344 := by
    rw [← memRead_add mem b 344 336, ← memRead_add mem b 680 344]
  have lanes : laneLoop mem c b LANE_WORDS =
      { crc0 := crcraw c (memRead mem b 344)
        crc1 := crcraw 0 (memRead mem (b + 344) 336)
        crc2 := crcraw 0 (memRead mem (b + 680) 336) } := laneLoop_eq mem c b 42
  have trailing : hwcrc8 (crcraw 0 (memRead mem (b + 680) 336)) (blockWord mem b 127) =
      crcraw 0 (memRead mem (b + 680) 344) :=
    hwcrc8_blockWord mem 0 b (b + 680) 336 127 (by omega)
  rw [parts, crcraw_three_parts, memRead_length, memRead_length, hwBlock, lanes, laneMerge_eq,
    trailing]

end

/-- Settles O55: the lanes hold the CRC of the three parts of the block, and the folds join them. -/
theorem blockIsTheRawCrcOfItsBytes : Obligations.BlockIsTheRawCrcOfItsBytes := hwBlock_eq_crcraw

end Sys2Proof.Proofs
end

section
/-! PROOFS. The hardware update (42_hardware_engine.md R121, R125, R126, R128): what its loops and its
tail consume, and the checksum they compute. -/

namespace Sys2Proof.Proofs

open Sys2Proof.Machine Sys2Proof.Laws

/-! ## What the block loop and the tail consume -/

/-- What a size class of the tail leaves: it keeps the end of the range, and leaves fewer than its `n`
bytes where it finds fewer than twice as many. -/
def LeavesFewerThan (n : Nat) (w w' : Work) : Prop :=
  w'.p + w'.rem = w.p + w.rem ∧ (w.rem < 2 * n → w'.rem < n)

theorem atMostOnce_leaves (n : Nat) (turn : (Nat → Byte) → Word32 → Nat → Word32)
    (mem : Nat → Byte) (w : Work) :
    LeavesFewerThan n w (if n ≤ w.rem then consume n turn mem w else w) := by
  by_cases enough : n ≤ w.rem
  · simp only [if_pos enough, LeavesFewerThan, consume]
    omega
  · rw [if_neg enough]
    exact ⟨rfl, fun _ => Nat.lt_of_not_le enough⟩

section
variable (mem : Nat → Byte) (w : Work)

theorem hwBlocks_consumes : (hwBlocks mem w).p = w.p + 1024 * (w.rem / 1024) ∧
    (hwBlocks mem w).rem = w.rem % 1024 :=
  greedyLoop_consumes (turn := hwBlock) (by decide : 0 < BLOCK) (Nat.le_refl _)

theorem hwTail8_consumes : (hwTail8 mem w).p = w.p + 8 * (w.rem / 8) ∧
    (hwTail8 mem w).rem = w.rem % 8 :=
  greedyLoop_consumes (turn := fun mem c p => hwcrc8 c (Machine.LE (memRead mem p 8)))
    (by decide) (Nat.le_refl _)

theorem hwTail4_leaves : LeavesFewerThan 4 w (hwTail4 mem w) :=
  atMostOnce_leaves 4 (fun mem c p => hwcrc4 c (low32 (Machine.LE (memRead mem p 4)))) mem w

theorem hwTail2_leaves : LeavesFewerThan 2 w (hwTail2 mem w) :=
  atMostOnce_leaves 2 (fun mem c p => hwcrc2 c (low16 (Machine.LE (memRead mem p 2)))) mem w

theorem hwTail1_leaves : LeavesFewerThan 1 w (hwTail1 mem w) :=
  atMostOnce_leaves 1 (fun mem c p => hwcrc1 c (mem p)) mem w

/-- Each size class halves the bound on what is left: below 8, 4, 2 and 1. -/
theorem hwTail_consumes : (hwTail mem w).p = w.p + w.rem ∧ (hwTail mem w).rem = 0 := by
  obtain ⟨p8, rem8⟩ := hwTail8_consumes mem w
  obtain ⟨end4, rem4⟩ := hwTail4_leaves mem (hwTail8 mem w)
  obtain ⟨end2, rem2⟩ := hwTail2_leaves mem (hwTail4 mem (hwTail8 mem w))
  obtain ⟨end1, rem1⟩ := hwTail1_leaves mem (hwTail2 mem (hwTail4 mem (hwTail8 mem w)))
  rw [hwTail]
  omega

end

/-- Settles O51: two loops of whole turns, and the size classes of the tail. -/
theorem hardwareLoopsConsumeTheirBytes : Obligations.HardwareLoopsConsumeTheirBytes :=
  fun mem w => ⟨hwBlocks_consumes mem w, hwTail8_consumes mem w, hwTail_consumes mem w⟩

/-! ## The CRC owed -/

/-- A phase of at most one turn leaves the CRC owed as it was. -/
theorem owed_atMostOnce {n : Nat} {turn : (Nat → Byte) → Word32 → Nat → Word32}
    (steps : StepsRawCrc n turn) (mem : Nat → Byte) (w : Work) :
    owed mem (if n ≤ w.rem then consume n turn mem w else w) = owed mem w := by
  split
  case isTrue enough => exact owed_consume steps mem enough
  case isFalse => rfl

theorem hwBlock_stepsRawCrc : StepsRawCrc BLOCK hwBlock := hwBlock_eq_crcraw

theorem hwcrc8_stepsRawCrc :
    StepsRawCrc 8 fun mem c p => hwcrc8 c (Machine.LE (memRead mem p 8)) :=
  fun mem c p => hwcrc_LE_memRead mem c p (by decide)

theorem hwcrc4_stepsRawCrc :
    StepsRawCrc 4 fun mem c p => hwcrc4 c (low32 (Machine.LE (memRead mem p 4))) :=
  fun mem c p => hwcrc_low_LE_memRead mem c p (by decide)

theorem hwcrc2_stepsRawCrc :
    StepsRawCrc 2 fun mem c p => hwcrc2 c (low16 (Machine.LE (memRead mem p 2))) :=
  fun mem c p => hwcrc_low_LE_memRead mem c p (by decide)

theorem lanes_one (b : Byte) : lanes 1 b = [b] := congrArg (fun x => [x]) BitVec.extractLsb'_eq_self

theorem hwcrc1_stepsRawCrc : StepsRawCrc 1 fun mem c p => hwcrc1 c (mem p) :=
  fun mem c p => congrArg (crcraw c) (lanes_one (mem p))

section
variable (mem : Nat → Byte) (w : Work)

theorem owed_hwBlocks : owed mem (hwBlocks mem w) = owed mem w :=
  owed_whileLoop hwBlock_stepsRawCrc mem (fun _ more => of_decide_eq_true more) w.rem w

theorem owed_hwTail8 : owed mem (hwTail8 mem w) = owed mem w :=
  owed_whileLoop hwcrc8_stepsRawCrc mem (fun _ more => of_decide_eq_true more) w.rem w

theorem owed_hwTail : owed mem (hwTail mem w) = owed mem w :=
  calc owed mem (hwTail mem w)
      = owed mem (hwTail2 mem (hwTail4 mem (hwTail8 mem w))) :=
        owed_atMostOnce hwcrc1_stepsRawCrc mem _
    _ = owed mem (hwTail4 mem (hwTail8 mem w)) := owed_atMostOnce hwcrc2_stepsRawCrc mem _
    _ = owed mem (hwTail8 mem w) := owed_atMostOnce hwcrc4_stepsRawCrc mem _
    _ = owed mem w := owed_hwTail8 mem w

/-- The tail consumes all that is left, so its working CRC is the CRC owed. -/
theorem hwTail_c : (hwTail mem w).c = owed mem w := by
  rw [← owed_hwTail, owed_of_none (hwTail_consumes mem w).2]

end

/-! ## The checksum -/

/-- The tail alone computes the checksum, of a range of any length (R128). -/
theorem hwTail_checksum (mem : Nat → Byte) (acc : Word32) (a len : Nat) :
    ~~~(hwTail mem ⟨~~~acc, a, len⟩).c = crc32c acc (memRead mem a len) := by
  rw [hwTail_c]
  rfl

theorem hwUpdate_eq_crc32c (mem : Nat → Byte) (acc : Word32) (a len : Nat) :
    hwUpdate mem acc a len = crc32c acc (memRead mem a len) := by
  rw [hwUpdate, hwTail_c, owed_hwBlocks]
  rfl

/-- Settles O56: the hardware update, either software update and the tail alone each compute the
reference checksum. -/
theorem hardwareUpdateIsTheChecksum : Obligations.HardwareUpdateIsTheChecksum :=
  fun mem acc a len =>
    have hw := hwUpdate_eq_crc32c mem acc a len
    ⟨hw, fun v => hw.trans (swUpdate_builtTable v mem acc a len).symm,
      hw.trans (hwTail_checksum mem acc a len).symm⟩

end Sys2Proof.Proofs
end

section
/-! PROOFS. Where the commands of the hardware engine complete (42_hardware_engine.md R112 to R119,
R127). -/

namespace Sys2Proof.Proofs

open Sys2Proof.Machine Sys2Proof.Laws

/-- The terms of the product of the low halves of two registers, as R19 writes them at 64 bits. -/
theorem foldl_range_eq_clmulBits (x y : Word64) {n : Nat} (hn : n ≤ 32) :
    (List.range n).foldl
      (fun p n => p ^^^ (if y.getLsbD n then (x &&& 0xFFFFFFFF#64) <<< n else 0)) 0 =
      clmulBits (low32 x) (low32 y) n := by
  have operand : x &&& 0xFFFFFFFF#64 = zext64 (low32 x) := by
    have small : x.toNat % 2 ^ 32 < 2 ^ 64 := (Nat.mod_lt _ (by decide)).trans (by decide)
    apply BitVec.eq_of_toNat_eq
    rw [BitVec.toNat_and, zext64, BitVec.toNat_setWidth, low32, BitVec.extractLsb'_toNat,
      Nat.shiftRight_zero, Nat.mod_eq_of_lt small]
    exact Nat.and_two_pow_sub_one_eq_mod x.toNat 32
  induction n with
  | zero => rfl
  | succ n ih =>
    have bit : (low32 y).getLsbD n = y.getLsbD n := by
      have inWord : n < 32 := hn
      simp [low32, inWord]
    rw [List.range_succ, List.foldl_append, ih (Nat.le_of_succ_le hn), clmulBits, bit, ← operand]
    rfl

section
variable {s : State} {c : Context} {rs1 : RegId} {x : Word64} (hx : c.reg rs1 = some x)
include hx

theorem foldRule_of_available (engine : Feat.hwAvailable s.feat = true) (k : Word32) (rd : RegId) :
    foldRule k rd rs1 s c = .ok (s.writeDest rd (zext64 (foldk (low32 x) k))) := by
  rw [foldRule, engine, requireEngine_of_available, source_of_value hx]

section
variable {rs2 : RegId} {y : Word64} (hy : c.reg rs2 = some y)
include hy

theorem crcStepRule_of_available (engine : Feat.crcAvailable s.feat = true)
    (step : Word32 → Word64 → Word32) (rd : RegId) :
    crcStepRule step rd rs1 rs2 s c = .ok (s.writeDest rd (zext64 (step (low32 x) y))) := by
  rw [crcStepRule, engine, requireEngine_of_available, source_of_value hx, source_of_value hy]

theorem updateHWRule_of_readable {rs3 : RegId} {len : Word64} (hn : c.reg rs3 = some len)
    (inRange : InRange s y.toNat len.toNat) (mapped : AllMapped s y.toNat len.toNat)
    (engine : Feat.hwAvailable s.feat = true) (rd : RegId) :
    updateHWRule rd rs1 rs2 rs3 s c = .ok (s.writeDest rd
      (zext64 (hwUpdate s.byteAt (low32 x) y.toNat len.toNat))) := by
  rw [updateHWRule, engine, requireEngine_of_available, source_of_value hx, source_of_value hy,
    source_of_value hn, requireRange_of_readable (outOfRange_of_inRange inRange)
      (firstUnmapped_of_allMapped mapped)]

end
end

/-- Settles O36: one rule for the four sizes; a step over the low bits of its datum takes the low
bytes of the register. -/
theorem crcStepsComplete : Obligations.CrcStepsComplete := by
  intro s c rd rs1 rs2 x y hc hx hy hasHW fCrc
  have engine : Feat.crcAvailable s.feat = true := by simp [Feat.crcAvailable, hasHW, fCrc]
  have bytes (n : Nat) := congrArg (crcraw (low32 x)) (lanes_extractLsb' y n)
  have completes {i : Instr} {step : Word32 → Word64 → Word32} {r : Word32}
      (same : step (low32 x) y = r) :
      command i s (crcStepRule step rd rs1 rs2 s) = .next (s.writeDest rd (zext64 r)) :=
    command_of_ok hc (same ▸ crcStepRule_of_available hx hy engine step rd)
  exact ⟨completes (bytes 1), completes (bytes 2), completes (bytes 4), completes rfl⟩

/-- Settles O37: the rule of CLMUL, and the terms of the product as R19 writes them. -/
theorem clmulCompletes : Obligations.ClmulCompletes := by
  intro s c rd rs1 rs2 x y hc hx hy hasHW fClmul
  have engine : Feat.clmulAvailable s.feat = true := by simp [Feat.clmulAvailable, hasHW, fClmul]
  rw [foldl_range_eq_clmulBits x y (Nat.le_refl 32)]
  refine command_of_ok hc ?_
  rw [engine, requireEngine_of_available, source_of_value hx, source_of_value hy, clmul]

/-- Settles O38: the rule of the fold, at either constant. -/
theorem foldsComplete : Obligations.FoldsComplete :=
  fun _ _ rd _ _ hc hx engine =>
    ⟨command_of_ok hc (foldRule_of_available hx engine K1 rd),
      command_of_ok hc (foldRule_of_available hx engine K2 rd)⟩

/-- Settles O43: the rule of the hardware update. -/
theorem hardwareUpdateCompletes : Obligations.HardwareUpdateCompletes :=
  fun _ _ rd _ _ _ _ _ _ hc hacc ha hn inRange mapped engine =>
    command_of_ok hc (updateHWRule_of_readable hacc ha hn inRange mapped engine rd)

end Sys2Proof.Proofs
end

section
/-! PROOFS. The dispatcher (43_dispatcher.md): the selection (R129), the commands SELECT and TBUILD
(R133; 40_tablebuilder.md R91, R92), and the update engines, which all write the checksum (R135,
R136). -/

namespace Sys2Proof.Proofs

open Sys2Proof.Machine Sys2Proof.Laws

/-! ## The selection (R129) -/

@[simp] theorem hostBE_featOf (c : Config) : Feat.hostBE (featOf c) = c.hostBE :=
  (getLsbD_featOf c 2).trans (by simp)

/-- ENGSEL after the selection, from the parameters. -/
theorem select_featOf (c : Config) : select (featOf c) =
    if c.hasHW && c.fCrc && c.fClmul then 0x00000003#32
    else if !c.hostBE && c.hasSwLE then 0x00000001#32
    else if c.hostBE && c.hasSwBE then 0x00000002#32
    else 0x80000000#32 := by
  simp only [select, hasHW_featOf, fCrc_featOf, fClmul_featOf, hostBE_featOf, hasSwLE_featOf,
    hasSwBE_featOf]
  rfl

/-- Settles O59: the branches of the selection, in its order; a host is not of both byte orders. -/
theorem selectionFollowsTheFeatures : Obligations.SelectionFollowsTheFeatures := by
  intro c
  simp only [select_featOf]
  refine ⟨fun hw => if_pos (by simpa [and_assoc] using hw), fun noHW => ?_⟩
  rw [if_neg (by simpa using noHW)]
  refine ⟨fun le => if_pos (by simpa using le), fun ⟨hostBE, hasSwBE⟩ => ?_, fun noLE noBE => ?_⟩
  · rw [if_neg (by simp [hostBE]), if_pos (by simp [hostBE, hasSwBE])]
  · rw [if_neg (by simpa using noLE), if_neg (by simpa using noBE)]

/-! ## SELECT and TBUILD -/

/-- Settles O33: the rules of the three commands have no check. -/
theorem selectAndTbuildComplete : Obligations.SelectAndTbuildComplete :=
  fun s _ rd hc =>
    ⟨command_of_ok (i := .select rd)
        (rule := fun _ => .ok (s.writeDest rd (zext64 s.engsel))) hc rfl,
      command_of_ok (i := .tbuildLE) (rule := fun _ => .ok (s.build .le)) hc rfl,
      command_of_ok (i := .tbuildBE) (rule := fun _ => .ok (s.build .be)) hc rfl⟩

/-! ## The update engines -/

/-- The rule of the update of a binding's engine; with no engine bound, CONFIG_ERROR (R136). -/
def engineRule (b : Binding) (rd rs1 rs2 rs3 : RegId) (s : State) (c : Context) :
    Except Stop State :=
  match b with
  | .none => .error (.raised .configError 0)
  | .swLE => updateSWRule .le rd rs1 rs2 rs3 s c
  | .swBE => updateSWRule .be rd rs1 rs2 rs3 s c
  | .hw => updateHWRule rd rs1 rs2 rs3 s c

/-- The command that names the engine of a binding; with none, the dispatched UPDATE. -/
def engineCommand (b : Binding) (rd rs1 rs2 rs3 : RegId) : Instr :=
  match b with
  | .none => .update rd rs1 rs2 rs3
  | .swLE => .updateSWLE rd rs1 rs2 rs3
  | .swBE => .updateSWBE rd rs1 rs2 rs3
  | .hw => .updateHW rd rs1 rs2 rs3

/-- The state in which the engine of a binding writes its result: a software engine has its table
built (R108, R109). -/
def withEngineTable (b : Binding) (s : State) : State :=
  match b with
  | .swLE => s.build .le
  | .swBE => s.build .be
  | _ => s

theorem withEngineTable_issuing (b : Binding) (s : State) :
    (withEngineTable b s).issuing = s.issuing := by
  cases b <;> rfl

theorem withEngineTable_ctx? (b : Binding) (s : State) (j : Nat) :
    (withEngineTable b s).ctx? j = s.ctx? j := by
  cases b <;> rfl

/-- The issuing context after a destination write in a state with the same contexts. -/
theorem writeDest_ctx?_of_sameContext {s u : State} {c : Context} (issuing : u.issuing = s.issuing)
    (same : u.ctx? s.issuing = some c) (rd : RegId) (x : Word64) :
    (u.writeDest rd x).ctx? s.issuing = some (c.setReg rd x) := by
  rw [← issuing] at same ⊢
  exact writeDest_ctx?_issuing same rd x

section
variable (rd rs1 rs2 rs3 : RegId)

/-- The dispatched UPDATE runs the rule of the bound engine (R136). -/
theorem exec_update (s : State) : exec (.update rd rs1 rs2 rs3) s =
    command (.update rd rs1 rs2 rs3) s (engineRule (Engsel.bind s.engsel) rd rs1 rs2 rs3 s) := rfl

theorem exec_engineCommand {b : Binding} (named : b ≠ .none) (s : State) :
    exec (engineCommand b rd rs1 rs2 rs3) s =
      command (engineCommand b rd rs1 rs2 rs3) s (engineRule b rd rs1 rs2 rs3 s) := by
  cases b with
  | none => exact absurd rfl named
  | swLE | swBE | hw => rfl

/-- The availability table of R134 reads the parameters, the engine's own check FEAT. -/
theorem availableIn_engineCommand (b : Binding) (c : Config) :
    (engineCommand b rd rs1 rs2 rs3).availableIn c = bindingAvailable (featOf c) b := by
  cases b with
  | none => rfl
  | swLE => exact (hasSwLE_featOf c).symm
  | swBE => exact (hasSwBE_featOf c).symm
  | hw => simp [engineCommand, Instr.availableIn, bindingAvailable, Feat.hwAvailable]

/-- The selection binds an engine whose own command is available (R129, R134). -/
theorem selected_engineCommand_available (c : Config) :
    (engineCommand (Engsel.bind (select (featOf c))) rd rs1 rs2 rs3).availableIn c = true :=
  (availableIn_engineCommand rd rs1 rs2 rs3 _ c).trans (select_binds_available _)

/-- The engine bound in a state with the invariant is available. -/
theorem bound_available {s : State} (inv : s.Inv) :
    bindingAvailable s.feat (Engsel.bind s.engsel) = true :=
  inv.engsel ▸ select_binds_available s.feat

/-- An update command is the dispatched one, or names its engine. -/
theorem updateCommand_cases {i : Instr}
    (update : i ∈ [.update rd rs1 rs2 rs3, .updateSWLE rd rs1 rs2 rs3, .updateSWBE rd rs1 rs2 rs3,
      .updateHW rd rs1 rs2 rs3]) :
    i = .update rd rs1 rs2 rs3 ∨ ∃ b ≠ Binding.none, i = engineCommand b rd rs1 rs2 rs3 := by
  simp only [List.mem_cons, List.not_mem_nil, or_false] at update
  obtain dispatched | le | be | hw := update
  · exact .inl dispatched
  · exact .inr ⟨.swLE, by decide, le⟩
  · exact .inr ⟨.swBE, by decide, be⟩
  · exact .inr ⟨.hw, by decide, hw⟩

/-- An update command whose engine is ready runs the rule of an available engine. -/
theorem engineReady_runs_engine {s : State} (inv : s.Inv) {i : Instr}
    (update : i ∈ [.update rd rs1 rs2 rs3, .updateSWLE rd rs1 rs2 rs3, .updateSWBE rd rs1 rs2 rs3,
      .updateHW rd rs1 rs2 rs3]) (ready : EngineReady i s) :
    ∃ b ≠ Binding.none, bindingAvailable s.feat b = true ∧
      exec i s = command i s (engineRule b rd rs1 rs2 rs3 s) := by
  obtain ⟨bound, available⟩ := ready
  obtain rfl | ⟨b, named, rfl⟩ := updateCommand_cases rd rs1 rs2 rs3 update
  · exact ⟨_, bound rfl, bound_available inv, exec_update rd rs1 rs2 rs3 s⟩
  · rw [availableIn_engineCommand, ← inv.feat] at available
    exact ⟨b, named, available, exec_engineCommand rd rs1 rs2 rs3 named s⟩

end

/-- Settles O27: the rule of the dispatched UPDATE reads no register before the binding. -/
theorem unboundUpdateIsConfigError : Obligations.UnboundUpdateIsConfigError := by
  intro rd rs1 rs2 rs3 s c hc unbound
  rw [exec_update, unbound]
  exact command_of_raised hc rfl

/-! ## Every engine writes the checksum (R18, R135) -/

section
variable {s : State} {c : Context} {rs1 rs2 rs3 : RegId} {acc a len : Word64}
  (hacc : c.reg rs1 = some acc) (ha : c.reg rs2 = some a) (hn : c.reg rs3 = some len)
  (inRange : InRange s a.toNat len.toNat) (mapped : AllMapped s a.toNat len.toNat)
include hacc ha hn inRange mapped

theorem engineRule_of_readable (tables : ∀ v, s.tableLegal v) {b : Binding} (bound : b ≠ .none)
    (available : bindingAvailable s.feat b = true) (rd : RegId) :
    engineRule b rd rs1 rs2 rs3 s c = .ok ((withEngineTable b s).writeDest rd
      (zext64 (crc32c (low32 acc) (memRead s.byteAt a.toNat len.toNat)))) := by
  have software {v : Variant} (available : Feat.swAvailable v s.feat = true) :=
    updateSWRule_of_readable hacc ha hn inRange mapped available (tables v) rd
  simp only [swUpdate_builtTable] at software
  cases b with
  | none => exact absurd rfl bound
  | swLE => exact software available
  | swBE => exact software available
  | hw =>
    rw [← hwUpdate_eq_crc32c]
    exact updateHWRule_of_readable hacc ha hn inRange mapped available rd

end

/-- Settles O44: the bound engine is available, and every engine writes the checksum. -/
theorem dispatchedUpdateCompletes : Obligations.DispatchedUpdateCompletes := by
  intro s c rd rs1 rs2 rs3 acc a len inv hc hacc ha hn inRange mapped bound
  exact command_of_ok hc (engineRule_of_readable hacc ha hn inRange mapped inv.tables bound
    (bound_available inv) rd)

/-- Settles O57: whichever engine is ready writes the checksum, and building its table touches no
context. -/
theorem enginesAreSubstitutable : Obligations.EnginesAreSubstitutable := by
  intro s c rd rs1 rs2 rs3 acc a len i inv hc hacc ha hn inRange mapped update ready
  obtain ⟨b, bound, available, runs⟩ := engineReady_runs_engine rd rs1 rs2 rs3 inv update ready
  have completes := engineRule_of_readable hacc ha hn inRange mapped inv.tables bound available rd
  exact ⟨_, runs.trans (command_of_ok hc completes),
    writeDest_ctx?_of_sameContext (withEngineTable_issuing b s)
      ((withEngineTable_ctx? b s _).trans hc) rd _⟩

/-! ## ENGINE_ABSENT (R136, R153) -/

/-- STATUS tells the causes apart (R150). -/
theorem ofCause_injective : Function.Injective Status.ofCause := by
  have listed (k : Cause) : k ∈ Cause.all := by cases k <;> decide
  exact fun k k' same => List.inj_on_of_nodup_map (by decide) (listed k) (listed k') same

/-- A command that completes leaves STATUS of its context as it was. -/
theorem done_keeps_status {s t : State} {dest : Option RegId} {c d : Context}
    (done : Done s dest t) (hc : s.ctx? s.issuing = some c) (hd : t.ctx? s.issuing = some d) :
    d.status = c.status := by
  have written {u : State} (issuing : u.issuing = s.issuing) (same : u.ctx? s.issuing = some c)
      {rd : RegId} {x : Word64} (hd : (u.writeDest rd x).ctx? s.issuing = some d) :
      d.status = c.status := by
    rw [writeDest_ctx?_of_sameContext issuing same] at hd
    rw [← Option.some.inj hd, setReg_status]
  cases done with
  | build v =>
    rw [build_ctx?, hc] at hd
    rw [Option.some.inj hd]
  | write rd x => exact written rfl hc hd
  | update rd x v =>
    exact written (ensureTable_issuing s v) ((ensureTable_ctx? s v _).trans hc) hd

/-- A rule that raises a cause was to report it. -/
theorem report_of_raised {report : FaultReport} {k : Cause} {f : Word64}
    (raised : Reports report (.error (.raised k f))) : report = some (k, f) := by
  cases report with
  | none => simp [Reports] at raised
  | some reported => cases raised; rfl

theorem rangeCheck_ne_engineAbsent (s : State) (range : Option (Word64 × Nat)) (f : Word64) :
    rangeCheck s range ≠ some (.engineAbsent, f) := by
  unfold rangeCheck
  split
  · simp
  split
  · simp
  split <;> simp

/-- Of the checks of an update, only the first reports ENGINE_ABSENT (R153). -/
theorem unavailable_of_engineAbsent {s : State} {c : Context} {rs : List RegId}
    {range : Option (Word64 × Nat)} {available : Bool} {f : Word64}
    (absent : Reports (engineCheck available (sourcesCheck c rs (rangeCheck s range)))
      (.error (.raised .engineAbsent f))) : available = false := by
  cases available with
  | false => rfl
  | true =>
    have reported := report_of_raised absent
    rw [engineCheck, if_pos rfl] at reported
    unfold sourcesCheck at reported
    split at reported
    · simp at reported
    · exact absurd reported (rangeCheck_ne_engineAbsent s range f)

section
variable {s : State} {c : Context} (b : Binding) (rd rs1 rs2 rs3 : RegId)

theorem engineRule_legal : RuleLegal s (some rd) (engineRule b rd rs1 rs2 rs3 s c) := by
  cases b with
  | none => exact fun _ => rfl
  | swLE | swBE => exact updateSWRule_legal _ _ _ _ _
  | hw => exact updateHWRule_legal _ _ _ _

/-- The checks of an update, whichever engine performs it. -/
theorem engineRule_reports (tables : ∀ v, s.tableLegal v) (bound : b ≠ .none) :
    Reports (engineCheck (bindingAvailable s.feat b) (sourcesCheck c [rs1, rs2, rs3]
      (rangeCheck s (rangeOf (.update rd rs1 rs2 rs3) c)))) (engineRule b rd rs1 rs2 rs3 s c) := by
  cases b with
  | none => exact absurd rfl bound
  | swLE => exact updateSWRule_reports rfl rfl (tables .le) rd rs1
  | swBE => exact updateSWRule_reports rfl rfl (tables .be) rd rs1
  | hw => exact updateHWRule_reports rfl rfl rd rs1

/-- The rule of an available engine does not raise ENGINE_ABSENT. -/
theorem engineRule_ne_engineAbsent (tables : ∀ v, s.tableLegal v)
    (available : bindingAvailable s.feat b = true) (f : Word64) :
    engineRule b rd rs1 rs2 rs3 s c ≠ .error (.raised .engineAbsent f) := by
  intro absent
  have bound : b ≠ .none := by rintro rfl; cases absent
  have reports := engineRule_reports (c := c) b rd rs1 rs2 rs3 tables bound
  rw [absent] at reports
  rw [unavailable_of_engineAbsent reports] at available
  cases available

end

/-- From a state with the invariant the dispatched UPDATE leaves STATUS as it was, or takes a fault
that is not ENGINE_ABSENT. -/
theorem update_status {s t : State} {c d : Context} {rd rs1 rs2 rs3 : RegId} (inv : s.Inv)
    (hc : s.ctx? s.issuing = some c) (h : exec (.update rd rs1 rs2 rs3) s = .next t)
    (hd : t.ctx? s.issuing = some d) :
    d.status = c.status ∨ ∃ k ≠ Cause.engineAbsent, d.status = Status.ofCause k := by
  obtain ⟨c', hc', ended⟩ := command_next (exec_update rd rs1 rs2 rs3 s ▸ h)
  obtain rfl : c = c' := Option.some.inj (hc.symm.trans hc')
  obtain completes | ⟨k, f, raised, rfl⟩ := ended
  · have legal := engineRule_legal (s := s) (c := c) (Engsel.bind s.engsel) rd rs1 rs2 rs3
    rw [completes] at legal
    exact .inl (done_keeps_status legal hc hd)
  · rw [faultEntry_ctx?_same hc] at hd
    refine .inr ⟨k, ?_, by rw [← Option.some.inj hd]⟩
    rintro rfl
    exact engineRule_ne_engineAbsent _ rd rs1 rs2 rs3 inv.tables (bound_available inv) f raised

/-- Settles O28: the selection binds an available engine, whose rule does not raise the cause; and a
context that is not faulted does not hold it. -/
theorem selectionBindsOnlyAvailableEngines : Obligations.SelectionBindsOnlyAvailableEngines := by
  constructor
  · intro c rd a b n
    have available := selected_engineCommand_available rd a b n c
    exact ⟨fun hw => by rwa [hw] at available, fun le => by rwa [le] at available,
      fun be => by rwa [be] at available⟩
  · intro s t c d rd a b n inv hc clean h hd absent
    obtain kept | ⟨k, other, taken⟩ := update_status inv hc h hd
    · rw [Context.faulted, ← kept, absent, faulted_ofCause] at clean
      cases clean
    · exact other (ofCause_injective (taken.symm.trans absent))

end Sys2Proof.Proofs
end

section
/-! PROOFS. What a command leaves as it was inside its own context (10_state.md R31; 44_datapath.md
R148; 60_exceptions.md R158). -/

namespace Sys2Proof.Proofs

open Sys2Proof.Machine Sys2Proof.Laws

/-- A command that completes leaves its context as it was, or writes its destination in it. -/
theorem done_ctx?_issuing {s t : State} {dest : Option RegId} {c : Context} (done : Done s dest t)
    (hc : s.ctx? s.issuing = some c) :
    t.ctx? s.issuing = some c ∨
      ∃ rd x, dest = some rd ∧ t.ctx? s.issuing = some (c.setReg rd x) := by
  cases done with
  | build v => exact .inl ((build_ctx? s v _).trans hc)
  | write rd x => exact .inr ⟨rd, x, rfl, writeDest_ctx?_issuing hc rd x⟩
  | update rd x v =>
    exact .inr ⟨rd, x, rfl, writeDest_ctx?_of_sameContext (ensureTable_issuing s v)
      ((ensureTable_ctx? s v _).trans hc) rd x⟩

/-- Settles O21: a command that completes writes its destination at most, and a fault the three
fault registers. -/
theorem commandFrameInsideTheContext : Obligations.CommandFrameInsideTheContext := by
  intro i s t h
  obtain ⟨c, hc, done | ⟨k, f, -, rfl⟩⟩ := exec_cases h
  · obtain kept | ⟨rd, x, dest, written⟩ := done_ctx?_issuing done hc
    · exact ⟨c, c, hc, kept, fun _ _ => rfl, .inl ⟨rfl, rfl, rfl⟩⟩
    · have others (q : RegId) (other : i.dest ≠ some q) : (c.setReg rd x).reg q = c.reg q :=
        reg_setReg_other c x fun same => other (same ▸ dest)
      exact ⟨c, _, hc, written, others,
        .inl ⟨setReg_status c rd x, setReg_fcmd c rd x, setReg_faddr c rd x⟩⟩
  · exact ⟨c, _, hc, faultEntry_ctx?_same hc _ k f, fun _ _ => rfl,
      .inr ⟨faulted_ofCause k, rfl, rfl⟩⟩

end Sys2Proof.Proofs
end

section
/-! PROOFS. Where the datapath commands complete (44_datapath.md R137 to R147): the bytes a load
reads, and the words the two byte orders make of them. -/

namespace Sys2Proof.Proofs

open Sys2Proof.Machine Sys2Proof.Laws

/-! ## XOR and INV -/

/-- Settles O39: the rules of XOR and INV, whose only check is that the sources hold values. -/
theorem xorAndInvComplete : Obligations.XorAndInvComplete := by
  intro s c rd rs1 rs2 x y hc hx hy
  constructor
  · refine command_of_ok hc ?_
    rw [source_of_value hx, source_of_value hy]
  · refine command_of_ok hc ?_
    rw [source_of_value hx, low32, zext64]

/-! ## The bytes of a load -/

/-- Memory reads as the bytes of the list, from address `a` on. -/
def ReadsAs (s : State) : Nat → List Byte → Prop
  | _, [] => True
  | a, b :: bs => s.readByte a = some b ∧ ReadsAs s (a + 1) bs

section
variable {s : State}

/-- Only a mapped address reads, as the byte stored there (20_memory.md R53). -/
theorem readByte_eq_some_iff {a : Nat} {b : Byte} :
    s.readByte a = some b ↔ s.mapped a = true ∧ s.byteAt a = b := by
  simp [State.readByte]

theorem mapped_lt {a : Nat} (mapped : s.mapped a = true) : a < 2 ^ s.cfg.addrW := by
  simp only [State.mapped, Config.maps, Bool.and_eq_true, decide_eq_true_eq] at mapped
  exact mapped.1

theorem ReadsAs.memRead_eq {a : Nat} {bs : List Byte} (reads : ReadsAs s a bs) :
    memRead s.byteAt a bs.length = bs := by
  induction bs generalizing a with
  | nil => rfl
  | cons b bs ih =>
    obtain ⟨first, rest⟩ := reads
    rw [List.length_cons, memRead, (readByte_eq_some_iff.mp first).2, ih rest]

theorem ReadsAs.allMapped {a : Nat} {bs : List Byte} (reads : ReadsAs s a bs) :
    AllMapped s a bs.length := by
  induction bs generalizing a with
  | nil => exact fun x low high => absurd high (Nat.not_lt.mpr low)
  | cons b bs ih =>
    obtain ⟨first, rest⟩ := reads
    intro x low high
    rw [List.length_cons] at high
    obtain rfl | above := Nat.eq_or_lt_of_le low
    · exact (readByte_eq_some_iff.mp first).1
    · exact ih rest x above (by omega)

/-- Existing bytes lie in the address space, so a range of them is inside it. -/
theorem inRange_of_allMapped {a n : Nat} (mapped : AllMapped s a n) (nonempty : 0 < n) :
    InRange s a n := by
  have last := mapped_lt (mapped (a + n - 1) (by omega) (by omega))
  constructor <;> omega

/-- A load completes where its bytes exist, at any alignment (20_memory.md R58; R139). -/
theorem loadRule_of_readsAs {c : Context} {rs1 : RegId} {a : Word64} (ha : c.reg rs1 = some a)
    {b : Byte} {bs : List Byte} (reads : ReadsAs s a.toNat (b :: bs)) (order : List Byte → Word64)
    (rd : RegId) :
    loadRule order (b :: bs).length rd rs1 s c = .ok (s.writeDest rd (order (b :: bs))) := by
  have mapped := reads.allMapped
  rw [loadRule, source_of_value ha,
    requireRange_of_readable (outOfRange_of_inRange (inRange_of_allMapped mapped (Nat.succ_pos _)))
      (firstUnmapped_of_allMapped mapped), reads.memRead_eq]

end

/-! ## The words of a load -/

/-- The word with the first byte of the list lowest. -/
def Assembles {w : Nat} (x : BitVec w) (bs : List Byte) : Prop := leSum bs = x.toNat

theorem assembles_one (b : Byte) : Assembles b [b] := by simp [Assembles, leSum]

/-- A byte put below a word comes first in the list. -/
theorem Assembles.append {w : Nat} {x : BitVec w} {bs : List Byte} (h : Assembles x bs)
    (b : Byte) : Assembles (x ++ b) (b :: bs) := by
  rw [Assembles, leSum, h, BitVec.toNat_append, ← Nat.shiftLeft_add_eq_or_of_lt b.isLt,
    Nat.shiftLeft_eq]
  omega

theorem Assembles.LE_eq {w : Nat} {x : BitVec w} {bs : List Byte} (h : Assembles x bs) :
    Machine.LE bs = x.zeroExtend 64 :=
  (congrArg (BitVec.ofNat 64) h).trans (BitVec.ofNat_toNat 64 x)

theorem Assembles.BE_eq {w : Nat} {x : BitVec w} {bs : List Byte} (h : Assembles x bs) :
    BE bs.reverse = x.zeroExtend 64 := by
  rw [BE_eq_LE_reverse, List.reverse_reverse, h.LE_eq]

section
variable (b0 b1 b2 b3 b4 b5 b6 b7 : Byte)

theorem assembles_two : Assembles (b1 ++ b0) [b0, b1] := (assembles_one b1).append b0

theorem assembles_four : Assembles (b3 ++ b2 ++ b1 ++ b0) [b0, b1, b2, b3] :=
  ((assembles_two b2 b3).append b1).append b0

theorem assembles_eight : Assembles (b7 ++ b6 ++ b5 ++ b4 ++ b3 ++ b2 ++ b1 ++ b0)
    [b0, b1, b2, b3, b4, b5, b6, b7] :=
  ((((assembles_four b4 b5 b6 b7).append b3).append b2).append b1).append b0

end

/-! ## The loads -/

section
variable {s : State} {c : Context} {rs1 : RegId} {a : Word64}

/-- A command that loads the bytes at its address writes the word that its order makes of them. -/
theorem load_completes (hc : s.ctx? s.issuing = some c) (ha : c.reg rs1 = some a) {i : Instr}
    {order : List Byte → Word64} {rd : RegId} {b : Byte} {bs : List Byte} {x : Word64}
    (word : order (b :: bs) = x) (reads : ReadsAs s a.toNat (b :: bs))
    (runs : exec i s = command i s (loadRule order (b :: bs).length rd rs1 s)) :
    exec i s = .next (s.writeDest rd x) :=
  word ▸ runs.trans (command_of_ok hc (loadRule_of_readsAs ha reads order rd))

end

/-- Settles O40: the bytes of the access, the one at the lowest address least significant. -/
theorem littleEndianLoadsComplete : Obligations.LittleEndianLoadsComplete := by
  intro s c rd rs1 a b0 b1 b2 b3 b4 b5 b6 b7 hc ha h0
  refine ⟨?byte, fun h1 => ⟨?half, fun h2 h3 => ⟨?word, fun h4 h5 h6 h7 => ?double⟩⟩⟩
  case byte => exact load_completes hc ha (assembles_one b0).LE_eq ⟨h0, trivial⟩ rfl
  case half => exact load_completes hc ha (assembles_two b0 b1).LE_eq ⟨h0, h1, trivial⟩ rfl
  case word =>
    exact load_completes hc ha (assembles_four b0 b1 b2 b3).LE_eq ⟨h0, h1, h2, h3, trivial⟩ rfl
  case double =>
    have whole := (assembles_eight b0 b1 b2 b3 b4 b5 b6 b7).LE_eq
    rw [BitVec.zeroExtend, BitVec.setWidth_eq] at whole
    exact load_completes hc ha whole ⟨h0, h1, h2, h3, h4, h5, h6, h7, trivial⟩ rfl

/-- Settles O41: the bytes of the access, the one at the lowest address most significant. -/
theorem bigEndianLoadsComplete : Obligations.BigEndianLoadsComplete := by
  intro s c rd rs1 a b0 b1 b2 b3 b4 b5 b6 b7 hc ha h0
  refine ⟨?byte, fun h1 => ⟨?half, fun h2 h3 => ⟨?word, fun h4 h5 h6 h7 => ?double⟩⟩⟩
  case byte => exact load_completes hc ha (assembles_one b0).BE_eq ⟨h0, trivial⟩ rfl
  case half => exact load_completes hc ha (assembles_two b1 b0).BE_eq ⟨h0, h1, trivial⟩ rfl
  case word =>
    exact load_completes hc ha (assembles_four b3 b2 b1 b0).BE_eq ⟨h0, h1, h2, h3, trivial⟩ rfl
  case double =>
    have whole := (assembles_eight b7 b6 b5 b4 b3 b2 b1 b0).BE_eq
    rw [BitVec.zeroExtend, BitVec.setWidth_eq] at whole
    exact load_completes hc ha whole ⟨h0, h1, h2, h3, h4, h5, h6, h7, trivial⟩ rfl

end Sys2Proof.Proofs
end

section
/-! PROOFS. A command neither reads nor writes another context (60_exceptions.md R168): the rule of
a command, run on a state with another context replaced, answers the same with that context
replaced. -/

namespace Sys2Proof.Proofs

open Sys2Proof.Machine Sys2Proof.Laws

/-! ## Every command is a rule run on the issuing context -/

/-- The rule of a command. -/
def ruleOf : Instr → State → Context → Except Stop State
  | .select rd => fun s _ => .ok (s.writeDest rd (zext64 s.engsel))
  | .tbuildLE => fun s _ => .ok (s.build .le)
  | .tbuildBE => fun s _ => .ok (s.build .be)
  | .treadLE rd rs1 => treadRule .le rd rs1
  | .treadBE rd rs1 => treadRule .be rd rs1
  | .update rd rs1 rs2 rs3 => fun s => engineRule (Engsel.bind s.engsel) rd rs1 rs2 rs3 s
  | .updateSWLE rd rs1 rs2 rs3 => updateSWRule .le rd rs1 rs2 rs3
  | .updateSWBE rd rs1 rs2 rs3 => updateSWRule .be rd rs1 rs2 rs3
  | .updateHW rd rs1 rs2 rs3 => updateHWRule rd rs1 rs2 rs3
  | .crc32cb rd rs1 rs2 => crcStepRule (fun c d => hwcrc1 c (low8 d)) rd rs1 rs2
  | .crc32ch rd rs1 rs2 => crcStepRule (fun c d => hwcrc2 c (low16 d)) rd rs1 rs2
  | .crc32cw rd rs1 rs2 => crcStepRule (fun c d => hwcrc4 c (low32 d)) rd rs1 rs2
  | .crc32cx rd rs1 rs2 => crcStepRule hwcrc8 rd rs1 rs2
  | .clmul rd rs1 rs2 => fun s c =>
    requireEngine (Feat.clmulAvailable s.feat) <|
    source c rs1 fun a =>
    source c rs2 fun b =>
    .ok (s.writeDest rd (clmul (low32 a) (low32 b)))
  | .foldk1 rd rs1 => foldRule K1 rd rs1
  | .foldk2 rd rs1 => foldRule K2 rd rs1
  | .tstepLE rd rs1 rs2 => tstepRule .le rd rs1 rs2
  | .tstepBE rd rs1 rs2 => tstepRule .be rd rs1 rs2
  | .tsliceLE rd rs1 rs2 => tsliceRule .le rd rs1 rs2
  | .tsliceBE rd rs1 rs2 => tsliceRule .be rd rs1 rs2
  | .xor rd rs1 rs2 => fun s c =>
    source c rs1 fun a =>
    source c rs2 fun b =>
    .ok (s.writeDest rd (a ^^^ b))
  | .inv rd rs1 => fun s c =>
    source c rs1 fun a =>
    .ok (s.writeDest rd (zext64 (~~~(low32 a))))
  | .ldleB rd rs1 => loadRule LE 1 rd rs1
  | .ldleH rd rs1 => loadRule LE 2 rd rs1
  | .ldleW rd rs1 => loadRule LE 4 rd rs1
  | .ldleX rd rs1 => loadRule LE 8 rd rs1
  | .ldbeB rd rs1 => loadRule BE 1 rd rs1
  | .ldbeH rd rs1 => loadRule BE 2 rd rs1
  | .ldbeW rd rs1 => loadRule BE 4 rd rs1
  | .ldbeX rd rs1 => loadRule BE 8 rd rs1

theorem exec_eq_command (i : Instr) (s : State) : exec i s = command i s (ruleOf i s) := by
  cases i <;> rfl

/-! ## The effects of a command, beside a replaced context -/

/-- Changes at two different places of a list can be made in either order. -/
theorem modify_set_comm {α : Type} (l : List α) {i j : Nat} (other : j ≠ i) (f : α → α) (a : α) :
    (l.set j a).modify i f = (l.modify i f).set j a := by
  refine List.ext_getElem? fun n => ?_
  simp only [List.getElem?_modify, List.getElem?_set, List.length_modify]
  by_cases here : j = n
  · subst here
    by_cases inside : j < l.length <;> simp [other.symm, inside]
  · simp [here]

section
variable {s : State} {j : Nat} (d : Context)

theorem writeDest_setCtx (other : j ≠ s.issuing) (rd : RegId) (x : Word64) :
    (s.setCtx j d).writeDest rd x = (s.writeDest rd x).setCtx j d :=
  congrArg (fun cs => { s with contexts := cs }) (modify_set_comm _ other _ d)

theorem faultEntry_setCtx {i : Nat} (other : j ≠ i) (w : Word32) (k : Cause) (f : Word64) :
    (s.setCtx j d).faultEntry i w k f = (s.faultEntry i w k f).setCtx j d :=
  congrArg (fun cs => { s with contexts := cs }) (modify_set_comm _ other _ d)

theorem build_setCtx (v : Variant) : (s.setCtx j d).build v = (s.build v).setCtx j d := by
  cases v <;> rfl

theorem ensureTable_setCtx (v : Variant) :
    (s.setCtx j d).ensureTable v = (s.ensureTable v).setCtx j d := by
  simp only [State.ensureTable, setCtx_tvalid, build_setCtx]
  split <;> rfl

theorem firstUnmapped_setCtx (a n : Nat) :
    (s.setCtx j d).firstUnmapped a n = s.firstUnmapped a n := by
  simp only [firstUnmapped_eq_find?, setCtx_mapped]

end

/-! ## Rules that do not look at the replaced context -/

/-- The second answer is the first one, with context `j` replaced in the state it completes in. -/
def AnswersWith (j : Nat) (d : Context) (x y : Except Stop State) : Prop :=
  y = x.map fun t => t.setCtx j d

section
variable {s : State} {j : Nat} {d : Context} {c : Context}

theorem requireEngine_answersWith {available : Bool} {k k' : Except Stop State}
    (h : AnswersWith j d k k') :
    AnswersWith j d (requireEngine available k) (requireEngine available k') := by
  cases available
  · rfl
  · exact h

theorem source_answersWith {r : RegId} {k k' : Word64 → Except Stop State}
    (h : ∀ x, AnswersWith j d (k x) (k' x)) :
    AnswersWith j d (source c r k) (source c r k') := by
  unfold source
  split
  · exact h _
  · rfl

theorem tableOf_answersWith {u u' : State} {v : Variant} (same : u'.table v = u.table v)
    {k k' : Table → Except Stop State} (h : ∀ T, AnswersWith j d (k T) (k' T)) :
    AnswersWith j d (tableOf u v k) (tableOf u' v k') := by
  unfold tableOf
  rw [same]
  split
  · exact h _
  · rfl

theorem requireTable_answersWith {v : Variant} {k k' : Table → Except Stop State}
    (h : ∀ T, AnswersWith j d (k T) (k' T)) :
    AnswersWith j d (requireTable s v k) (requireTable (s.setCtx j d) v k') := by
  unfold requireTable
  rw [setCtx_tvalid]
  split
  · exact tableOf_answersWith (congrFun (setCtx_table s j d) v) h
  · rfl

theorem requireRange_answersWith {a : Word64} {n : Nat} {k k' : Except Stop State}
    (h : AnswersWith j d k k') :
    AnswersWith j d (requireRange s a n k) (requireRange (s.setCtx j d) a n k') := by
  have sameRange : (s.setCtx j d).outOfRange a.toNat n = s.outOfRange a.toNat n := rfl
  unfold requireRange
  rw [sameRange, firstUnmapped_setCtx]
  split
  · rfl
  · split
    · rfl
    · exact h

theorem build_answersWith (v : Variant) :
    AnswersWith j d (.ok (s.build v)) (.ok ((s.setCtx j d).build v)) :=
  congrArg Except.ok (build_setCtx d v)

variable (other : j ≠ s.issuing)
include other

theorem writeDest_answersWith (rd : RegId) (x : Word64) :
    AnswersWith j d (.ok (s.writeDest rd x)) (.ok ((s.setCtx j d).writeDest rd x)) :=
  congrArg Except.ok (writeDest_setCtx d other rd x)

/-- Making sure of a table changes neither the contexts nor which of them is the issuing one. -/
theorem ensureTable_writeDest_answersWith (v : Variant) (rd : RegId) (x : Word64) :
    AnswersWith j d (.ok ((s.ensureTable v).writeDest rd x))
      (.ok (((s.setCtx j d).ensureTable v).writeDest rd x)) := by
  rw [ensureTable_setCtx]
  exact writeDest_answersWith (by rwa [ensureTable_issuing]) rd x

/-! ## The rules that several commands share -/

theorem updateSWRule_answersWith (v : Variant) (rd rs1 rs2 rs3 : RegId) :
    AnswersWith j d (updateSWRule v rd rs1 rs2 rs3 s c)
      (updateSWRule v rd rs1 rs2 rs3 (s.setCtx j d) c) := by
  have sameTable : ((s.setCtx j d).ensureTable v).table v = (s.ensureTable v).table v := by
    rw [ensureTable_setCtx, setCtx_table]
  exact requireEngine_answersWith <| source_answersWith fun _ => source_answersWith fun _ =>
    source_answersWith fun _ => requireRange_answersWith <| tableOf_answersWith sameTable fun _ =>
      ensureTable_writeDest_answersWith other v rd _

theorem updateHWRule_answersWith (rd rs1 rs2 rs3 : RegId) :
    AnswersWith j d (updateHWRule rd rs1 rs2 rs3 s c)
      (updateHWRule rd rs1 rs2 rs3 (s.setCtx j d) c) :=
  requireEngine_answersWith <| source_answersWith fun _ => source_answersWith fun _ =>
    source_answersWith fun _ => requireRange_answersWith <| writeDest_answersWith other rd _

theorem engineRule_answersWith (b : Binding) (rd rs1 rs2 rs3 : RegId) :
    AnswersWith j d (engineRule b rd rs1 rs2 rs3 s c)
      (engineRule b rd rs1 rs2 rs3 (s.setCtx j d) c) := by
  cases b with
  | none => rfl
  | swLE | swBE => exact updateSWRule_answersWith other _ rd rs1 rs2 rs3
  | hw => exact updateHWRule_answersWith other rd rs1 rs2 rs3

theorem treadRule_answersWith (v : Variant) (rd rs1 : RegId) :
    AnswersWith j d (treadRule v rd rs1 s c) (treadRule v rd rs1 (s.setCtx j d) c) :=
  source_answersWith fun _ => requireTable_answersWith fun _ => writeDest_answersWith other rd _

theorem tstepRule_answersWith (v : Variant) (rd rs1 rs2 : RegId) :
    AnswersWith j d (tstepRule v rd rs1 rs2 s c) (tstepRule v rd rs1 rs2 (s.setCtx j d) c) :=
  source_answersWith fun _ => source_answersWith fun _ => requireTable_answersWith fun _ =>
    writeDest_answersWith other rd _

theorem tsliceRule_answersWith (v : Variant) (rd rs1 rs2 : RegId) :
    AnswersWith j d (tsliceRule v rd rs1 rs2 s c) (tsliceRule v rd rs1 rs2 (s.setCtx j d) c) :=
  source_answersWith fun _ => source_answersWith fun _ => requireTable_answersWith fun _ =>
    writeDest_answersWith other rd _

theorem crcStepRule_answersWith (step : Word32 → Word64 → Word32) (rd rs1 rs2 : RegId) :
    AnswersWith j d (crcStepRule step rd rs1 rs2 s c)
      (crcStepRule step rd rs1 rs2 (s.setCtx j d) c) :=
  requireEngine_answersWith <| source_answersWith fun _ => source_answersWith fun _ =>
    writeDest_answersWith other rd _

theorem foldRule_answersWith (k : Word32) (rd rs1 : RegId) :
    AnswersWith j d (foldRule k rd rs1 s c) (foldRule k rd rs1 (s.setCtx j d) c) :=
  requireEngine_answersWith <| source_answersWith fun _ => writeDest_answersWith other rd _

theorem loadRule_answersWith (order : List Byte → Word64) (n : Nat) (rd rs1 : RegId) :
    AnswersWith j d (loadRule order n rd rs1 s c) (loadRule order n rd rs1 (s.setCtx j d) c) :=
  source_answersWith fun _ => requireRange_answersWith <| writeDest_answersWith other rd _

/-! ## Every command -/

theorem ruleOf_answersWith (i : Instr) (c : Context) :
    AnswersWith j d (ruleOf i s c) (ruleOf i (s.setCtx j d) c) := by
  unfold ruleOf
  cases i with
  | select rd => exact writeDest_answersWith other rd _
  | tbuildLE | tbuildBE => exact build_answersWith _
  | treadLE | treadBE => exact treadRule_answersWith other _ _ _
  | update => exact engineRule_answersWith other _ _ _ _ _
  | updateSWLE | updateSWBE => exact updateSWRule_answersWith other _ _ _ _ _
  | updateHW => exact updateHWRule_answersWith other _ _ _ _
  | crc32cb | crc32ch | crc32cw | crc32cx => exact crcStepRule_answersWith other _ _ _ _
  | clmul rd =>
    exact requireEngine_answersWith <| source_answersWith fun a => source_answersWith fun b =>
      writeDest_answersWith other rd (clmul (low32 a) (low32 b))
  | foldk1 | foldk2 => exact foldRule_answersWith other _ _ _
  | tstepLE | tstepBE => exact tstepRule_answersWith other _ _ _ _
  | tsliceLE | tsliceBE => exact tsliceRule_answersWith other _ _ _ _
  | xor rd =>
    exact source_answersWith fun _ => source_answersWith fun _ => writeDest_answersWith other rd _
  | inv rd => exact source_answersWith fun _ => writeDest_answersWith other rd _
  | ldleB | ldleH | ldleW | ldleX | ldbeB | ldbeH | ldbeW | ldbeX =>
    exact loadRule_answersWith other _ _ _ _

/-- The outcome follows the rule's answer: completion, fault entry, and stop alike. -/
theorem command_setCtx {i : Instr} {rule rule' : Context → Except Stop State}
    (h : ∀ c, AnswersWith j d (rule c) (rule' c)) :
    command i (s.setCtx j d) rule' = mapNext (fun t => t.setCtx j d) (command i s rule) := by
  have sameCtx : (s.setCtx j d).ctx? (s.setCtx j d).issuing = s.ctx? s.issuing :=
    setCtx_ctx?_other s d other.symm
  unfold command
  rw [sameCtx]
  cases s.ctx? s.issuing with
  | none => rfl
  | some c =>
    have answer : rule' c = (rule c).map fun t => t.setCtx j d := h c
    simp only [answer]
    match rule c with
    | .ok t => rfl
    | .error (.raised k f) => exact congrArg Host.Outcome.next (faultEntry_setCtx d other _ k f)
    | .error (.stuck f) => rfl

end

/-- Settles O19: the rule's answer on the issuing context is the same but for the replaced
context, and so is what the command makes of it. -/
theorem commandsDoNotTouchOtherContexts : Obligations.CommandsDoNotTouchOtherContexts := by
  intro i s j d other
  rw [exec_eq_command, exec_eq_command]
  exact command_setCtx other (ruleOf_answersWith other i)

end Sys2Proof.Proofs
end

section
/-! PROOFS. Faults and who sees them: a faulted context is stopped until RESET (10_state.md R33;
60_exceptions.md R159), a fault is precise (R158), and ENGINE_ABSENT and UNDEF_OPERAND are the first
causes in the order of R160 (R153, R154). -/

namespace Sys2Proof.Proofs

open Sys2Proof.Machine Sys2Proof.Laws

/-! ## A faulted context (R33, R159) -/

theorem step_issue_of_faulted {s : State} {j : Nat} {w : Word32} {rest : List HostOp}
    {c : Context} (queue : s.pending = .issue j w :: rest) (hc : s.ctx? j = some c)
    (faulted : c.faulted = true) : step s = .next { s with pending := rest } := by
  rw [step_of_pending queue]
  simp [perform, hostIssue, hc, faulted]

/-- STATUS, FCMD and FADDR are those of the context before. -/
def SameFaultRegisters (c d : Context) : Prop :=
  d.status = c.status ∧ d.fcmd = c.fcmd ∧ d.faddr = c.faddr

theorem setReg_sameFaultRegisters (c : Context) (r : RegId) (x : Word64) :
    SameFaultRegisters c (c.setReg r x) :=
  ⟨setReg_status c r x, setReg_fcmd c r x, setReg_faddr c r x⟩

/-- An ISSUE that has an effect names a context that is not faulted, so not this one; and no
operation but WRITE_REG and RESET writes a context otherwise. -/
theorem performed_keeps_faulted {s t : State} {op : HostOp} {j : Nat} {c : Context}
    (done : Performed s op t) (notReset : isReset op = false) (hc : s.ctx? j = some c)
    (faulted : c.faulted = true) : ∃ d, t.ctx? j = some d ∧ SameFaultRegisters c d := by
  have running_ne {i : Nat} {b : Context} (hb : s.ctx? i = some b) (running : b.faulted = false) :
      j ≠ i := by
    rintro rfl
    rw [Option.some.inj (hb.symm.trans hc), faulted] at running
    cases running
  have untouched (same : t.ctx? j = s.ctx? j) : ∃ d, t.ctx? j = some d ∧ SameFaultRegisters c d :=
    ⟨c, same.trans hc, rfl, rfl, rfl⟩
  cases done with
  | writeReg i r v b hb =>
    by_cases here : j = i
    · subst here
      obtain rfl := Option.some.inj (hb.symm.trans hc)
      exact ⟨_, setCtx_ctx?_same hb _, setReg_sameFaultRegisters b r v⟩
    · exact untouched (setCtx_ctx?_other s _ here)
  | illegal i w b e hb running =>
    exact untouched (faultEntry_ctx?_other s w _ _ (running_ne hb running))
  | command i w b instr t hb running _ ran =>
    obtain ⟨-, others⟩ := exec_keeps_otherContexts (s := { s with issuing := i }) ran
    exact untouched (others j (running_ne hb running))
  | reset => cases notReset
  | readReg | refused | readStatus | readFeat | readEngsel | writeMem => exact untouched rfl

theorem resetEngine_ctx? (s : State) {j : Nat} (inside : j < s.cfg.nctx) :
    s.resetEngine.ctx? j = some Context.reset :=
  List.getElem?_replicate_of_lt inside

/-- Settles O7: the steps of the operations that R159 names, and what the others leave alone. -/
theorem faultedContextIsStoppedUntilReset : Obligations.FaultedContextIsStoppedUntilReset := by
  intro s op rest j c queue hc faulted
  refine ⟨?_, ?_, ?_, ?_, fun notReset t h => performed_keeps_faulted
    (performed_of_step queue h) notReset hc faulted, ?_⟩
  · rintro w rfl
    exact step_issue_of_faulted queue hc faulted
  · rintro r v rfl
    exact step_writeReg queue hc
  · rintro r v rfl value
    exact step_readReg_of_value queue hc value
  · rintro rfl
    exact step_readStatus queue hc
  · rintro rfl inside
    exact ⟨_, Context.reset, step_of_pending queue,
      resetEngine_ctx? { s with pending := rest } inside, faulted_zero, by decide, rfl, rfl⟩

/-! ## A fault is precise (R158) -/

/-- CAUSE after a fault entry is the code of the cause. -/
theorem cause_ofCause (k : Cause) : Status.cause (Status.ofCause k) = k.code.setWidth 4 := by
  cases k <;> decide

/-- The reserved bits of STATUS are 0 after a fault entry (R32). -/
theorem ofCause_reserved (k : Cause) {n : Nat} (notFaulted : n ≠ 0) (notCause : ¬(4 ≤ n ∧ n < 8)) :
    (Status.ofCause k).getLsbD n = false := by
  have small : (Status.ofCause k).toNat < 2 ^ 8 := by cases k <;> decide
  by_cases high : 8 ≤ n
  · exact Nat.testBit_lt_two_pow (small.trans_le (Nat.pow_le_pow_right (by decide) high))
  · have low : n = 1 ∨ n = 2 ∨ n = 3 := by omega
    obtain rfl | rfl | rfl := low <;> cases k <;> decide

/-- A fault entry replaces the context by itself with the fault registers written. -/
theorem faultEntry_replaces {s : State} {j : Nat} {w : Word32} {k : Cause} {f : Word64}
    {c d : Context} (hc : s.ctx? j = some c) (hd : (s.faultEntry j w k f).ctx? j = some d) :
    d = { c with status := Status.ofCause k, fcmd := w, faddr := f } ∧
      s.faultEntry j w k f = s.setCtx j d := by
  rw [faultEntry_ctx?_same hc] at hd
  have contexts := List.modify_eq_set_getElem?
    (fun c : Context => { c with status := Status.ofCause k, fcmd := w, faddr := f }) j s.contexts
  rw [show s.contexts[j]? = some c from hc] at contexts
  obtain rfl := Option.some.inj hd
  exact ⟨rfl, congrArg (fun cs => { s with contexts := cs }) contexts⟩

/-- An ISSUE that leaves its context faulted, and did not find it so, wrote the fault registers of
that context and nothing else. -/
theorem performed_fault {s t : State} {j : Nat} {w : Word32} {c d : Context}
    (done : Performed s (.issue j w) t) (hc : s.ctx? j = some c) (running : c.faulted = false)
    (hd : t.ctx? j = some d) (faulted : d.faulted = true) :
    ∃ k f, d = { c with status := Status.ofCause k, fcmd := w, faddr := f } ∧
      t = State.setCtx { s with issuing := t.issuing } j d := by
  cases done with
  | refused =>
    rw [Option.some.inj (hc.symm.trans hd), faulted] at running
    cases running
  | illegal => exact ⟨_, _, faultEntry_replaces hc hd⟩
  | command _ _ _ i _ _ _ legal ran =>
    obtain ⟨-, -, done | ⟨k, f, -, rfl⟩⟩ := exec_cases ran
    · have kept := done_keeps_status done hc hd
      rw [Context.faulted, kept, ← Context.faulted, running] at faulted
      cases faulted
    · rw [legalWordIsItsCommandsWord w i legal] at hd ⊢
      exact ⟨k, f, faultEntry_replaces (s := { s with issuing := j }) hc hd⟩

/-- Settles O24: the fault registers written are those of a cause, and the rest stays. -/
theorem faultsArePrecise : Obligations.FaultsArePrecise := by
  intro s t j w rest c d queue hc running h hd faulted
  obtain ⟨k, f, rfl, entered⟩ := performed_fault (performed_of_step queue h) hc running hd faulted
  refine ⟨k, f, rfl, faulted, ?_, fun n => ofCause_reserved k, entered⟩
  rw [cause_ofCause]
  cases k <;> rfl

/-! ## The first cause that applies (R153, R154) -/

section
variable {i : Instr} {s : State} {c : Context}

/-- The dispatched UPDATE has no availability condition of its own (R134). -/
theorem notDispatched_of_unavailable {cfg : Config} (unavailable : i.availableIn cfg = false) :
    i.isDispatched = false := by
  cases i with
  | update => cases unavailable
  | _ => rfl

theorem firstFault_of_unavailable (unavailable : i.availableIn s.cfg = false) :
    firstFault i s c = some (.engineAbsent, 0) := by
  rw [firstFault_eq, notDispatched_of_unavailable unavailable, unavailable]
  rfl

/-- With point 3 of R160 passed, the sources are checked next. -/
theorem firstFault_of_engineReady (ready : EngineReady i s) : firstFault i s c =
    sourcesCheck c i.sources (tableCheck s i.tableNeeded (rangeCheck s (rangeOf i c))) := by
  obtain ⟨bound, available⟩ := ready
  have dispatch : (i.isDispatched && Engsel.bind s.engsel == .none) = false := by
    simpa using bound
  rw [firstFault_eq, dispatch, available]
  rfl

/-- The search of the sources finds the first without a value. -/
theorem sourcesCheck_of_valueless {pre post : List RegId} {r : RegId}
    (hold : ∀ q ∈ pre, (c.reg q).isSome = true) (valueless : c.reg r = none) (later : FaultReport) :
    sourcesCheck c (pre ++ r :: post) later = some (.undefOperand, BitVec.ofNat 64 r.val) := by
  have found : ((pre ++ r :: post).find? fun q => (c.reg q).isNone) = some r :=
    List.find?_eq_some_iff_append.mpr ⟨by simp [valueless], pre, post, rfl, by simpa using hold⟩
  rw [sourcesCheck, found]

end

/-- Settles O26: ENGINE_ABSENT is the first cause that applies, and comes before any register is
read. -/
theorem unavailableEngineIsAbsent : Obligations.UnavailableEngineIsAbsent :=
  fun _ _ _ inv hc unavailable => exec_of_firstFault inv hc (firstFault_of_unavailable unavailable)

/-- Settles O29: UNDEF_OPERAND is the first cause that applies. -/
theorem firstValuelessSourceIsReported : Obligations.FirstValuelessSourceIsReported := by
  refine ⟨fun _ => rfl, fun i s c pre post r inv hc ready sources hold valueless => ?_⟩
  refine exec_of_firstFault inv hc ?_
  rw [firstFault_of_engineReady ready, sources]
  exact sourcesCheck_of_valueless hold valueless _

end Sys2Proof.Proofs
end

section
/-! PROOFS. Which causes a command's rule can raise (60_exceptions.md R155, R160): TABLE_INVALID only
where a table is needed, and otherwise exactly what `firstFault` says, with no fault register changed
where it says nothing. -/

namespace Sys2Proof.Proofs

open Sys2Proof.Machine Sys2Proof.Laws

/-! ## What a rule does to the fault registers -/

section
variable {s t : State} {c : Context}

theorem ruleOf_legal (i : Instr) (s : State) (c : Context) :
    RuleLegal s i.dest (ruleOf i s c) := by
  unfold ruleOf
  cases i with
  | select => exact Done.write _ _
  | tbuildLE | tbuildBE => exact Done.build _
  | treadLE | treadBE => exact treadRule_legal _ _ _
  | update => exact engineRule_legal _ _ _ _ _
  | updateSWLE | updateSWBE => exact updateSWRule_legal _ _ _ _ _
  | updateHW => exact updateHWRule_legal _ _ _ _
  | crc32cb | crc32ch | crc32cw | crc32cx => exact crcStepRule_legal _ _ _ _
  | clmul => exact requireEngine_legal <| source_legal fun _ => source_legal fun _ => Done.write _ _
  | foldk1 | foldk2 => exact foldRule_legal _ _ _
  | tstepLE | tstepBE => exact tstepRule_legal _ _ _ _
  | tsliceLE | tsliceBE => exact tsliceRule_legal _ _ _ _
  | xor => exact source_legal fun _ => source_legal fun _ => Done.write _ _
  | inv => exact source_legal fun _ => Done.write _ _
  | ldleB | ldleH | ldleW | ldleX | ldbeB | ldbeH | ldbeW | ldbeX => exact loadRule_legal _ _ _ _

theorem done_of_ruleOf {i : Instr} (completes : ruleOf i s c = .ok t) : Done s i.dest t := by
  have legal := ruleOf_legal i s c
  rwa [completes] at legal

theorem done_keeps_faultRegisters {dest : Option RegId} (done : Done s dest t)
    (hc : s.ctx? s.issuing = some c) :
    ∃ d, t.ctx? s.issuing = some d ∧ SameFaultRegisters c d := by
  obtain kept | ⟨rd, x, -, written⟩ := done_ctx?_issuing done hc
  · exact ⟨c, kept, rfl, rfl, rfl⟩
  · exact ⟨_, written, setReg_sameFaultRegisters c rd x⟩

/-- A command leaves STATUS as it was, or its rule raised the cause that STATUS then holds. -/
theorem exec_status {i : Instr} {d : Context} (hc : s.ctx? s.issuing = some c)
    (h : exec i s = .next t) (hd : t.ctx? s.issuing = some d) :
    d.status = c.status ∨
      ∃ k f, ruleOf i s c = .error (.raised k f) ∧ d.status = Status.ofCause k := by
  obtain ⟨c', hc', ended⟩ := command_next (exec_eq_command i s ▸ h)
  obtain rfl : c = c' := Option.some.inj (hc.symm.trans hc')
  obtain completes | ⟨k, f, raised, rfl⟩ := ended
  · exact .inl (done_keeps_status (done_of_ruleOf completes) hc hd)
  · rw [faultEntry_ctx?_same hc] at hd
    exact .inr ⟨k, f, raised, by rw [← Option.some.inj hd]⟩

end

/-! ## Commands that need a table (R155) -/

section
variable {s : State} {c : Context} {v : Variant}

/-- A source that holds a value leaves the answer to what comes after it. -/
theorem source_of_hold {r : RegId} (hold : (c.reg r).isSome = true)
    {k : Word64 → Except Stop State} {y : Except Stop State} (h : ∀ x, k x = y) :
    source c r k = y := by
  obtain ⟨x, value⟩ := Option.isSome_iff_exists.mp hold
  exact (source_of_value value k).trans (h x)

theorem ruleOf_of_unbuilt {i : Instr} (needed : i.tableNeeded = some v) (hold : SourcesHold i c)
    (unbuilt : s.tvalid v = false) : ruleOf i s c = .error (.raised .tableInvalid 0) := by
  cases i with
  | treadLE | treadBE =>
    cases needed
    exact source_of_hold (hold _ (.head _)) fun _ => requireTable_of_invalid unbuilt _
  | tstepLE | tstepBE | tsliceLE | tsliceBE =>
    cases needed
    exact source_of_hold (hold _ (.head _)) fun _ => source_of_hold (hold _ (.tail _ (.head _)))
      fun _ => requireTable_of_invalid unbuilt _
  | _ => cases needed

end

/-! ## Commands that need none -/

/-- The answer is not TABLE_INVALID. -/
def NotTableInvalid (x : Except Stop State) : Prop := ∀ f, x ≠ .error (.raised .tableInvalid f)

section
variable {s : State} {c : Context}

theorem ok_notTableInvalid (t : State) : NotTableInvalid (.ok t) := nofun

theorem requireEngine_notTableInvalid {available : Bool} {k : Except Stop State}
    (h : NotTableInvalid k) : NotTableInvalid (requireEngine available k) := by
  cases available
  · exact nofun
  · exact h

theorem source_notTableInvalid {r : RegId} {k : Word64 → Except Stop State}
    (h : ∀ x, NotTableInvalid (k x)) : NotTableInvalid (source c r k) := by
  unfold source
  split
  · exact h _
  · exact nofun

theorem tableOf_notTableInvalid {v : Variant} {k : Table → Except Stop State}
    (h : ∀ T, NotTableInvalid (k T)) : NotTableInvalid (tableOf s v k) := by
  unfold tableOf
  split
  · exact h _
  · exact nofun

theorem requireRange_notTableInvalid {a : Word64} {n : Nat} {k : Except Stop State}
    (h : NotTableInvalid k) : NotTableInvalid (requireRange s a n k) := by
  unfold requireRange
  split
  · exact nofun
  · split
    · exact nofun
    · exact h

/-- A software update builds its table where it is not valid (R155). -/
theorem updateSWRule_notTableInvalid (v : Variant) (rd rs1 rs2 rs3 : RegId) :
    NotTableInvalid (updateSWRule v rd rs1 rs2 rs3 s c) :=
  requireEngine_notTableInvalid <| source_notTableInvalid fun _ => source_notTableInvalid fun _ =>
    source_notTableInvalid fun _ => requireRange_notTableInvalid <| tableOf_notTableInvalid fun _ =>
      ok_notTableInvalid _

theorem updateHWRule_notTableInvalid (rd rs1 rs2 rs3 : RegId) :
    NotTableInvalid (updateHWRule rd rs1 rs2 rs3 s c) :=
  requireEngine_notTableInvalid <| source_notTableInvalid fun _ => source_notTableInvalid fun _ =>
    source_notTableInvalid fun _ => requireRange_notTableInvalid <| ok_notTableInvalid _

theorem engineRule_notTableInvalid (b : Binding) (rd rs1 rs2 rs3 : RegId) :
    NotTableInvalid (engineRule b rd rs1 rs2 rs3 s c) := by
  cases b with
  | none => exact nofun
  | swLE | swBE => exact updateSWRule_notTableInvalid _ _ _ _ _
  | hw => exact updateHWRule_notTableInvalid _ _ _ _

theorem loadRule_notTableInvalid (order : List Byte → Word64) (n : Nat) (rd rs1 : RegId) :
    NotTableInvalid (loadRule order n rd rs1 s c) :=
  source_notTableInvalid fun _ => requireRange_notTableInvalid <| ok_notTableInvalid _

theorem ruleOf_notTableInvalid {i : Instr} (needless : i.tableNeeded = none) :
    NotTableInvalid (ruleOf i s c) := by
  unfold ruleOf
  cases i with
  | treadLE | treadBE | tstepLE | tstepBE | tsliceLE | tsliceBE => cases needless
  | select | tbuildLE | tbuildBE => exact ok_notTableInvalid _
  | update => exact engineRule_notTableInvalid _ _ _ _ _
  | updateSWLE | updateSWBE => exact updateSWRule_notTableInvalid _ _ _ _ _
  | updateHW => exact updateHWRule_notTableInvalid _ _ _ _
  | crc32cb | crc32ch | crc32cw | crc32cx | clmul =>
    exact requireEngine_notTableInvalid <| source_notTableInvalid fun _ =>
      source_notTableInvalid fun _ => ok_notTableInvalid _
  | foldk1 | foldk2 =>
    exact requireEngine_notTableInvalid <| source_notTableInvalid fun _ => ok_notTableInvalid _
  | xor => exact source_notTableInvalid fun _ => source_notTableInvalid fun _ => ok_notTableInvalid _
  | inv => exact source_notTableInvalid fun _ => ok_notTableInvalid _
  | ldleB | ldleH | ldleW | ldleX | ldbeB | ldbeH | ldbeW | ldbeX =>
    exact loadRule_notTableInvalid _ _ _ _

end

/-- Settles O30: the rule of a command that needs a table raises the cause, that of any other does
not; and a context that is not faulted does not hold it. -/
theorem unbuiltTableIsInvalid : Obligations.UnbuiltTableIsInvalid := by
  intro i s c hc
  refine ⟨fun v needed hold unbuilt => ?_, fun needless t d running h hd invalid => ?_⟩
  · rw [exec_eq_command]
    exact command_of_raised hc (ruleOf_of_unbuilt needed hold unbuilt)
  · obtain kept | ⟨k, f, raised, taken⟩ := exec_status hc h hd
    · rw [Context.faulted, ← kept, invalid, faulted_ofCause] at running
      cases running
    · obtain rfl := ofCause_injective (taken.symm.trans invalid)
      exact ruleOf_notTableInvalid needless f raised

/-! ## The first cause that applies (R160) -/

section
variable {s : State} (inv : s.Inv)
include inv

/-- The checks of `firstFault`, for every command but the dispatched UPDATE. -/
theorem ruleOf_reports_of_notDispatched {i : Instr} (c : Context)
    (plain : i.isDispatched = false) :
    Reports (engineCheck (i.availableIn s.cfg) (sourcesCheck c i.sources
      (tableCheck s i.tableNeeded (rangeCheck s (rangeOf i c))))) (ruleOf i s c) := by
  have le := inv.tables .le
  have be := inv.tables .be
  have hw := hwAvailable_feat inv.feat
  unfold ruleOf
  cases i with
  | update => cases plain
  | select | tbuildLE | tbuildBE => exact ok_reports _
  | treadLE => exact treadRule_reports le _ _
  | treadBE => exact treadRule_reports be _ _
  | updateSWLE => exact updateSWRule_reports rfl (swAvailable_le_feat inv.feat) le _ _
  | updateSWBE => exact updateSWRule_reports rfl (swAvailable_be_feat inv.feat) be _ _
  | updateHW => exact updateHWRule_reports rfl hw _ _
  | crc32cb | crc32ch | crc32cw | crc32cx =>
    exact crcStepRule_reports (crcAvailable_feat inv.feat) _ _ _ _
  | clmul =>
    dsimp only
    rw [clmulAvailable_feat inv.feat]
    exact requireEngine_reports <| source_reports fun _ _ => source_reports fun _ _ => ok_reports _
  | foldk1 | foldk2 => exact foldRule_reports hw _ _ _
  | tstepLE => exact tstepRule_reports le _ _ _
  | tstepBE => exact tstepRule_reports be _ _ _
  | tsliceLE => exact tsliceRule_reports le _ _ _
  | tsliceBE => exact tsliceRule_reports be _ _ _
  | xor => exact source_reports fun _ _ => source_reports fun _ _ => ok_reports _
  | inv => exact source_reports fun _ _ => ok_reports _
  | ldleB | ldleH | ldleW | ldleX | ldbeB | ldbeH | ldbeW | ldbeX =>
    exact loadRule_reports rfl _ _

/-- R160: the rule raises the first cause that applies, and completes where there is none. The
dispatched UPDATE fails point 3 only unbound, since the engine it binds is available. -/
theorem ruleOf_reports (i : Instr) (c : Context) : Reports (firstFault i s c) (ruleOf i s c) := by
  rw [firstFault_eq]
  cases dispatched : i.isDispatched with
  | false => exact ruleOf_reports_of_notDispatched inv c dispatched
  | true =>
    cases i with
    | update rd rs1 rs2 rs3 =>
      by_cases bound : Engsel.bind s.engsel = .none
      · simp only [ruleOf, bound]
        rfl
      · have reports := engineRule_reports (c := c) _ rd rs1 rs2 rs3 inv.tables bound
        rw [bound_available inv] at reports
        rwa [if_neg (by simpa using bound)]
    | _ => cases dispatched

/-- Where no cause applies the command completes, and the fault registers stay. -/
theorem exec_of_noFault {i : Instr} {c : Context} (hc : s.ctx? s.issuing = some c)
    (noFault : firstFault i s c = none) : ∃ t d, exec i s = .next t ∧
      t.ctx? s.issuing = some d ∧ SameFaultRegisters c d := by
  have reports := ruleOf_reports inv i c
  rw [noFault] at reports
  obtain ⟨t, completes⟩ := reports
  obtain ⟨d, hd, kept⟩ := done_keeps_faultRegisters (done_of_ruleOf completes) hc
  exact ⟨t, d, (exec_eq_command i s).trans (command_of_ok hc completes), hd, kept⟩

end

/-- Settles O25: a refused ISSUE, an illegal word, and a command in the state in which its rule
runs. -/
theorem firstApplicableFaultIsReported : Obligations.FirstApplicableFaultIsReported := by
  intro s j w rest c inv queue hc
  refine ⟨step_issue_of_faulted queue hc, fun running ⟨e, illegal⟩ =>
    step_issue_of_illegal queue hc running illegal, fun i running legal => ?_⟩
  have inv' : State.Inv { s with pending := rest, issuing := j } :=
    inv_bookkeeping inv rest s.observed j
  rw [step_issue_of_legal queue hc running legal, ← legalWordIsItsCommandsWord w i legal]
  exact ⟨fun k f first => exec_of_firstFault inv' hc first,
    fun noFault => exec_of_noFault inv' hc noFault⟩

end Sys2Proof.Proofs
end

section
/-! PROOFS. Reset, launch, and how a step ends (70_reset_and_hazards.md R176, R177, R181, R192): a
launch meets the invariant, and from the invariant a step stops only where the host port refuses. -/

namespace Sys2Proof.Proofs

open Sys2Proof.Machine Sys2Proof.Laws

/-! ## Reset and launch -/

/-- Settles O11: the context after reset, the layout of FEAT, and the tables after RESET; the other
clauses are what `State.resetEngine` writes or leaves. -/
theorem resetLeavesTheResetTable : Obligations.ResetLeavesTheResetTable := by
  intro s rest queue
  refine ⟨_, step_of_pending queue, List.length_replicate, fun c hc => ?_,
    getLsbD_featOf s.cfg, rfl, fun v => ⟨resetEngine_tvalid _ v, resetEngine_table _ v⟩,
    fun _ => rfl, rfl, rfl, rfl, rfl⟩
  obtain rfl := List.eq_of_mem_replicate hc
  exact ⟨reg_zero _, fun _ => reset_reg, rfl, rfl, rfl⟩

theorem launch_tableLegal (c : Config) (mem : List Host.Cell) (v : Variant) :
    (State.launch c mem).tableLegal v := by
  cases v <;> exact .inr ⟨rfl, rfl⟩

theorem launch_inv {c : Config} {mem : List Host.Cell} (ranges : c.wellFormed = true)
    (canonical : Memory.wf c.fill mem = true) (mapped : ∀ p ∈ mem, Config.maps c p.1 = true) :
    (State.launch c mem).Inv where
  cfg := ranges
  contexts := List.length_replicate
  legal d hd := by
    obtain rfl := List.eq_of_mem_replicate hd
    exact legal_reset c
  feat := rfl
  engsel := rfl
  tables := launch_tableLegal c mem
  mem := canonical
  memMapped := mapped

theorem launch_clean (c : Config) (mem : List Host.Cell) : (State.launch c mem).Clean := by
  intro d hd
  obtain rfl := List.eq_of_mem_replicate hd
  exact faulted_zero

/-- Settles O13: the invariant and `Clean` say nothing of the queue. -/
theorem launchStatesMeetTheInvariant : Obligations.LaunchStatesMeetTheInvariant :=
  fun c mem ops ranges canonical mapped =>
    ⟨inv_bookkeeping (launch_inv ranges canonical mapped) ops [] 0, launch_clean c mem⟩

/-- Settles O12: `State.reset` is the launch of the reference configuration with nothing listed. -/
theorem resetStateMeetsTheInvariant : Obligations.ResetStateMeetsTheInvariant :=
  ⟨launch_inv (by decide) reset_mem_wf (by simp), launch_clean _ _⟩

/-! ## Where a step ends -/

/-- The operations of the host port that are refused, each with the reason: one that names no
context (assumption log 8), and those that R50 and R49 refuse. -/
inductive RefusedOperation (s : State) : HostOp → Refusal → Prop
  | noSuchContext (op : HostOp) (missing : op.wellFormed s.cfg.nctx = false) :
      RefusedOperation s op .noSuchContext
  | readRegWithoutValue (j : Nat) (r : RegId) (c : Context) (hc : s.ctx? j = some c)
      (noValue : c.reg r = none) : RefusedOperation s (.readReg j r) .readRegWithoutValue
  | writeMemUnmapped (a : Word64) (b : Byte) (unmapped : s.mapped a.toNat = false) :
      RefusedOperation s (.writeMem a b) .writeMemUnmapped

section
variable {s : State} (inv : s.Inv)
include inv

theorem ctx?_eq_none_iff {j : Nat} : s.ctx? j = none ↔ s.cfg.nctx ≤ j := by
  rw [State.ctx?, List.getElem?_eq_none_iff, inv.contexts]

theorem exists_ctx? {j : Nat} (inside : j < s.cfg.nctx) : ∃ c, s.ctx? j = some c := by
  rw [← Option.ne_none_iff_exists', ne_eq, ctx?_eq_none_iff inv]
  exact Nat.not_le.mpr inside

/-- A command issued to an existing context takes its first fault, or completes. -/
theorem exec_answers_next (i : Instr) {c : Context} (hc : s.ctx? s.issuing = some c) :
    ∃ t, exec i s = .next t := by
  cases first : firstFault i s c with
  | some fault => exact ⟨_, exec_of_firstFault inv hc first⟩
  | none =>
    obtain ⟨t, -, completes, -⟩ := exec_of_noFault inv hc first
    exact ⟨t, completes⟩

variable {rest : List HostOp}

/-- R192: an ISSUE to an existing context is refused without effect, takes ILLEGAL_COMMAND, or runs
its command; each is a next state. -/
theorem step_issue_answers_next {j : Nat} {w : Word32} (queue : s.pending = .issue j w :: rest)
    (inside : j < s.cfg.nctx) : ∃ t, step s = .next t := by
  obtain ⟨c, hc⟩ := exists_ctx? inv inside
  cases running : c.faulted with
  | true => exact ⟨_, step_issue_of_faulted queue hc running⟩
  | false =>
    cases decoded : decode w with
    | error e => exact ⟨_, step_issue_of_illegal queue hc running decoded⟩
    | ok i =>
      rw [step_issue_of_legal queue hc running decoded]
      exact exec_answers_next (inv_bookkeeping inv rest s.observed j) i hc

/-- An operation that names a context that does not exist is refused (assumption log 8). -/
theorem step_of_missing_context {op : HostOp} (queue : s.pending = op :: rest)
    (missing : op.wellFormed s.cfg.nctx = false) : step s = .refused .noSuchContext := by
  have noCtx {j : Nat} (h : decide (j < s.cfg.nctx) = false) : s.ctx? j = none :=
    (ctx?_eq_none_iff inv).mpr (Nat.not_lt.mp (of_decide_eq_false h))
  rw [step_of_pending queue]
  cases op with
  | writeReg j r v => simp [perform, hostWriteReg, noCtx missing]
  | readReg j r => simp [perform, hostReadReg, noCtx missing]
  | issue j w => simp [perform, hostIssue, noCtx missing]
  | readStatus j => simp [perform, hostReadStatus, noCtx missing]
  | readFeat | readEngsel | writeMem | reset => cases missing

/-- A pending operation answers a next state, or is one of those refused. -/
theorem step_next_or_refused {op : HostOp} (queue : s.pending = op :: rest) :
    (∃ t, step s = .next t) ∨ ∃ q, step s = .refused q ∧ RefusedOperation s op q := by
  cases named : op.wellFormed s.cfg.nctx
  case false => exact .inr ⟨_, step_of_missing_context inv queue named, .noSuchContext op named⟩
  case true =>
    cases op with
    | writeReg j r v =>
      obtain ⟨c, hc⟩ := exists_ctx? inv (of_decide_eq_true named)
      exact .inl ⟨_, step_writeReg queue hc⟩
    | readReg j r =>
      obtain ⟨c, hc⟩ := exists_ctx? inv (of_decide_eq_true named)
      cases value : c.reg r with
      | some v => exact .inl ⟨_, step_readReg_of_value queue hc value⟩
      | none =>
        exact .inr ⟨_, step_readReg_of_none queue hc value, .readRegWithoutValue j r c hc value⟩
    | issue j w => exact .inl (step_issue_answers_next inv queue (of_decide_eq_true named))
    | readStatus j =>
      obtain ⟨c, hc⟩ := exists_ctx? inv (of_decide_eq_true named)
      exact .inl ⟨_, step_readStatus queue hc⟩
    | readFeat => exact .inl ⟨_, step_readFeat queue⟩
    | readEngsel => exact .inl ⟨_, step_readEngsel queue⟩
    | writeMem a b =>
      cases mapped : s.mapped a.toNat with
      | true => exact .inl ⟨_, step_writeMem_of_mapped queue mapped⟩
      | false =>
        exact .inr ⟨_, step_writeMem_of_unmapped queue mapped, .writeMemUnmapped a b mapped⟩
    | reset => exact .inl ⟨_, step_of_pending queue⟩

/-- A step answers a next state, or stops at an operation that is refused. -/
theorem step_ends : (∃ t, step s = .next t) ∨
    ∃ op rest q, s.pending = op :: rest ∧ step s = .refused q ∧ RefusedOperation s op q := by
  cases queue : s.pending with
  | nil => exact .inl ⟨s, step_of_idle queue⟩
  | cons op rest =>
    exact (step_next_or_refused inv queue).imp_right fun ⟨q, stops, reason⟩ =>
      ⟨op, rest, q, rfl, stops, reason⟩

end

/-- Settles O15: under the invariant `firstFault` decides every command, so a step ends as
`step_ends` says. -/
theorem stepStopsOnlyAtRefusedHostOperations :
    Obligations.StepStopsOnlyAtRefusedHostOperations := by
  intro s inv
  refine ⟨fun j w rest queue inside => step_issue_answers_next inv queue inside,
    fun f faults => ?_, fun q refused => ?_⟩
  · obtain ⟨t, next⟩ | ⟨_, _, _, _, stops, _⟩ := step_ends inv
    · cases next.symm.trans faults
    · cases stops.symm.trans faults
  · obtain ⟨t, next⟩ | ⟨op, rest, q', queue, stops, reason⟩ := step_ends inv
    · cases next.symm.trans refused
    · cases stops.symm.trans refused
      refine ⟨op, rest, queue, ?_⟩
      cases reason with
      | noSuchContext _ missing => exact .inl ⟨rfl, missing⟩
      | readRegWithoutValue j r c hc noValue => exact .inr (.inl ⟨rfl, j, r, c, rfl, hc, noValue⟩)
      | writeMemUnmapped a b unmapped => exact .inr (.inr ⟨rfl, a, b, rfl, unmapped⟩)

end Sys2Proof.Proofs
end
